-- ==== Sys2Proof/Word.lean ====
section
/-! DEFINITION. The machine's words (00_scope.md rules R6, R8, R9): a word is 32 bits, bit 0 the least significant,
and word arithmetic is modulo 2^32, which is `BitVec`'s. -/

namespace Sys2Proof

/-- A register value, an ALU result, an address or an instruction word (rule R9). -/
abbrev Word := BitVec 32

/-- A halfword. -/
abbrev Half := BitVec 16

/-- A byte, the smallest addressable unit (rule R81). -/
abbrev Byte := BitVec 8

/-- The number of a visible general register, R0 to R15 (rule R30). -/
abbrev Reg := Fin 16

end Sys2Proof
end

