-- ==== Sys2Proof/Syntax.lean ====
section
/-! DEFINITION. The syntax of the instruction set: one constructor of `Instr` per row of spec/opcode_table.json, with the
operands the spec's rules read. Bits the spec calls ignored (30_encoding.md: "read by no rule") are no operands. -/

namespace Sys2Proof

/-- The condition field, bits 31:28, in the order of rule R131: the position is the field's value. -/
inductive Cond where
  | eq | ne | cs | cc | mi | pl | vs | vc | hi | ls | ge | lt | gt | le | al | nv
  deriving DecidableEq, Repr

/-- The shift type field, bits 6:5, in the order of rule R135. -/
inductive ShiftType where
  | lsl | lsr | asr | ror
  deriving DecidableEq, Repr

/-- Operand 2 of data processing (rules R132, R133, R134). -/
inductive Operand2 where
  /-- I = 1: an 8-bit immediate rotated right by twice `rot` (rule R132). -/
  | imm (rot : BitVec 4) (imm8 : BitVec 8)
  /-- I = 0, bit 4 = 0: Rm shifted by the constant `amount` (rule R133). -/
  | shiftImm (rm : Reg) (ty : ShiftType) (amount : BitVec 5)
  /-- I = 0, bit 4 = 1: Rm shifted by the low byte of Rs (rule R134). -/
  | shiftReg (rm : Reg) (ty : ShiftType) (rs : Reg)
  deriving DecidableEq, Repr

/-- The four comparison-only operations (rule R211), by opcode 1000 to 1011 (rule R135). -/
inductive TestOp where
  | tst | teq | cmp | cmn
  deriving DecidableEq, Repr

/-- The offset of a word or byte transfer (rule R138). -/
inductive Offset where
  /-- I = 0: the 12-bit immediate. -/
  | imm (imm12 : BitVec 12)
  /-- I = 1: Rm shifted by a constant; bit 4 of the word is ignored. -/
  | reg (rm : Reg) (ty : ShiftType) (amount : BitVec 5)
  deriving DecidableEq, Repr

/-- The offset of a halfword or signed transfer (rule R139). -/
inductive HalfOffset where
  /-- I = 1: the split 8-bit immediate `immH : immL`. -/
  | imm (imm8 : BitVec 8)
  /-- I = 0: Rm, unshifted; bits 11:8 of the word are ignored. -/
  | reg (rm : Reg)
  deriving DecidableEq, Repr

/-- The indexing of a single transfer, by the P and W bits (rules R138, R261). -/
inductive Indexing where
  /-- P = 0: the base is the address, and `ea` is always written back. -/
  | post
  /-- P = 1, W = 0: `ea` is the address, no write-back. -/
  | pre
  /-- P = 1, W = 1: `ea` is the address, written back unless Rn = Rd. -/
  | preWriteback
  deriving DecidableEq, Repr

/-- The four addressing modes of LDM and STM, by the P and U bits (rule R290). -/
inductive BlockMode where
  | da | ia | db | ib
  deriving DecidableEq, Repr

/-- The R bit of a PSR transfer (rule R144). -/
inductive PsrSel where
  | cpsr | spsr
  deriving DecidableEq, Repr

/-- The instructions. `c` is the condition; `sf` the S bit; `up` the U bit; register operands carry the spec's names. -/
inductive Instr where
  -- data processing (41_data_processing.md)
  | and (c : Cond) (sf : Bool) (rn rd : Reg) (op2 : Operand2)
  | eor (c : Cond) (sf : Bool) (rn rd : Reg) (op2 : Operand2)
  | sub (c : Cond) (sf : Bool) (rn rd : Reg) (op2 : Operand2)
  | rsb (c : Cond) (sf : Bool) (rn rd : Reg) (op2 : Operand2)
  | add (c : Cond) (sf : Bool) (rn rd : Reg) (op2 : Operand2)
  | adc (c : Cond) (sf : Bool) (rn rd : Reg) (op2 : Operand2)
  | sbc (c : Cond) (sf : Bool) (rn rd : Reg) (op2 : Operand2)
  | rsc (c : Cond) (sf : Bool) (rn rd : Reg) (op2 : Operand2)
  | tst (c : Cond) (rn : Reg) (op2 : Operand2)
  | teq (c : Cond) (rn : Reg) (op2 : Operand2)
  | cmp (c : Cond) (rn : Reg) (op2 : Operand2)
  | cmn (c : Cond) (rn : Reg) (op2 : Operand2)
  | orr (c : Cond) (sf : Bool) (rn rd : Reg) (op2 : Operand2)
  | mov (c : Cond) (sf : Bool) (rd : Reg) (op2 : Operand2)
  | bic (c : Cond) (sf : Bool) (rn rd : Reg) (op2 : Operand2)
  | mvn (c : Cond) (sf : Bool) (rd : Reg) (op2 : Operand2)
  /-- A test operation with S = 0 that is not MRS, MSR or BX (rule R224). -/
  | dpTestS0 (c : Cond) (op : TestOp) (rn : Reg) (op2 : Operand2)
  -- multiply and multiply-long (42_multiply.md)
  | mul (c : Cond) (sf : Bool) (rd rm rs : Reg)
  | mla (c : Cond) (sf : Bool) (rd rn rm rs : Reg)
  | umull (c : Cond) (sf : Bool) (rdHi rdLo rm rs : Reg)
  | umlal (c : Cond) (sf : Bool) (rdHi rdLo rm rs : Reg)
  | smull (c : Cond) (sf : Bool) (rdHi rdLo rm rs : Reg)
  | smlal (c : Cond) (sf : Bool) (rdHi rdLo rm rs : Reg)
  -- single data transfer (43_single_transfer.md)
  | str (c : Cond) (ix : Indexing) (up : Bool) (rn rd : Reg) (off : Offset)
  | ldr (c : Cond) (ix : Indexing) (up : Bool) (rn rd : Reg) (off : Offset)
  | strb (c : Cond) (ix : Indexing) (up : Bool) (rn rd : Reg) (off : Offset)
  | ldrb (c : Cond) (ix : Indexing) (up : Bool) (rn rd : Reg) (off : Offset)
  | strt (c : Cond) (up : Bool) (rn rd : Reg) (off : Offset)
  | ldrt (c : Cond) (up : Bool) (rn rd : Reg) (off : Offset)
  | strbt (c : Cond) (up : Bool) (rn rd : Reg) (off : Offset)
  | ldrbt (c : Cond) (up : Bool) (rn rd : Reg) (off : Offset)
  -- halfword and signed transfer (43_single_transfer.md)
  | strh (c : Cond) (ix : Indexing) (up : Bool) (rn rd : Reg) (off : HalfOffset)
  | ldrh (c : Cond) (ix : Indexing) (up : Bool) (rn rd : Reg) (off : HalfOffset)
  | ldrsb (c : Cond) (ix : Indexing) (up : Bool) (rn rd : Reg) (off : HalfOffset)
  | ldrsh (c : Cond) (ix : Indexing) (up : Bool) (rn rd : Reg) (off : HalfOffset)
  /-- The reserved halfword store with S:H = 10 (rule R279). -/
  | strResSb (c : Cond) (ix : Indexing) (up : Bool) (rn rd : Reg) (off : HalfOffset)
  /-- The reserved halfword store with S:H = 11 (rule R279). -/
  | strResSh (c : Cond) (ix : Indexing) (up : Bool) (rn rd : Reg) (off : HalfOffset)
  -- single data swap (46_swap.md)
  | swp (c : Cond) (rn rd rm : Reg)
  | swpb (c : Cond) (rn rd rm : Reg)
  -- PSR transfer (47_psr_transfer.md)
  | mrsCpsr (c : Cond) (rd : Reg)
  | mrsSpsr (c : Cond) (rd : Reg)
  | msrReg (c : Cond) (psr : PsrSel) (mask : BitVec 4) (rm : Reg)
  | msrImm (c : Cond) (psr : PsrSel) (mask : BitVec 4) (rot : BitVec 4) (imm8 : BitVec 8)
  -- branch (45_branch.md)
  | bx (c : Cond) (rm : Reg)
  -- block data transfer (44_block_transfer.md); `sb` is the S bit, `wb` the W bit
  | stm (c : Cond) (mode : BlockMode) (sb wb : Bool) (rn : Reg) (list : BitVec 16)
  | ldm (c : Cond) (mode : BlockMode) (sb wb : Bool) (rn : Reg) (list : BitVec 16)
  -- branch (45_branch.md)
  | b (c : Cond) (offset24 : BitVec 24)
  | bl (c : Cond) (offset24 : BitVec 24)
  -- software interrupt (48_swi.md); the last three are the coprocessor space (rule R158)
  | swi (c : Cond) (call : BitVec 8)
  | swiCpC (c : Cond) (call : BitVec 8)
  | swiCpD (c : Cond) (call : BitVec 8)
  | swiCpE (c : Cond) (call : BitVec 8)
  deriving DecidableEq, Repr

/-- The condition of an instruction (rule R131: every instruction has one). -/
def Instr.cond : Instr → Cond
  | .and c .. | .eor c .. | .sub c .. | .rsb c .. | .add c .. | .adc c .. | .sbc c .. | .rsc c .. => c
  | .tst c .. | .teq c .. | .cmp c .. | .cmn c .. | .orr c .. | .mov c .. | .bic c .. | .mvn c .. => c
  | .dpTestS0 c .. | .mul c .. | .mla c .. | .umull c .. | .umlal c .. | .smull c .. | .smlal c .. => c
  | .str c .. | .ldr c .. | .strb c .. | .ldrb c .. | .strt c .. | .ldrt c .. | .strbt c .. | .ldrbt c .. => c
  | .strh c .. | .ldrh c .. | .ldrsb c .. | .ldrsh c .. | .strResSb c .. | .strResSh c .. => c
  | .swp c .. | .swpb c .. | .mrsCpsr c .. | .mrsSpsr c .. | .msrReg c .. | .msrImm c .. => c
  | .bx c .. | .stm c .. | .ldm c .. | .b c .. | .bl c .. => c
  | .swi c .. | .swiCpC c .. | .swiCpD c .. | .swiCpE c .. => c

end Sys2Proof
end

