-- ==== Sys2Proof/WellFormed.lean ====
section
/-! DEFINITION. Which terms of `Instr` are instructions. The operand types already bound every field, so one check is left:
the words of the S = 0 test space that the decoder takes as MRS (30_encoding.md rules R144, R154, R156). -/

namespace Sys2Proof

/-- The S = 0 test words whose remaining fields are MRS's: TST or CMP with Rn = 15 and operand 2 = R0, LSL #0 are MRS
whatever their Rd field is (pattern 0x010F0000, mask 0x0FBF0FFF of rule R154), so no word means them as data processing.
TEQ and CMN with S = 0 are always encodable: with Rd ≠ 15 they are neither MSR nor BX. -/
def isMrsShape (op : TestOp) (rn : Reg) (op2 : Operand2) : Bool :=
  (op == .tst || op == .cmp) && rn == 15 && op2 == .shiftImm 0 .lsl 0

/-- An instruction some word encodes. -/
def Instr.wf : Instr → Bool
  | .dpTestS0 _ op rn op2 => !isMrsShape op rn op2
  | _ => true

end Sys2Proof
end

