-- ==== Sys2Proof/Decode.lean ====
section
/-! DEFINITION. Decoding and encoding of ARM-state words (30_encoding.md). The family of a word is chosen by the ordered
(mask, pattern, unit) table of rule R154; the fields are then pulled out of the word, once, here. -/

namespace Sys2Proof

/-! ### Fields -/

/-- Bits `lo + n - 1 : lo` of a word (rule R8). -/
def field (w : Word) (lo n : Nat) : BitVec n := w.extractLsb' lo n

/-- The register number in bits `lo + 3 : lo`. -/
def regAt (w : Word) (lo : Nat) : Reg := (field w lo 4).toFin

/-- A register number as a 4-bit field. -/
def regBits (r : Reg) : BitVec 4 := BitVec.ofFin r

/-- The value of a condition (rule R131). -/
def Cond.bits : Cond → BitVec 4
  | .eq => 0x0 | .ne => 0x1 | .cs => 0x2 | .cc => 0x3
  | .mi => 0x4 | .pl => 0x5 | .vs => 0x6 | .vc => 0x7
  | .hi => 0x8 | .ls => 0x9 | .ge => 0xA | .lt => 0xB
  | .gt => 0xC | .le => 0xD | .al => 0xE | .nv => 0xF

/-- The condition of a field value (rule R131). -/
def Cond.ofBits (b : BitVec 4) : Cond :=
  match b.toNat with
  | 0x0 => .eq | 0x1 => .ne | 0x2 => .cs | 0x3 => .cc
  | 0x4 => .mi | 0x5 => .pl | 0x6 => .vs | 0x7 => .vc
  | 0x8 => .hi | 0x9 => .ls | 0xA => .ge | 0xB => .lt
  | 0xC => .gt | 0xD => .le | 0xE => .al | _ => .nv

/-- The value of a shift type (rule R135). -/
def ShiftType.bits : ShiftType → BitVec 2
  | .lsl => 0 | .lsr => 1 | .asr => 2 | .ror => 3

/-- The shift type of a field value (rule R135). -/
def ShiftType.ofBits (b : BitVec 2) : ShiftType :=
  match b.toNat with
  | 0 => .lsl | 1 => .lsr | 2 => .asr | _ => .ror

/-- The opcode of a test operation is 10 and these two bits (rule R135). -/
def TestOp.bits : TestOp → BitVec 2
  | .tst => 0 | .teq => 1 | .cmp => 2 | .cmn => 3

/-- The test operation of the low two opcode bits (rule R135). -/
def TestOp.ofBits (b : BitVec 2) : TestOp :=
  match b.toNat with
  | 0 => .tst | 1 => .teq | 2 => .cmp | _ => .cmn

/-- The P bit of an indexing (rule R138). -/
def Indexing.p : Indexing → Bool
  | .post => false | .pre => true | .preWriteback => true

/-- The W bit of an indexing (rule R138): 0 for the plain post-indexed form. -/
def Indexing.w : Indexing → Bool
  | .post => false | .pre => false | .preWriteback => true

/-- The indexing of the P and W bits. P = 0 is post-indexed whatever W is: the word and byte forms with P = 0, W = 1 are
the T rows (rule R267), and the halfword forms ignore W there (rule R270). -/
def Indexing.ofBits (p w : Bool) : Indexing :=
  if p then (if w then .preWriteback else .pre) else .post

/-- The P and U bits of a block addressing mode (rule R290). -/
def BlockMode.bits : BlockMode → BitVec 2
  | .da => 0b00 | .ia => 0b01 | .db => 0b10 | .ib => 0b11

/-- The block addressing mode of the P and U bits (rule R290). -/
def BlockMode.ofBits (b : BitVec 2) : BlockMode :=
  match b.toNat with
  | 0 => .da | 1 => .ia | 2 => .db | _ => .ib

/-- The R bit (rule R144). -/
def PsrSel.bit : PsrSel → Bool
  | .cpsr => false | .spsr => true

/-- The status register an R bit selects (rule R144). -/
def PsrSel.ofBit (r : Bool) : PsrSel := if r then .spsr else .cpsr

/-! ### The decode table -/

/-- The units the decoder selects (rule R154). -/
inductive DecodeUnit where
  | multiply | multiplyLong | halfword | swap | mrs | msrReg | msrImm | bx
  | dataProcessing | singleTransfer | blockTransfer | branch | softwareInterrupt
  deriving DecidableEq, Repr

/-- One row of the decode table: `(word AND mask) = pattern`, and for the halfword row also bits 6:5 ≠ 00 (rule R154). -/
structure DecodeEntry where
  unit : DecodeUnit
  mask : Word
  pattern : Word
  shNonzero : Bool := false
  deriving DecidableEq, Repr

/-- Whether a row takes a word (rule R153). -/
def DecodeEntry.takes (e : DecodeEntry) (w : Word) : Bool :=
  (w &&& e.mask == e.pattern) && (!e.shNonzero || field w 5 2 != 0)

/-- The ordered table of rule R154. -/
def decodeTable : List DecodeEntry :=
  [ ⟨.multiply,          0x0FC000F0, 0x00000090, false⟩,
    ⟨.multiplyLong,      0x0F8000F0, 0x00800090, false⟩,
    ⟨.halfword,          0x0E000090, 0x00000090, true⟩,
    ⟨.swap,              0x0FB00FF0, 0x01000090, false⟩,
    ⟨.mrs,               0x0FBF0FFF, 0x010F0000, false⟩,
    ⟨.msrReg,            0x0FB0FFF0, 0x0120F000, false⟩,
    ⟨.msrImm,            0x0FB0F000, 0x0320F000, false⟩,
    ⟨.bx,                0x0FFFFFF0, 0x012FFF10, false⟩,
    ⟨.dataProcessing,    0x0C000000, 0x00000000, false⟩,
    ⟨.singleTransfer,    0x0C000000, 0x04000000, false⟩,
    ⟨.blockTransfer,     0x0E000000, 0x08000000, false⟩,
    ⟨.branch,            0x0E000000, 0x0A000000, false⟩,
    ⟨.softwareInterrupt, 0x0C000000, 0x0C000000, false⟩ ]

/-- The first row that takes the word selects the unit (rule R153). -/
def selectUnit (w : Word) : Option DecodeUnit :=
  (decodeTable.find? (·.takes w)).map (·.unit)

/-! ### The units' fields -/

/-- Operand 2 of a data-processing word (rules R132 to R134; bit 7 of the register-shift form is ignored). -/
def decodeOperand2 (w : Word) : Operand2 :=
  if w.getLsbD 25 then .imm (field w 8 4) (field w 0 8)
  else if w.getLsbD 4 then .shiftReg (regAt w 0) (.ofBits (field w 5 2)) (regAt w 8)
  else .shiftImm (regAt w 0) (.ofBits (field w 5 2)) (field w 7 5)

/-- A data-processing word, the catch-all of category 00 included (rules R135, R156, R224). -/
def decodeDataProcessing (w : Word) : Instr :=
  let c := Cond.ofBits (field w 28 4)
  let sf := w.getLsbD 20
  let rn := regAt w 16
  let rd := regAt w 12
  let o := decodeOperand2 w
  match (field w 21 4).toNat with
  | 0x0 => .and c sf rn rd o
  | 0x1 => .eor c sf rn rd o
  | 0x2 => .sub c sf rn rd o
  | 0x3 => .rsb c sf rn rd o
  | 0x4 => .add c sf rn rd o
  | 0x5 => .adc c sf rn rd o
  | 0x6 => .sbc c sf rn rd o
  | 0x7 => .rsc c sf rn rd o
  | 0x8 => if sf then .tst c rn o else .dpTestS0 c .tst rn o
  | 0x9 => if sf then .teq c rn o else .dpTestS0 c .teq rn o
  | 0xA => if sf then .cmp c rn o else .dpTestS0 c .cmp rn o
  | 0xB => if sf then .cmn c rn o else .dpTestS0 c .cmn rn o
  | 0xC => .orr c sf rn rd o
  | 0xD => .mov c sf rd o
  | 0xE => .bic c sf rn rd o
  | _   => .mvn c sf rd o

/-- MUL or MLA (rule R136). -/
def decodeMultiply (w : Word) : Instr :=
  let c := Cond.ofBits (field w 28 4)
  if w.getLsbD 21 then .mla c (w.getLsbD 20) (regAt w 16) (regAt w 12) (regAt w 0) (regAt w 8)
  else .mul c (w.getLsbD 20) (regAt w 16) (regAt w 0) (regAt w 8)

/-- The four long multiplies (rule R137): U in bit 22, A in bit 21. -/
def decodeMultiplyLong (w : Word) : Instr :=
  let c := Cond.ofBits (field w 28 4)
  let sf := w.getLsbD 20
  match (field w 21 2).toNat with
  | 0 => .umull c sf (regAt w 16) (regAt w 12) (regAt w 0) (regAt w 8)
  | 1 => .umlal c sf (regAt w 16) (regAt w 12) (regAt w 0) (regAt w 8)
  | 2 => .smull c sf (regAt w 16) (regAt w 12) (regAt w 0) (regAt w 8)
  | _ => .smlal c sf (regAt w 16) (regAt w 12) (regAt w 0) (regAt w 8)

/-- The offset of a halfword transfer (rule R139). -/
def decodeHalfOffset (w : Word) : HalfOffset :=
  if w.getLsbD 22 then .imm (field w 8 4 ++ field w 0 4) else .reg (regAt w 0)

/-- A halfword or signed transfer, by L (bit 20) and S:H (bits 6:5) (rules R139, R279). -/
def decodeHalfword (w : Word) : Instr :=
  let c := Cond.ofBits (field w 28 4)
  let ix := Indexing.ofBits (w.getLsbD 24) (w.getLsbD 21)
  let up := w.getLsbD 23
  let rn := regAt w 16
  let rd := regAt w 12
  let off := decodeHalfOffset w
  match w.getLsbD 20, (field w 5 2).toNat with
  | true,  1 => .ldrh c ix up rn rd off
  | true,  2 => .ldrsb c ix up rn rd off
  | true,  _ => .ldrsh c ix up rn rd off
  | false, 1 => .strh c ix up rn rd off
  | false, 2 => .strResSb c ix up rn rd off
  | false, _ => .strResSh c ix up rn rd off

/-- SWP or SWPB (rule R143). -/
def decodeSwap (w : Word) : Instr :=
  let c := Cond.ofBits (field w 28 4)
  if w.getLsbD 22 then .swpb c (regAt w 16) (regAt w 12) (regAt w 0)
  else .swp c (regAt w 16) (regAt w 12) (regAt w 0)

/-- MRS (rule R144). -/
def decodeMrs (w : Word) : Instr :=
  let c := Cond.ofBits (field w 28 4)
  if w.getLsbD 22 then .mrsSpsr c (regAt w 12) else .mrsCpsr c (regAt w 12)

/-- The offset of a word or byte transfer (rules R138, R157). -/
def decodeOffset (w : Word) : Offset :=
  if w.getLsbD 25 then .reg (regAt w 0) (.ofBits (field w 5 2)) (field w 7 5)
  else .imm (field w 0 12)

/-- A word or byte transfer (rule R138); P = 0 with W = 1 are the T rows (rule R267). -/
def decodeSingleTransfer (w : Word) : Instr :=
  let c := Cond.ofBits (field w 28 4)
  let p := w.getLsbD 24
  let wb := w.getLsbD 21
  let up := w.getLsbD 23
  let rn := regAt w 16
  let rd := regAt w 12
  let off := decodeOffset w
  let ix := Indexing.ofBits p wb
  match !p && wb, w.getLsbD 22, w.getLsbD 20 with
  | true,  false, false => .strt c up rn rd off
  | true,  false, true  => .ldrt c up rn rd off
  | true,  true,  false => .strbt c up rn rd off
  | true,  true,  true  => .ldrbt c up rn rd off
  | false, false, false => .str c ix up rn rd off
  | false, false, true  => .ldr c ix up rn rd off
  | false, true,  false => .strb c ix up rn rd off
  | false, true,  true  => .ldrb c ix up rn rd off

/-- LDM or STM (rule R140). -/
def decodeBlockTransfer (w : Word) : Instr :=
  let c := Cond.ofBits (field w 28 4)
  let m := BlockMode.ofBits (field w 23 2)
  if w.getLsbD 20 then .ldm c m (w.getLsbD 22) (w.getLsbD 21) (regAt w 16) (field w 0 16)
  else .stm c m (w.getLsbD 22) (w.getLsbD 21) (regAt w 16) (field w 0 16)

/-- B or BL (rule R141). -/
def decodeBranch (w : Word) : Instr :=
  let c := Cond.ofBits (field w 28 4)
  if w.getLsbD 24 then .bl c (field w 0 24) else .b c (field w 0 24)

/-- SWI and the coprocessor space (rules R145, R158): the row by bits 25:24, the call number in bits 23:16. -/
def decodeSoftwareInterrupt (w : Word) : Instr :=
  let c := Cond.ofBits (field w 28 4)
  match (field w 24 2).toNat with
  | 0 => .swiCpC c (field w 16 8)
  | 1 => .swiCpD c (field w 16 8)
  | 2 => .swiCpE c (field w 16 8)
  | _ => .swi c (field w 16 8)

/-- The instruction of a word, once its unit is known. -/
def decodeUnit (u : DecodeUnit) (w : Word) : Instr :=
  match u with
  | .multiply => decodeMultiply w
  | .multiplyLong => decodeMultiplyLong w
  | .halfword => decodeHalfword w
  | .swap => decodeSwap w
  | .mrs => decodeMrs w
  | .msrReg => .msrReg (.ofBits (field w 28 4)) (.ofBit (w.getLsbD 22)) (field w 16 4) (regAt w 0)
  | .msrImm => .msrImm (.ofBits (field w 28 4)) (.ofBit (w.getLsbD 22)) (field w 16 4) (field w 8 4) (field w 0 8)
  | .bx => .bx (.ofBits (field w 28 4)) (regAt w 0)
  | .dataProcessing => decodeDataProcessing w
  | .singleTransfer => decodeSingleTransfer w
  | .blockTransfer => decodeBlockTransfer w
  | .branch => decodeBranch w
  | .softwareInterrupt => decodeSoftwareInterrupt w

/-- The instruction a word encodes; `none` is the undecodable word of rule R159, which no word is (rule R155). -/
def decode (w : Word) : Option Instr := (selectUnit w).map (decodeUnit · w)

/-! ### Bytes -/

/-- Why bytes are no instruction. -/
inductive DecodeReject where
  /-- Fewer than the four bytes every instruction has (rule R130). -/
  | truncated
  /-- No row of the table takes the word (rule R159). -/
  | undecodable
  deriving DecidableEq, Repr

/-- The word of four bytes, the lowest address first: little-endian (rules R100, R101). -/
def wordOfBytes (b0 b1 b2 b3 : Byte) : Word := b3 ++ b2 ++ b1 ++ b0

/-- The four bytes of a word, the lowest address first (rule R100). -/
def bytesOfWord (w : Word) : List Byte := [field w 0 8, field w 8 8, field w 16 8, field w 24 8]

/-- The instruction at the front of a run of bytes, and the bytes after it. -/
def decodeBytes : List Byte → Except DecodeReject (Instr × List Byte)
  | b0 :: b1 :: b2 :: b3 :: rest =>
    match decode (wordOfBytes b0 b1 b2 b3) with
    | some i => .ok (i, rest)
    | none => .error .undecodable
  | _ => .error .truncated

/-- The instruction whose bits are `w` as spec/opcode_table.json numbers them, the bits above `nbits` being 0: laid out
as four little-endian bytes and given to `decodeBytes`. -/
def decodeTableWord (nbits w : Nat) : Option Instr :=
  match decodeBytes (bytesOfWord (BitVec.ofNat 32 (w % 2 ^ nbits))) with
  | .ok (i, _) => some i
  | .error _ => none

/-! ### Encoding -/

/-- The I bit of operand 2 (rules R132 to R134). -/
def Operand2.iBit : Operand2 → Bool
  | .imm .. => true
  | .shiftImm .. => false
  | .shiftReg .. => false

/-- Bits 11:0 of operand 2 (rules R132 to R134). -/
def Operand2.bits : Operand2 → BitVec 12
  | .imm rot imm8 => rot ++ imm8
  | .shiftImm rm ty n => n ++ ty.bits ++ 0b0#1 ++ regBits rm
  | .shiftReg rm ty rs => regBits rs ++ 0b0#1 ++ ty.bits ++ 0b1#1 ++ regBits rm

/-- A data-processing word (rules R132 to R135). -/
def encodeDp (c : Cond) (opcode : BitVec 4) (sf : Bool) (rn rd : Reg) (o : Operand2) : Word :=
  c.bits ++ 0b00#2 ++ BitVec.ofBool o.iBit ++ opcode ++ BitVec.ofBool sf ++ regBits rn ++ regBits rd ++ o.bits

/-- A multiply word (rule R136). -/
def encodeMul (c : Cond) (a sf : Bool) (rd rn rs rm : Reg) : Word :=
  c.bits ++ 0b000000#6 ++ BitVec.ofBool a ++ BitVec.ofBool sf ++ regBits rd ++ regBits rn ++ regBits rs ++ 0b1001#4
    ++ regBits rm

/-- A multiply-long word (rule R137). -/
def encodeMull (c : Cond) (u a sf : Bool) (rdHi rdLo rs rm : Reg) : Word :=
  c.bits ++ 0b00001#5 ++ BitVec.ofBool u ++ BitVec.ofBool a ++ BitVec.ofBool sf ++ regBits rdHi ++ regBits rdLo
    ++ regBits rs ++ 0b1001#4 ++ regBits rm

/-- The I bit of a word or byte offset (rule R138). -/
def Offset.iBit : Offset → Bool
  | .imm .. => false
  | .reg .. => true

/-- Bits 11:0 of a word or byte offset (rule R138). -/
def Offset.bits : Offset → BitVec 12
  | .imm n => n
  | .reg rm ty n => n ++ ty.bits ++ 0b0#1 ++ regBits rm

/-- A word or byte transfer (rule R138). -/
def encodeSdt (c : Cond) (p up byte wb load : Bool) (rn rd : Reg) (off : Offset) : Word :=
  c.bits ++ 0b01#2 ++ BitVec.ofBool off.iBit ++ BitVec.ofBool p ++ BitVec.ofBool up ++ BitVec.ofBool byte
    ++ BitVec.ofBool wb ++ BitVec.ofBool load ++ regBits rn ++ regBits rd ++ off.bits

/-- The I bit of a halfword offset (rule R139). -/
def HalfOffset.iBit : HalfOffset → Bool
  | .imm .. => true
  | .reg .. => false

/-- Bits 11:8 of a halfword word (rule R139). -/
def HalfOffset.high : HalfOffset → BitVec 4
  | .imm n => n.extractLsb' 4 4
  | .reg _ => 0

/-- Bits 3:0 of a halfword word (rule R139). -/
def HalfOffset.low : HalfOffset → BitVec 4
  | .imm n => n.extractLsb' 0 4
  | .reg rm => regBits rm

/-- A halfword or signed transfer (rule R139). -/
def encodeHw (c : Cond) (ix : Indexing) (up load : Bool) (sh : BitVec 2) (rn rd : Reg) (off : HalfOffset) : Word :=
  c.bits ++ 0b000#3 ++ BitVec.ofBool ix.p ++ BitVec.ofBool up ++ BitVec.ofBool off.iBit ++ BitVec.ofBool ix.w
    ++ BitVec.ofBool load ++ regBits rn ++ regBits rd ++ off.high ++ 0b1#1 ++ sh ++ 0b1#1 ++ off.low

/-- A swap (rule R143). -/
def encodeSwap (c : Cond) (byte : Bool) (rn rd rm : Reg) : Word :=
  c.bits ++ 0b00010#5 ++ BitVec.ofBool byte ++ 0b00#2 ++ regBits rn ++ regBits rd ++ 0b00001001#8 ++ regBits rm

/-- MRS (rule R144). -/
def encodeMrs (c : Cond) (psr : PsrSel) (rd : Reg) : Word :=
  c.bits ++ 0b00010#5 ++ BitVec.ofBool psr.bit ++ 0b001111#6 ++ regBits rd ++ 0#12

/-- A block transfer (rule R140). -/
def encodeBlock (c : Cond) (m : BlockMode) (sb wb load : Bool) (rn : Reg) (list : BitVec 16) : Word :=
  c.bits ++ 0b100#3 ++ m.bits ++ BitVec.ofBool sb ++ BitVec.ofBool wb ++ BitVec.ofBool load ++ regBits rn ++ list

/-- A software interrupt with bits 27:24 = `op` (rules R145, R158); the ignored bits 15:0 are 0. -/
def encodeSwi (c : Cond) (op : BitVec 4) (call : BitVec 8) : Word := c.bits ++ op ++ call ++ 0#16

/-- The word of a well-formed instruction: ignored bits and fields are 0 (rules R132 to R145). -/
def encode : Instr → Word
  | .and c sf rn rd o => encodeDp c 0x0 sf rn rd o
  | .eor c sf rn rd o => encodeDp c 0x1 sf rn rd o
  | .sub c sf rn rd o => encodeDp c 0x2 sf rn rd o
  | .rsb c sf rn rd o => encodeDp c 0x3 sf rn rd o
  | .add c sf rn rd o => encodeDp c 0x4 sf rn rd o
  | .adc c sf rn rd o => encodeDp c 0x5 sf rn rd o
  | .sbc c sf rn rd o => encodeDp c 0x6 sf rn rd o
  | .rsc c sf rn rd o => encodeDp c 0x7 sf rn rd o
  | .tst c rn o => encodeDp c 0x8 true rn 0 o
  | .teq c rn o => encodeDp c 0x9 true rn 0 o
  | .cmp c rn o => encodeDp c 0xA true rn 0 o
  | .cmn c rn o => encodeDp c 0xB true rn 0 o
  | .orr c sf rn rd o => encodeDp c 0xC sf rn rd o
  | .mov c sf rd o => encodeDp c 0xD sf 0 rd o
  | .bic c sf rn rd o => encodeDp c 0xE sf rn rd o
  | .mvn c sf rd o => encodeDp c 0xF sf 0 rd o
  | .dpTestS0 c op rn o => encodeDp c (0b10#2 ++ op.bits) false rn 0 o
  | .mul c sf rd rm rs => encodeMul c false sf rd 0 rs rm
  | .mla c sf rd rn rm rs => encodeMul c true sf rd rn rs rm
  | .umull c sf rdHi rdLo rm rs => encodeMull c false false sf rdHi rdLo rs rm
  | .umlal c sf rdHi rdLo rm rs => encodeMull c false true sf rdHi rdLo rs rm
  | .smull c sf rdHi rdLo rm rs => encodeMull c true false sf rdHi rdLo rs rm
  | .smlal c sf rdHi rdLo rm rs => encodeMull c true true sf rdHi rdLo rs rm
  | .str c ix up rn rd off => encodeSdt c ix.p up false ix.w false rn rd off
  | .ldr c ix up rn rd off => encodeSdt c ix.p up false ix.w true rn rd off
  | .strb c ix up rn rd off => encodeSdt c ix.p up true ix.w false rn rd off
  | .ldrb c ix up rn rd off => encodeSdt c ix.p up true ix.w true rn rd off
  | .strt c up rn rd off => encodeSdt c false up false true false rn rd off
  | .ldrt c up rn rd off => encodeSdt c false up false true true rn rd off
  | .strbt c up rn rd off => encodeSdt c false up true true false rn rd off
  | .ldrbt c up rn rd off => encodeSdt c false up true true true rn rd off
  | .strh c ix up rn rd off => encodeHw c ix up false 0b01 rn rd off
  | .ldrh c ix up rn rd off => encodeHw c ix up true 0b01 rn rd off
  | .ldrsb c ix up rn rd off => encodeHw c ix up true 0b10 rn rd off
  | .ldrsh c ix up rn rd off => encodeHw c ix up true 0b11 rn rd off
  | .strResSb c ix up rn rd off => encodeHw c ix up false 0b10 rn rd off
  | .strResSh c ix up rn rd off => encodeHw c ix up false 0b11 rn rd off
  | .swp c rn rd rm => encodeSwap c false rn rd rm
  | .swpb c rn rd rm => encodeSwap c true rn rd rm
  | .mrsCpsr c rd => encodeMrs c .cpsr rd
  | .mrsSpsr c rd => encodeMrs c .spsr rd
  | .msrReg c psr mask rm =>
    c.bits ++ 0b00010#5 ++ BitVec.ofBool psr.bit ++ 0b10#2 ++ mask ++ 0b1111#4 ++ 0#8 ++ regBits rm
  | .msrImm c psr mask rot imm8 =>
    c.bits ++ 0b00110#5 ++ BitVec.ofBool psr.bit ++ 0b10#2 ++ mask ++ 0b1111#4 ++ rot ++ imm8
  | .bx c rm => c.bits ++ 0x12FFF1#24 ++ regBits rm
  | .stm c m sb wb rn list => encodeBlock c m sb wb false rn list
  | .ldm c m sb wb rn list => encodeBlock c m sb wb true rn list
  | .b c offset24 => c.bits ++ 0b1010#4 ++ offset24
  | .bl c offset24 => c.bits ++ 0b1011#4 ++ offset24
  | .swi c call => encodeSwi c 0xF call
  | .swiCpC c call => encodeSwi c 0xC call
  | .swiCpD c call => encodeSwi c 0xD call
  | .swiCpE c call => encodeSwi c 0xE call

end Sys2Proof
end

