-- ==== Sys2Proof/Config.lean ====
section
/-! DEFINITION. The named parameters of 00_scope.md rule R7 that are data, with their defaults, and the free values: what
external collaborators answer. A free value is an opaque constant, so nothing can be proved of it. -/

namespace Sys2Proof

/-- The region kinds (20_memory.md rules R84, R86). -/
inductive Region where
  | bios | ewram | iwram | io | pal | vram | oam | cartRom | cartSram | unmapped
  deriving DecidableEq, Repr

/-- One row of the region table (20_memory.md rules R83, R84): the selectors a[31:24] it covers, the region they select, the
size of the region in words (a size is a multiple of 4 bytes, rule R99; 0 is a window without mirrors), and its cost class. -/
structure RegionRow where
  first : Nat
  last : Nat
  region : Region
  words : Nat
  slow : Bool
  deriving DecidableEq, Repr

/-- `REGION_MAP` (00_scope.md rule R7, 92 D28): the first row that covers a selector is the selector's; a selector that none
covers is unmapped (log 3). -/
abbrev RegionMap := List RegionRow

/-- The default table (20_memory.md rule R84). -/
def RegionMap.default : RegionMap :=
  [⟨0x00, 0x00, .bios, 0x4000 / 4, false⟩,
   ⟨0x02, 0x02, .ewram, 0x40000 / 4, true⟩,
   ⟨0x03, 0x03, .iwram, 0x8000 / 4, false⟩,
   ⟨0x04, 0x04, .io, 0x400 / 4, false⟩,
   ⟨0x05, 0x05, .pal, 0x400 / 4, false⟩,
   ⟨0x06, 0x06, .vram, 0x18000 / 4, false⟩,
   ⟨0x07, 0x07, .oam, 0x400 / 4, false⟩,
   ⟨0x08, 0x0D, .cartRom, 0x2000000 / 4, true⟩,
   ⟨0x0E, 0x0F, .cartSram, 0x10000 / 4, true⟩]

/-- The parameters (00_scope.md rule R7). They are carried in the state, unchanged by every step, so that every statement
holds for every choice of them (log 2). The cycle parameters are those of 70_reset_and_hazards.md rule R421. -/
structure Params where
  /-- `ARCH_SHIFT_ZERO` (rule R183). -/
  archShiftZero : Bool
  /-- Whether `SWI_HANDLER` is present (rule R351). -/
  swiHandler : Bool
  /-- `REGION_MAP` (20_memory.md rules R82 to R84). -/
  regions : RegionMap
  /-- `RESET_PC` (rule R401). -/
  resetPc : Word
  /-- `ADD_BUS_COST` (rule R420). -/
  addBusCost : Bool
  cycDp : Nat
  cycMul : Nat
  cycMla : Nat
  cycMull : Nat
  cycMlal : Nat
  cycLdr : Nat
  cycStr : Nat
  cycLdmBase : Nat
  cycStmBase : Nat
  cycSwp : Nat
  cycBranch : Nat
  cycPsr : Nat
  cycSwi : Nat
  cycIrq : Nat
  /-- `WAIT(fast, w)` for w = 1, 2, 4 bytes. -/
  waitFast1 : Nat
  waitFast2 : Nat
  waitFast4 : Nat
  /-- `WAIT(slow, w)` for w = 1, 2, 4 bytes. -/
  waitSlow1 : Nat
  waitSlow2 : Nat
  waitSlow4 : Nat
  deriving DecidableEq, Repr

/-- The defaults (00_scope.md rule R7, 70_reset_and_hazards.md rule R421). -/
def Params.default : Params where
  archShiftZero := false
  swiHandler := false
  regions := .default
  resetPc := 0x00000000#32
  addBusCost := false
  cycDp := 1
  cycMul := 2
  cycMla := 3
  cycMull := 3
  cycMlal := 4
  cycLdr := 3
  cycStr := 2
  cycLdmBase := 2
  cycStmBase := 1
  cycSwp := 4
  cycBranch := 1
  cycPsr := 1
  cycSwi := 1
  cycIrq := 1
  waitFast1 := 0
  waitFast2 := 0
  waitFast4 := 0
  waitSlow1 := 2
  waitSlow2 := 2
  waitSlow4 := 4

/-- What a call of `SWI_HANDLER.handle` leaves behind (48_swi.md rule R352): the general registers R0 to R14 of the view it
was called in, the CPSR, the five SPSRs, the bytes it stored through the bus, in order, and the cycle count it returns,
an integer of which a negative one is outside the contract (rule R351). -/
structure HandlerResult where
  regs : Vector Word 15
  cpsr : Word
  spsrFiq : Word
  spsrIrq : Word
  spsrSvc : Word
  spsrAbt : Word
  spsrUnd : Word
  stores : List (Word × Byte)
  cycles : Int
  deriving DecidableEq, Repr, Inhabited

/-- Free value: the byte `CART.read` answers for the store address `key` at draw number `n` (20_memory.md rule R93,
93 U14; log 6). -/
opaque Config.cartByte (n : Nat) (key : Nat) : Byte

/-- Free value: `IRQ_LINE` as sampled by the step that follows draw number `n` (60_exceptions.md rule R368, 93 U13). That two
states with one draw number get one sample is the model's choice (DESIGN CHOICE, log 5). -/
opaque Config.irqLine (n : Nat) : Bool

/-- Free value: what the system-call handler does for call number `call` at draw number `n` (48_swi.md rule R352, 93 U12).
That it depends on these two alone is the model's choice (DESIGN CHOICE, log 8): rule R352's handler is a relation from the
call number and the state at the start of the step, so two states with one draw number may have different answers. -/
opaque Config.swiResult (n : Nat) (call : BitVec 8) : HandlerResult

end Sys2Proof
end

