-- ==== Sys2Proof/Machine/State.lean ====
section
/-! DEFINITION. The state of the core as plain data (10_state.md), the reasons a step can stop, and the state after reset. -/

namespace Sys2Proof.Machine

/-- The seven processor modes (10_state.md rule R32). -/
inductive Mode where
  | usr | fiq | irq | svc | abt | und | sys
  deriving DecidableEq, Repr

/-- The name of one physical general register (10_state.md rule R31): `low i` is Ri; `usr i` and `fiq i` are R(8+i) of their
bank; `irq i`, `svc i`, `abt i`, `und i` are R(13+i) of theirs. -/
inductive PhysReg where
  | low (i : Fin 8)
  | usr (i : Fin 7)
  | fiq (i : Fin 7)
  | irq (i : Fin 2)
  | svc (i : Fin 2)
  | abt (i : Fin 2)
  | und (i : Fin 2)
  deriving DecidableEq, Repr

/-- The physical general registers, bank by bank (10_state.md rule R31). -/
structure RegFile where
  /-- R0 to R7, shared by every mode. -/
  low : Vector Word 8
  /-- R8_usr to R14_usr. -/
  usr : Vector Word 7
  /-- R8_fiq to R14_fiq. -/
  fiq : Vector Word 7
  /-- R13_irq, R14_irq. -/
  irq : Vector Word 2
  /-- R13_svc, R14_svc. -/
  svc : Vector Word 2
  /-- R13_abt, R14_abt. -/
  abt : Vector Word 2
  /-- R13_und, R14_und. -/
  und : Vector Word 2
  deriving DecidableEq, Repr

/-- The two cartridge windows (20_memory.md rule R93). -/
inductive CartWindow where
  | rom | sram
  deriving DecidableEq, Repr

/-- A byte write the router forwards to a collaborator (20_memory.md rules R90, R91, R95). -/
inductive Call where
  /-- `DMA.write(o, b)`: `o` is the IO offset. -/
  | dmaWrite (o : Nat) (b : Byte)
  /-- `CART.write(window, o, b)`. -/
  | cartWrite (window : CartWindow) (o : Nat) (b : Byte)
  deriving DecidableEq, Repr

/-- The byte stores of the router (10_state.md rule R49) as one sorted list of (store address, byte); see
Machine/Memory.lean for the addresses and the canonical form (log 18). -/
abbrev Memory := List Host.Cell

/-- The state of the core between steps. The fields from `regs` to `mem` are the snapshot of 70_reset_and_hazards.md rule
R408. -/
structure State where
  /-- The physical general registers (10_state.md rule R31). -/
  regs : RegFile
  /-- The program counter: the address of the next instruction to fetch (10_state.md rule R38). -/
  pc : Word
  /-- The current program status register (10_state.md rule R42). -/
  cpsr : Word
  /-- The five saved status registers (10_state.md rule R46). -/
  spsrFiq : Word
  spsrIrq : Word
  spsrSvc : Word
  spsrAbt : Word
  spsrUnd : Word
  /-- The pending-interrupt set as the IF field: bit k is source k (20_memory.md rule R97). -/
  pending : BitVec 16
  /-- The contents of BIOS, EWRAM, IWRAM, IO, PAL, VRAM and OAM, and of a cartridge ROM image if the launch supplies one. -/
  mem : Memory
  /-- Whether the step wrote R15: the `wrote15` and `refill` of 40_execution_common.md rules R178, R179 (log 9). -/
  refill : Bool
  /-- The cycle count the last step returned (70_reset_and_hazards.md rule R420; log 9). -/
  cycles : Nat
  /-- The calls made to `DMA` and `CART`, oldest first (70_reset_and_hazards.md rule R410; log 7). -/
  calls : List Call
  /-- The parameters (00_scope.md rule R7); no step writes them (log 2). -/
  params : Params
  /-- The model's own: `IRQ_LINE` as the next step samples it (60_exceptions.md rule R368; log 5). -/
  irqLine : Bool
  /-- The model's own: the number of the next free value (log 6). -/
  draws : Nat
  deriving DecidableEq, Repr

/-- The core raises no fault: every error is resolved to a fallback (00_scope.md rules R12, R13), so no step ends in one. -/
inductive Fault
  deriving DecidableEq, Repr

/-- The refusals: a state the spec gives no successor (60_exceptions.md rule R364). All are safe: nothing about what follows
can be proved. -/
inductive Refusal where
  /-- Raised by `exec` for an instruction without a meaning; no arm raises it. Safe. -/
  | notModelled (mnemonic : String)
  /-- Raised by `step` when CPSR.T = 1 (40_execution_common.md rule R172). Safe. -/
  | thumbState
  /-- Raised where CPSR[4:0] would become, or is, no mode of rule R32: an MSR, an SPSR restore, a handler's (log 8) or the host's
  write (10_state.md rule R33), and by `step` in such a state (log 10). Safe. -/
  | invalidMode
  /-- Raised by the SWI instructions when the handler returns a negative cycle count (48_swi.md rule R351). Safe. -/
  | badHandlerCycles
  deriving DecidableEq, Repr

/-- The outcome of a step or of an instruction. -/
abbrev Result := Host.Outcome State Fault Refusal

/-- Every physical general register 0 (10_state.md rule R52). -/
def RegFile.zero : RegFile where
  low := .replicate 8 0
  usr := .replicate 7 0
  fiq := .replicate 7 0
  irq := .replicate 2 0
  svc := .replicate 2 0
  abt := .replicate 2 0
  und := .replicate 2 0

/-- The machine at construction, which is its reset state with every store zero (10_state.md rules R52 to R57,
70_reset_and_hazards.md rules R400 to R403). `IRQ_LINE` at the first step is a free value (log 5). -/
def State.reset : State where
  regs := .zero
  pc := Params.default.resetPc
  cpsr := 0x000000D3#32
  spsrFiq := 0
  spsrIrq := 0
  spsrSvc := 0
  spsrAbt := 0
  spsrUnd := 0
  pending := 0
  mem := []
  refill := false
  cycles := 0
  calls := []
  params := .default
  irqLine := Config.irqLine 0
  draws := 0

end Sys2Proof.Machine
end

