-- ==== Sys2Proof/Machine/Memory.lean ====
section
/-! DEFINITION. How an address selects a region and a byte of its store (20_memory.md rules R82 to R85), what an unlisted byte
reads as, and the canonical form of the list of bytes. -/

namespace Sys2Proof

/-- The size of a row's region in bytes. -/
def RegionRow.size (r : RegionRow) : Nat := 4 * r.words

/-- The lowest address of a row's window. -/
def RegionRow.base (r : RegionRow) : Nat := r.first * 0x1000000

/-! ### Store addresses (log 18)

The store of each region is a byte array indexed by offset (10_state.md rule R49). The memory list holds all of them, the
byte at offset `o` of a region under the store address `2^32 × n + o`, where `n` is the region's number below. -/

/-- The number of a region's store: its default selector. -/
def Region.number : Region → Nat
  | .bios => 0x00
  | .ewram => 0x02
  | .iwram => 0x03
  | .io => 0x04
  | .pal => 0x05
  | .vram => 0x06
  | .oam => 0x07
  | .cartRom => 0x08
  | .cartSram => 0x0E
  | .unmapped => 0x10

/-- The store address of offset 0 of a region. -/
def Region.block (r : Region) : Nat := 0x100000000 * r.number

end Sys2Proof

namespace Sys2Proof.Machine

/-- The row of the region table that covers an address's selector a[31:24] (20_memory.md rule R82; log 3). -/
def rowOf (m : RegionMap) (a : Word) : Option RegionRow :=
  m.find? fun r => r.first ≤ a.toNat / 0x1000000 && a.toNat / 0x1000000 ≤ r.last

/-- The region of an address, `REGION_MAP(a[31:24])` (20_memory.md rules R82, R85). -/
def regionOf (m : RegionMap) (a : Word) : Region :=
  match rowOf m a with
  | some r => r.region
  | none => .unmapped

/-- The offset of an address in its region: `(a − base) mod size` (20_memory.md rule R83). -/
def offsetOf (m : RegionMap) (a : Word) : Nat :=
  match rowOf m a with
  | some r => (a.toNat - r.base) % r.size
  | none => 0

/-- Whether an address is of the slow cost class; unmapped addresses are fast (20_memory.md rule R84). -/
def isSlow (m : RegionMap) (a : Word) : Bool :=
  match rowOf m a with
  | some r => r.slow
  | none => false

/-- The store address an address selects: two addresses of one region with one offset select one byte
(20_memory.md rule R83). -/
def physOf (m : RegionMap) (a : Word) : Nat := (regionOf m a).block + offsetOf m a

/-- Whether a store address has a byte in the core-owned stores or in a cartridge ROM image. The two bytes of IF are the
field `pending` (20_memory.md rule R97), and the cartridge SRAM is the collaborator's alone (rule R91). -/
def isStored (k : Nat) : Bool :=
  let n := k / 0x100000000
  (n == 0 || (2 ≤ n && n ≤ 8)) && k != Region.io.block + 0x202 && k != Region.io.block + 0x203

/-- Whether a store address is one of a core-owned store, not of the cartridge ROM (10_state.md rule R49). -/
def isCoreOwned (k : Nat) : Bool := k < Region.cartRom.block

/-- What an unlisted store address reads as: 0 in a core-owned store (10_state.md rule R56, BIOS_IMAGE's default
included); in the cartridge ROM no fixed byte, the collaborator's answer being free (20_memory.md rule R93; log 6). -/
def resting (k : Nat) : Option Byte := if isCoreOwned k then some 0 else none

/-- The listed byte at a store address. -/
def Memory.lookup : Memory → Nat → Option Byte
  | [], _ => none
  | (k, b) :: m, key => if k = key then some b else Memory.lookup m key

/-- The list without an entry at a store address. -/
def Memory.erase : Memory → Nat → Memory
  | [], _ => []
  | (k, b) :: m, key => if k = key then m else (k, b) :: Memory.erase m key

/-- The list with the byte at a store address set, in its sorted place. -/
def Memory.insert : Memory → Nat → Byte → Memory
  | [], key, b => [(key, b)]
  | (k, b') :: m, key, b =>
    if key < k then (key, b) :: (k, b') :: m
    else if key = k then (key, b) :: m
    else (k, b') :: Memory.insert m key b

/-- Storing a byte: an address that then reads as an unlisted one does is not listed, and an address that has no store
keeps nothing. -/
def Memory.put (m : Memory) (key : Nat) (b : Byte) : Memory :=
  if !isStored key then m
  else if resting key = some b then m.erase key
  else m.insert key b

/-- The canonical form above a lower bound: addresses strictly rising, each one that has a store, and no entry equal to what
an unlisted address reads as. -/
def Memory.wfFrom : Nat → Memory → Bool
  | _, [] => true
  | lo, (k, b) :: m => lo ≤ k && isStored k && (resting k != some b) && Memory.wfFrom (k + 1) m

/-- The canonical form of the memory list. -/
def Memory.wf (m : Memory) : Bool := Memory.wfFrom 0 m

/-- The bytes of the core-owned stores: the memory part of a snapshot (70_reset_and_hazards.md rule R408). -/
def Memory.coreOwned (m : Memory) : Memory := m.filter fun x => isCoreOwned x.1

/-- The bytes of a cartridge ROM image. -/
def Memory.cartridge (m : Memory) : Memory := m.filter fun x => !isCoreOwned x.1

end Sys2Proof.Machine
end

