-- ==== Sys2Proof/Machine/Registers.lean ====
section
/-! DEFINITION. Processor modes, the banked view of the general registers, and the fields of a status register
(10_state.md). -/

namespace Sys2Proof.Machine

/-! ### Modes -/

/-- The mode field of each mode (10_state.md rule R32). -/
def Mode.bits : Mode → BitVec 5
  | .usr => 0x10
  | .fiq => 0x11
  | .irq => 0x12
  | .svc => 0x13
  | .abt => 0x17
  | .und => 0x1B
  | .sys => 0x1F

/-- The mode of a mode field; `none` is an invalid mode (10_state.md rules R32, R33). -/
def Mode.ofBits (b : BitVec 5) : Option Mode :=
  match b.toNat with
  | 0x10 => some .usr
  | 0x11 => some .fiq
  | 0x12 => some .irq
  | 0x13 => some .svc
  | 0x17 => some .abt
  | 0x1B => some .und
  | 0x1F => some .sys
  | _ => none

/-- User mode is unprivileged, every other mode privileged (10_state.md rule R32). -/
def Mode.privileged : Mode → Bool
  | .usr => false
  | _ => true

/-- Whether a mode owns an SPSR (10_state.md rules R32, R46, R47). -/
def Mode.hasSpsr : Mode → Bool
  | .usr => false
  | .sys => false
  | _ => true

/-! ### Fields of a status register (10_state.md rule R42) -/

def psrN (p : Word) : Bool := p.getLsbD 31
def psrZ (p : Word) : Bool := p.getLsbD 30
def psrC (p : Word) : Bool := p.getLsbD 29
def psrV (p : Word) : Bool := p.getLsbD 28
def psrI (p : Word) : Bool := p.getLsbD 7
def psrF (p : Word) : Bool := p.getLsbD 6
def psrT (p : Word) : Bool := p.getLsbD 5
def psrMode (p : Word) : BitVec 5 := p.extractLsb' 0 5

/-- Whether the mode field is one of the seven modes (10_state.md rule R33). -/
def validPsr (p : Word) : Bool := (Mode.ofBits (psrMode p)).isSome

/-- The status register with the four flags replaced. -/
def withNZCV (p : Word) (n z c v : Bool) : Word :=
  BitVec.ofBool n ++ BitVec.ofBool z ++ BitVec.ofBool c ++ BitVec.ofBool v ++ p.extractLsb' 0 28

/-- The status register with N and Z replaced. -/
def withNZ (p : Word) (n z : Bool) : Word :=
  BitVec.ofBool n ++ BitVec.ofBool z ++ p.extractLsb' 0 30

/-- The status register with T replaced. -/
def withT (p : Word) (t : Bool) : Word :=
  p.extractLsb' 6 26 ++ BitVec.ofBool t ++ p.extractLsb' 0 5

/-- The status register on exception entry: the mode entered, T = 0, I = 1, F and bits 31:8 unchanged
(60_exceptions.md rule R372). -/
def exceptionPsr (p : Word) (m : Mode) : Word :=
  p.extractLsb' 8 24 ++ 0b1#1 ++ p.extractLsb' 6 1 ++ 0b0#1 ++ m.bits

/-! ### The register file -/

/-- The contents of a physical register. -/
def RegFile.get (r : RegFile) : PhysReg → Word
  | .low i => r.low[i]
  | .usr i => r.usr[i]
  | .fiq i => r.fiq[i]
  | .irq i => r.irq[i]
  | .svc i => r.svc[i]
  | .abt i => r.abt[i]
  | .und i => r.und[i]

/-- The register file with one physical register written (10_state.md rule R35). -/
def RegFile.set (r : RegFile) (p : PhysReg) (v : Word) : RegFile :=
  match p with
  | .low i => { r with low := r.low.set i v }
  | .usr i => { r with usr := r.usr.set i v }
  | .fiq i => { r with fiq := r.fiq.set i v }
  | .irq i => { r with irq := r.irq.set i v }
  | .svc i => { r with svc := r.svc.set i v }
  | .abt i => { r with abt := r.abt.set i v }
  | .und i => { r with und := r.und.set i v }

/-- R13 (`i` = 0) or R14 (`i` = 1) of a mode (10_state.md rule R34). -/
def viewHigh (m : Mode) (i : Fin 2) : PhysReg :=
  match m with
  | .usr | .sys => .usr ⟨5 + i.val, by omega⟩
  | .fiq => .fiq ⟨5 + i.val, by omega⟩
  | .irq => .irq i
  | .svc => .svc i
  | .abt => .abt i
  | .und => .und i

/-- The physical register named Ri in a mode; `none` is R15, the pc (10_state.md rule R34). -/
def view (m : Mode) (i : Reg) : Option PhysReg :=
  if h : i.val < 8 then some (.low ⟨i.val, h⟩)
  else if h : i.val < 13 then
    if m = .fiq then some (.fiq ⟨i.val - 8, by omega⟩) else some (.usr ⟨i.val - 8, by omega⟩)
  else if h : i.val < 15 then some (viewHigh m ⟨i.val - 13, by omega⟩)
  else none

/-- The register named Ri in a mode's view; R15 is the pc as it stands (10_state.md rules R34, R37). -/
def State.reg (s : State) (m : Mode) (i : Reg) : Word :=
  match view m i with
  | some p => s.regs.get p
  | none => s.pc

/-- Writing the register named Ri in a mode's view; R15 sets the pc as given (10_state.md rules R34, R37). -/
def State.setReg (s : State) (m : Mode) (i : Reg) (v : Word) : State :=
  match view m i with
  | some p => { s with regs := s.regs.set p v }
  | none => { s with pc := v }

/-! ### The current mode and the saved status registers -/

/-- The mode in CPSR[4:0]. -/
def State.mode? (s : State) : Option Mode := Mode.ofBits (psrMode s.cpsr)

/-- The mode whose registers an instruction sees. A mode field that is no mode never stands in the CPSR (rule R33): no step
puts one there, and `step` refuses such a state; the view is then that of User mode, so that the function is total
(log 10). -/
def State.mode (s : State) : Mode := s.mode?.getD .usr

/-- The SPSR of a mode; USR and SYS own none and read 0 (10_state.md rules R37, R46, R47). -/
def State.spsrOf (s : State) : Mode → Word
  | .usr => 0
  | .fiq => s.spsrFiq
  | .irq => s.spsrIrq
  | .svc => s.spsrSvc
  | .abt => s.spsrAbt
  | .und => s.spsrUnd
  | .sys => 0

/-- Writing the SPSR of a mode; in USR and SYS nothing happens (10_state.md rules R37, R47). -/
def State.setSpsr (s : State) (m : Mode) (v : Word) : State :=
  match m with
  | .usr => s
  | .fiq => { s with spsrFiq := v }
  | .irq => { s with spsrIrq := v }
  | .svc => { s with spsrSvc := v }
  | .abt => { s with spsrAbt := v }
  | .und => { s with spsrUnd := v }
  | .sys => s

end Sys2Proof.Machine
end

