-- ==== Sys2Proof/Machine/Ops.lean ====
section
/-! DEFINITION. The operations every instruction is made of: the bus (20_memory.md), the operand read and the register write
with their R15 rules (40_execution_common.md), exception entry and return (60_exceptions.md), and the frame of an
instruction: condition, pc advance and cycle count. -/

namespace Sys2Proof.Machine

/-! ### Byte accesses -/

/-- The byte at a store address of a store; an unlisted byte of the cartridge ROM is the collaborator's answer, a free
value (20_memory.md rules R86, R93; log 6). -/
def State.storedByte (s : State) (k : Nat) : Byte :=
  match s.mem.lookup k with
  | some b => b
  | none => (resting k).getD (Config.cartByte s.draws k)

/-- `read8` (20_memory.md rule R86). -/
def State.read8 (s : State) (a : Word) : Byte :=
  match regionOf s.params.regions a with
  | .bios | .ewram | .iwram | .pal | .vram | .oam | .cartRom => s.storedByte (physOf s.params.regions a)
  | .io =>
    if offsetOf s.params.regions a = 0x202 then s.pending.extractLsb' 0 8
    else if offsetOf s.params.regions a = 0x203 then s.pending.extractLsb' 8 8
    else s.storedByte (physOf s.params.regions a)
  | .cartSram => Config.cartByte s.draws (physOf s.params.regions a)
  | .unmapped => 0xFF

/-- Writing 1 bits to IF acknowledges their sources (20_memory.md rule R97). -/
def State.acknowledge (s : State) (v : BitVec 16) : State := { s with pending := s.pending &&& ~~~v }

/-- Storing a byte in a core-owned store. -/
def State.store (s : State) (k : Nat) (b : Byte) : State := { s with mem := s.mem.put k b }

/-- Handing a byte write to a collaborator (20_memory.md rules R90, R91, R95; log 7). -/
def State.forward (s : State) (c : Call) : State := { s with calls := s.calls ++ [c] }

/-- `write8` (20_memory.md rule R96). -/
def State.write8 (s : State) (a : Word) (b : Byte) : State :=
  match regionOf s.params.regions a with
  | .bios => s
  | .ewram | .iwram | .pal | .vram | .oam => s.store (physOf s.params.regions a) b
  | .io =>
    if 0x0B0 ≤ offsetOf s.params.regions a ∧ offsetOf s.params.regions a ≤ 0x0DF then s.forward (.dmaWrite (offsetOf s.params.regions a) b)
    else if offsetOf s.params.regions a = 0x202 then s.acknowledge (0#8 ++ b)
    else if offsetOf s.params.regions a = 0x203 then s.acknowledge (b ++ 0#8)
    else s.store (physOf s.params.regions a) b
  | .cartRom => s.forward (.cartWrite .rom (offsetOf s.params.regions a) b)
  | .cartSram => s.forward (.cartWrite .sram (offsetOf s.params.regions a) b)
  | .unmapped => s

/-! ### Wide accesses (20_memory.md rules R100 to R103) -/

/-- The halfword address an access uses: `a AND 0xFFFFFFFE`. -/
def alignHalf (a : Word) : Word := a &&& 0xFFFFFFFE#32

/-- The word address an access uses: `a AND 0xFFFFFFFC`. -/
def alignWord (a : Word) : Word := a &&& 0xFFFFFFFC#32

/-- Whether an aligned halfword address is the IF field (20_memory.md rule R97). -/
def isIfHalf (m : RegionMap) (b : Word) : Bool := regionOf m b == .io && offsetOf m b == 0x202

/-- `read16` (20_memory.md rule R100). -/
def State.read16 (s : State) (a : Word) : Half :=
  let b := alignHalf a
  if isIfHalf s.params.regions b then s.pending else s.read8 (b + 1) ++ s.read8 b

/-- `read32` (20_memory.md rule R100). -/
def State.read32 (s : State) (a : Word) : Word :=
  let b := alignWord a
  s.read8 (b + 3) ++ s.read8 (b + 2) ++ s.read8 (b + 1) ++ s.read8 b

/-- `write16` (20_memory.md rule R100). -/
def State.write16 (s : State) (a : Word) (v : Half) : State :=
  let b := alignHalf a
  if isIfHalf s.params.regions b then s.acknowledge v
  else (s.write8 b (v.extractLsb' 0 8)).write8 (b + 1) (v.extractLsb' 8 8)

/-- `write32` (20_memory.md rule R100). -/
def State.write32 (s : State) (a : Word) (v : Word) : State :=
  let b := alignWord a
  (((s.write8 b (v.extractLsb' 0 8)).write8 (b + 1) (v.extractLsb' 8 8)).write8 (b + 2)
    (v.extractLsb' 16 8)).write8 (b + 3) (v.extractLsb' 24 8)

/-! ### Cost of accesses (20_memory.md rule R112, 70_reset_and_hazards.md rules R420, R421) -/

/-- The width of a bus access. -/
inductive Width where
  | byte | half | word
  deriving DecidableEq, Repr

/-- One bus access, for its cost. -/
structure Access where
  addr : Word
  width : Width
  deriving DecidableEq, Repr

/-- `WAIT(class(region(a)), width)`. -/
def waitOf (p : Params) (x : Access) : Nat :=
  match isSlow p.regions x.addr, x.width with
  | false, .byte => p.waitFast1
  | false, .half => p.waitFast2
  | false, .word => p.waitFast4
  | true, .byte => p.waitSlow1
  | true, .half => p.waitSlow2
  | true, .word => p.waitSlow4

/-- `bus`: the sum over the accesses when `ADD_BUS_COST` is set, else 0 (rule R420). -/
def busCost (p : Params) (xs : List Access) : Nat :=
  if p.addBusCost then (xs.map (waitOf p)).sum else 0

/-! ### Operand reads and register writes (40_execution_common.md rules R177, R178) -/

/-- `readR(i)`: R15 reads A + 8, or A + 12 where `plus12` holds; during an instruction `pc` is A until R15 is written. -/
def State.readR (s : State) (i : Reg) (plus12 : Bool := false) : Word :=
  if i = 15 then (if plus12 then s.pc + 12#32 else s.pc + 8#32) else s.reg s.mode i

/-- `writeR(i, v)`: a write of R15 clears bits 1:0 and refills. -/
def State.writeR (s : State) (i : Reg) (v : Word) : State :=
  if i = 15 then { s with pc := v &&& 0xFFFFFFFC#32, refill := true } else s.setReg s.mode i v

/-! ### Exception entry and return -/

/-- The exceptions of ARMv4T (60_exceptions.md rules R360, R361). This core takes two of them by vector, SWI and IRQ. -/
inductive ExceptionKind where
  | reset | undefined | swi | prefetchAbort | dataAbort | irq | fiq
  deriving DecidableEq, Repr

/-- The fixed low vectors (60_exceptions.md rule R361). -/
def ExceptionKind.vector : ExceptionKind → Word
  | .reset => 0x00000000
  | .undefined => 0x00000004
  | .swi => 0x00000008
  | .prefetchAbort => 0x0000000C
  | .dataAbort => 0x00000010
  | .irq => 0x00000018
  | .fiq => 0x0000001C

/-- `enter(mode, vector, link)` (60_exceptions.md rule R372): the CPSR is saved whole in the SPSR of the mode entered, the
mode is switched with T = 0 and I = 1, R14 of that mode is the link, and the pc is the vector, with a refill. -/
def State.enter (s : State) (m : Mode) (vector link : Word) : State :=
  let saved := s.setSpsr m s.cpsr
  let switched := { saved with cpsr := exceptionPsr s.cpsr m }
  let linked := switched.setReg m 14 link
  { linked with pc := vector, refill := true }

/-- `restore_cpsr()`, the return from exception (40_execution_common.md rule R180): nothing in USR and SYS; a saved value
whose mode field is no mode is refused. -/
def State.restoreCpsr (s : State) : Result :=
  if s.mode.hasSpsr then
    if validPsr (s.spsrOf s.mode) then .next { s with cpsr := s.spsrOf s.mode } else .refused .invalidMode
  else .next s

/-! ### The frame of an instruction -/

/-- `cond_passed` (40_execution_common.md rule R174). -/
def condPassed (c : Cond) (p : Word) : Bool :=
  match c with
  | .eq => psrZ p
  | .ne => !psrZ p
  | .cs => psrC p
  | .cc => !psrC p
  | .mi => psrN p
  | .pl => !psrN p
  | .vs => psrV p
  | .vc => !psrV p
  | .hi => psrC p && !psrZ p
  | .ls => !psrC p || psrZ p
  | .ge => psrN p == psrV p
  | .lt => psrN p != psrV p
  | .gt => !psrZ p && (psrN p == psrV p)
  | .le => psrZ p || (psrN p != psrV p)
  | .al => true
  | .nv => true

/-- The end of an instruction that began in `start` and has done its work in `s`: the pc advances by 4 unless R15 was
written (10_state.md rule R39), and the cycle count is the base cost, 2 for a refill, and the bus cost of the fetch and of
the instruction's own accesses (70_reset_and_hazards.md rule R420). -/
def State.finish (start : State) (base : Nat) (accesses : List Access) (s : State) : State :=
  { s with
    pc := if s.refill then s.pc else start.pc + 4#32
    cycles := base + (if s.refill then 2 else 0) + busCost start.params (⟨start.pc, .word⟩ :: accesses) }

/-- The state in which an instruction's work begins: nothing has written R15 yet (rule R170). -/
def State.begin (s : State) : State := { s with refill := false }

/-- An instruction under its condition: when it fails, the pc advances by 4 and the step costs 1 cycle
(40_execution_common.md rule R175); when it passes, `body` runs. -/
def conditionally (c : Cond) (s : State) (body : State → Result) : Result :=
  if condPassed c s.cpsr then body s.begin else .next (s.begin.finish 1 [] s.begin)

/-! ### The parts of a step (40_execution_common.md rule R170) -/

/-- The fetched word, `read32(pc)` (rule R171). -/
def State.fetch (s : State) : Word := s.read32 s.pc

/-- Whether the step takes an IRQ (60_exceptions.md rule R369). -/
def State.irqTaken (s : State) : Bool := !psrI s.cpsr && s.irqLine

/-- `take_irq()` (60_exceptions.md rule R369): no instruction runs; 3 cycles by default. -/
def State.takeIrq (s : State) : State :=
  { s.enter .irq ExceptionKind.irq.vector (s.pc + 4#32) with cycles := s.params.cycIrq + 2 }

/-- An undecodable word is a no-op of 1 cycle (30_encoding.md rule R159). -/
def State.undecodable (s : State) : State := s.begin.finish 1 [] s.begin

/-- The draws of the fetch are used up: the instruction's own cartridge reads and handler call are new ones (log 6). -/
def State.afterFetch (s : State) : State := { s with draws := s.draws + 1 }

/-- The end of a step: the next step's draws are new, and `IRQ_LINE` is sampled anew (60_exceptions.md rule R368; log 5). -/
def State.endStep (s : State) : State :=
  { s with draws := s.draws + 1, irqLine := Config.irqLine (s.draws + 1) }

/-- `endStep` on the outcome of an instruction. -/
def endOutcome : Result → Result
  | .next s => .next s.endStep
  | .fault f => .fault f
  | .refused r => .refused r

/-! ### Loading from outside the machine (log 17) -/

/-- Whether the four bytes of the word at an address are bytes of a store. -/
def canHold (m : RegionMap) (a : Word) : Bool :=
  let b := alignWord a
  isStored (physOf m b) && isStored (physOf m (b + 1)) && isStored (physOf m (b + 2)) && isStored (physOf m (b + 3))

/-- A byte put into its store directly, beside the bus, as the host, DMA and peripherals do it between steps
(70_reset_and_hazards.md rule R410); a read-only store takes it too. Where no store holds the byte nothing happens: rule R410
says nothing of a write beside the bus at the IF bytes, which the model drops (DESIGN CHOICE, log 19). -/
def State.poke (s : State) (a : Word) (b : Byte) : State := s.store (physOf s.params.regions a) b

/-- The word at an address put into its store directly, little-endian. -/
def State.placeWord (s : State) (a w : Word) : State :=
  let b := alignWord a
  (((s.poke b (w.extractLsb' 0 8)).poke (b + 1) (w.extractLsb' 8 8)).poke (b + 2)
    (w.extractLsb' 16 8)).poke (b + 3) (w.extractLsb' 24 8)

/-- The state made ready to run a placed instruction: ARM state in a legal mode, no IRQ, and a pc at which a word can be
placed. -/
def State.readyToFetch (s : State) : State :=
  { s with
    cpsr := if validPsr s.cpsr then withT s.cpsr false else 0x000000D3#32
    irqLine := false
    pc := if canHold s.params.regions s.pc then s.pc else 0x00000000#32 }

end Sys2Proof.Machine
end

