-- ==== Sys2Proof/Machine/Flags.lean ====
section
/-! DEFINITION. The barrel shifter (40_execution_common.md rules R181 to R188) and the flag computations (rules R189 to R193,
42_multiply.md rule R242). -/

namespace Sys2Proof.Machine

/-! ### Barrel shifter -/

/-- A shifted operand and its carry-out. -/
structure ShiftOut where
  value : Word
  carry : Bool
  deriving DecidableEq, Repr

/-- LSL by n ≥ 1 (rule R184). -/
def shiftLsl (v : Word) (n : Nat) : ShiftOut :=
  if n < 32 then ⟨v <<< n, v.getLsbD (32 - n)⟩
  else if n = 32 then ⟨0, v.getLsbD 0⟩
  else ⟨0, false⟩

/-- LSR by n ≥ 1 (rule R185). -/
def shiftLsr (v : Word) (n : Nat) : ShiftOut :=
  if n < 32 then ⟨v >>> n, v.getLsbD (n - 1)⟩
  else if n = 32 then ⟨0, v.getLsbD 31⟩
  else ⟨0, false⟩

/-- ASR by n ≥ 1 (rule R186). -/
def shiftAsr (v : Word) (n : Nat) : ShiftOut :=
  if n < 32 then ⟨v.sshiftRight n, v.getLsbD (n - 1)⟩
  else ⟨if v.getLsbD 31 then 0xFFFFFFFF else 0, v.getLsbD 31⟩

/-- ROR by n ≥ 1, with `ARCH_SHIFT_ZERO` and the carry flag for the multiples of 32 (rule R187). -/
def shiftRor (arch : Bool) (v : Word) (n : Nat) (cin : Bool) : ShiftOut :=
  let r := n % 32
  if r = 0 then ⟨v, if arch then v.getLsbD 31 else cin⟩
  else ⟨v.rotateRight r, v.getLsbD (r - 1)⟩

/-- RRX (rule R183, only with `ARCH_SHIFT_ZERO`). -/
def shiftRrx (v : Word) (cin : Bool) : ShiftOut := ⟨BitVec.ofBool cin ++ v.extractLsb' 1 31, v.getLsbD 0⟩

/-- Amount zero (rule R183): a no-op, but for the immediate encoding under `ARCH_SHIFT_ZERO`. -/
def shiftZero (arch immEncoding : Bool) (v : Word) (ty : ShiftType) (cin : Bool) : ShiftOut :=
  if arch && immEncoding then
    match ty with
    | .lsl => ⟨v, cin⟩
    | .lsr => shiftLsr v 32
    | .asr => shiftAsr v 32
    | .ror => shiftRrx v cin
  else ⟨v, cin⟩

/-- `shifter(v, type, amount, encoding)` (rule R181); `cin` is CPSR.C (rule R182). -/
def shifter (arch immEncoding : Bool) (v : Word) (ty : ShiftType) (amount : Nat) (cin : Bool) : ShiftOut :=
  if amount = 0 then shiftZero arch immEncoding v ty cin
  else
    match ty with
    | .lsl => shiftLsl v amount
    | .lsr => shiftLsr v amount
    | .asr => shiftAsr v amount
    | .ror => shiftRor arch v amount cin

/-- The value of a rotated immediate: `ROR(zext_8(imm8), 2 × rot)` (30_encoding.md rule R146). -/
def rotatedValue (rot : BitVec 4) (imm8 : BitVec 8) : Word :=
  (0#24 ++ imm8).rotateRight (2 * rot.toNat)

/-- A rotated immediate operand: the carry is CPSR.C if rot = 0, else bit 31 of the value (rule R188). -/
def rotatedImm (rot : BitVec 4) (imm8 : BitVec 8) (cin : Bool) : ShiftOut :=
  ⟨rotatedValue rot imm8, if rot = 0 then cin else (rotatedValue rot imm8).getLsbD 31⟩

/-! ### ALU results and their flags -/

/-- A 32-bit result with the carry and overflow its class gives; N and Z follow from the result (rule R189). -/
structure AluOut where
  result : Word
  carry : Bool
  overflow : Bool
  deriving DecidableEq, Repr

/-- Additive operations (rule R190). -/
def addOut (a b : Word) (cin : Bool) : AluOut :=
  let sum := a.toNat + b.toNat + cin.toNat
  let r : Word := BitVec.ofNat 32 sum
  ⟨r, decide (2 ^ 32 ≤ sum), a.getLsbD 31 == b.getLsbD 31 && r.getLsbD 31 != a.getLsbD 31⟩

/-- Subtractive operations: minuend `a`, subtrahend `b`, borrow input `bin` (rule R191). -/
def subOut (a b : Word) (bin : Bool) : AluOut :=
  let r : Word := BitVec.ofInt 32 ((a.toNat : Int) - b.toNat - bin.toNat)
  ⟨r, decide (b.toNat + bin.toNat ≤ a.toNat), a.getLsbD 31 != b.getLsbD 31 && r.getLsbD 31 != a.getLsbD 31⟩

/-- Logical operations: the carry is the shifter's, the overflow flag is kept (rule R192). -/
def logicOut (r : Word) (sc v : Bool) : AluOut := ⟨r, sc, v⟩

/-- N, Z, C and V written from an ALU result (rules R189 to R192). -/
def State.setFlags (s : State) (a : AluOut) : State :=
  { s with cpsr := withNZCV s.cpsr (a.result.getLsbD 31) (a.result == 0) a.carry a.overflow }

/-- N and Z written as the multiplies do (42_multiply.md rule R242). -/
def State.setNZ (s : State) (n z : Bool) : State := { s with cpsr := withNZ s.cpsr n z }

end Sys2Proof.Machine
end

