-- ==== Sys2Proof/Machine/Operands.lean ====
section
/-! DEFINITION. The operand forms: data-processing operands (41_data_processing.md rule R210), the addresses and write-back of
single transfers (43_single_transfer.md rules R260, R261, R270), the addressing of block transfers (44_block_transfer.md
rule R290), the operand and mask of MSR (47_psr_transfer.md rules R337, R338). -/

namespace Sys2Proof.Machine

/-! ### Data processing -/

/-- The operands of a data-processing instruction: `op1`, `op2` and the shifter carry-out (rule R210). -/
structure DpOperands where
  op1 : Word
  op2 : Word
  sc : Bool
  deriving DecidableEq, Repr

/-- Whether operand 2 is the register-shift form, in which R15 reads A + 12 (rule R177). -/
def isRegShift : Operand2 → Bool
  | .shiftReg .. => true
  | _ => false

/-- Operand 2 and its carry-out (rule R210). -/
def operand2 (s : State) : Operand2 → ShiftOut
  | .imm rot imm8 => rotatedImm rot imm8 (psrC s.cpsr)
  | .shiftImm rm ty n => shifter s.params.archShiftZero true (s.readR rm) ty n.toNat (psrC s.cpsr)
  | .shiftReg rm ty rs =>
    shifter s.params.archShiftZero false (s.readR rm true) ty ((s.readR rs true).extractLsb' 0 8).toNat (psrC s.cpsr)

/-- `dp_operands` (rule R210). -/
def dpOperands (s : State) (rn : Reg) (o : Operand2) : DpOperands :=
  ⟨s.readR rn (isRegShift o), (operand2 s o).value, (operand2 s o).carry⟩

/-! ### Single transfers -/

/-- Where a transfer accesses memory, and the effective address its write-back uses (rules R260, R270). -/
structure TransferAddr where
  addr : Word
  ea : Word
  deriving DecidableEq, Repr

/-- The offset of a word or byte transfer (rule R260); the shifter's carry-out is discarded. -/
def offsetValue (s : State) : Offset → Word
  | .imm n => 0#20 ++ n
  | .reg rm ty n => (shifter s.params.archShiftZero true (s.readR rm) ty n.toNat (psrC s.cpsr)).value

/-- The offset of a halfword or signed transfer (rule R270). -/
def halfOffsetValue (s : State) : HalfOffset → Word
  | .imm n => 0#24 ++ n
  | .reg rm => s.readR rm

/-- The base plus or minus the offset, before or after the access (rules R260, R270). -/
def indexed (ix : Indexing) (up : Bool) (base offset : Word) : TransferAddr :=
  let ea := if up then base + offset else base - offset
  ⟨if ix.p then ea else base, ea⟩

/-- `sdt_address` (rule R260). -/
def sdtAddress (s : State) (ix : Indexing) (up : Bool) (rn : Reg) (off : Offset) : TransferAddr :=
  indexed ix up (s.readR rn) (offsetValue s off)

/-- `hw_address` (rule R270). -/
def hwAddress (s : State) (ix : Indexing) (up : Bool) (rn : Reg) (off : HalfOffset) : TransferAddr :=
  indexed ix up (s.readR rn) (halfOffsetValue s off)

/-- `sdt_writeback` (rule R261): always after a post-indexed transfer; after a pre-indexed one with W = 1 unless Rn = Rd. -/
def State.writeback (s : State) (ix : Indexing) (rn rd : Reg) (ea : Word) : State :=
  match ix with
  | .post => s.writeR rn ea
  | .pre => s
  | .preWriteback => if rn = rd then s else s.writeR rn ea

/-! ### Block transfers -/

/-- The sixteen register numbers in ascending order. -/
def allRegs : List Reg := [0, 1, 2, 3, 4, 5, 6, 7, 8, 9, 10, 11, 12, 13, 14, 15]

/-- The listed registers in ascending order (30_encoding.md rule R151). -/
def listedRegs (list : BitVec 16) : List Reg := allRegs.filter fun i => list.getLsbD i.val

/-- Where a block transfer starts and what it writes back. -/
structure BlockAddr where
  start : Word
  wb : Word
  deriving DecidableEq, Repr

/-- `addressing(P, U, base, n)` (rule R290). -/
def blockAddress (m : BlockMode) (base : Word) (n : Nat) : BlockAddr :=
  let span : Word := BitVec.ofNat 32 (4 * n)
  match m with
  | .ia => ⟨base, base + span⟩
  | .ib => ⟨base + 4#32, base + span⟩
  | .da => ⟨base - span + 4#32, base - span⟩
  | .db => ⟨base - span, base - span⟩

/-- The word accesses of a block transfer of `n` registers. -/
def blockAccesses (start : Word) (n : Nat) : List Access :=
  (List.range n).map fun k => ⟨start + BitVec.ofNat 32 (4 * k), .word⟩

/-! ### PSR transfers -/

/-- `bytemask` (30_encoding.md rule R152): mask bit 3 is bits 31:24, bit 2 bits 23:16, bit 1 bits 15:8, bit 0 bits 7:0. -/
def byteMask (mask : BitVec 4) : Word :=
  (if mask.getLsbD 3 then 0xFF#8 else 0#8) ++ (if mask.getLsbD 2 then 0xFF#8 else 0#8)
    ++ (if mask.getLsbD 1 then 0xFF#8 else 0#8) ++ (if mask.getLsbD 0 then 0xFF#8 else 0#8)

/-- `(old AND NOT bm) OR (v AND bm)` (rule R339). -/
def mergeBits (old v bm : Word) : Word := (old &&& ~~~bm) ||| (v &&& bm)

end Sys2Proof.Machine
end

