-- ==== Sys2Proof/Machine/DataProcessing.lean ====
section
/-! DEFINITION. Data processing (41_data_processing.md): the sixteen operations and the S = 0 tests, over the operands of rule
R210 and the result write of rule R211. -/

namespace Sys2Proof.Machine

/-- A meaning's outcome with its next state changed. -/
def mapNext (f : State → State) : Result → Result
  | .next s => .next (f s)
  | .fault x => .fault x
  | .refused r => .refused r

/-- The end of a data-processing instruction: `CYC_DP`, and 1 more when the shift amount comes from a register (rule R230). -/
def dpFinish (start : State) (o : Operand2) (s : State) : State :=
  start.finish (start.params.cycDp + if isRegShift o then 1 else 0) [] s

/-- `dp_write` for the operations that write Rd (rule R211): with S = 1 and Rd = 15 in a mode that owns an SPSR the CPSR is
restored in place of the flag write. -/
def dpWrite (s : State) (sf : Bool) (rd : Reg) (o : Operand2) (a : AluOut) : Result :=
  let t := s.writeR rd a.result
  if sf then
    if rd = 15 ∧ s.mode.hasSpsr then mapNext (dpFinish s o) t.restoreCpsr
    else .next (dpFinish s o (t.setFlags a))
  else .next (dpFinish s o t)

/-- `dp_write` for the comparison-only operations with S = 1 (rule R211): flags, no register. -/
def dpTest (s : State) (o : Operand2) (a : AluOut) : Result := .next (dpFinish s o (s.setFlags a))

/-- AND (rule R213): the AND of the operands. -/
def execAnd (c : Cond) (sf : Bool) (rn rd : Reg) (o : Operand2) (s : State) : Result :=
  conditionally c s fun s =>
    let d := dpOperands s rn o
    dpWrite s sf rd o (logicOut (d.op1 &&& d.op2) d.sc (psrV s.cpsr))

/-- EOR (rule R214): their exclusive OR. -/
def execEor (c : Cond) (sf : Bool) (rn rd : Reg) (o : Operand2) (s : State) : Result :=
  conditionally c s fun s =>
    let d := dpOperands s rn o
    dpWrite s sf rd o (logicOut (d.op1 ^^^ d.op2) d.sc (psrV s.cpsr))

/-- SUB (rule R215): op1 − op2. -/
def execSub (c : Cond) (sf : Bool) (rn rd : Reg) (o : Operand2) (s : State) : Result :=
  conditionally c s fun s =>
    let d := dpOperands s rn o
    dpWrite s sf rd o (subOut d.op1 d.op2 false)

/-- RSB (rule R216): op2 − op1. -/
def execRsb (c : Cond) (sf : Bool) (rn rd : Reg) (o : Operand2) (s : State) : Result :=
  conditionally c s fun s =>
    let d := dpOperands s rn o
    dpWrite s sf rd o (subOut d.op2 d.op1 false)

/-- ADD (rule R217): op1 + op2. -/
def execAdd (c : Cond) (sf : Bool) (rn rd : Reg) (o : Operand2) (s : State) : Result :=
  conditionally c s fun s =>
    let d := dpOperands s rn o
    dpWrite s sf rd o (addOut d.op1 d.op2 false)

/-- ADC (rule R218): op1 + op2 + C. -/
def execAdc (c : Cond) (sf : Bool) (rn rd : Reg) (o : Operand2) (s : State) : Result :=
  conditionally c s fun s =>
    let d := dpOperands s rn o
    dpWrite s sf rd o (addOut d.op1 d.op2 (psrC s.cpsr))

/-- SBC (rule R219): op1 − op2 − (1 − C). -/
def execSbc (c : Cond) (sf : Bool) (rn rd : Reg) (o : Operand2) (s : State) : Result :=
  conditionally c s fun s =>
    let d := dpOperands s rn o
    dpWrite s sf rd o (subOut d.op1 d.op2 (!psrC s.cpsr))

/-- RSC (rule R220): op2 − op1 − (1 − C). -/
def execRsc (c : Cond) (sf : Bool) (rn rd : Reg) (o : Operand2) (s : State) : Result :=
  conditionally c s fun s =>
    let d := dpOperands s rn o
    dpWrite s sf rd o (subOut d.op2 d.op1 (!psrC s.cpsr))

/-- ORR (rule R226): their OR. -/
def execOrr (c : Cond) (sf : Bool) (rn rd : Reg) (o : Operand2) (s : State) : Result :=
  conditionally c s fun s =>
    let d := dpOperands s rn o
    dpWrite s sf rd o (logicOut (d.op1 ||| d.op2) d.sc (psrV s.cpsr))

/-- BIC (rule R228): op1 AND NOT op2. -/
def execBic (c : Cond) (sf : Bool) (rn rd : Reg) (o : Operand2) (s : State) : Result :=
  conditionally c s fun s =>
    let d := dpOperands s rn o
    dpWrite s sf rd o (logicOut (d.op1 &&& ~~~d.op2) d.sc (psrV s.cpsr))

/-- MOV (rule R227): operand 2; the Rn field is ignored. -/
def execMov (c : Cond) (sf : Bool) (rd : Reg) (o : Operand2) (s : State) : Result :=
  conditionally c s fun s =>
    let p := operand2 s o
    dpWrite s sf rd o (logicOut p.value p.carry (psrV s.cpsr))

/-- MVN (rule R229): NOT operand 2; the Rn field is ignored. -/
def execMvn (c : Cond) (sf : Bool) (rd : Reg) (o : Operand2) (s : State) : Result :=
  conditionally c s fun s =>
    let p := operand2 s o
    dpWrite s sf rd o (logicOut (~~~p.value) p.carry (psrV s.cpsr))

/-- TST (rule R221): the flags of AND. -/
def execTst (c : Cond) (rn : Reg) (o : Operand2) (s : State) : Result :=
  conditionally c s fun s =>
    let d := dpOperands s rn o
    dpTest s o (logicOut (d.op1 &&& d.op2) d.sc (psrV s.cpsr))

/-- TEQ (rule R222): the flags of EOR. -/
def execTeq (c : Cond) (rn : Reg) (o : Operand2) (s : State) : Result :=
  conditionally c s fun s =>
    let d := dpOperands s rn o
    dpTest s o (logicOut (d.op1 ^^^ d.op2) d.sc (psrV s.cpsr))

/-- CMP (rule R223): the flags of SUB. -/
def execCmp (c : Cond) (rn : Reg) (o : Operand2) (s : State) : Result :=
  conditionally c s fun s =>
    let d := dpOperands s rn o
    dpTest s o (subOut d.op1 d.op2 false)

/-- CMN (rule R225): the flags of ADD. -/
def execCmn (c : Cond) (rn : Reg) (o : Operand2) (s : State) : Result :=
  conditionally c s fun s =>
    let d := dpOperands s rn o
    dpTest s o (addOut d.op1 d.op2 false)

/-- A test operation with S = 0 that is not MRS, MSR or BX (rule R224): neither a register nor a flag is written, whichever
of the four operations it is. -/
def execDpTestS0 (c : Cond) (_op : TestOp) (_rn : Reg) (o : Operand2) (s : State) : Result :=
  conditionally c s fun s => .next (dpFinish s o s)

end Sys2Proof.Machine
end

