-- ==== Sys2Proof/Machine/BlockTransfer.lean ====
section
/-! DEFINITION. Block data transfer (44_block_transfer.md): an ascending walk over the listed registers, the lowest at the
lowest address (rule R290), the S bit (rule R296) and the write-back (rule R292). -/

namespace Sys2Proof.Machine

/-- The walk of LDM (rule R294): each listed register is loaded from the next word, into the User view when `user` holds. -/
def loadList (user : Bool) : List Reg → Word → State → State
  | [], _, s => s
  | i :: is, a, s =>
    loadList user is (a + 4#32)
      (if user && i != 15 then s.setReg .usr i (s.read32 a) else s.writeR i (s.read32 a))

/-- The walk of STM (rule R295): each listed register is stored in the next word, from the User view when S = 1; R15 stores
A + 12. -/
def storeList (sb : Bool) : List Reg → Word → State → State
  | [], _, s => s
  | i :: is, a, s =>
    storeList sb is (a + 4#32) (s.write32 a (if sb && i != 15 then s.reg .usr i else s.readR i true))

/-- LDM (rule R294): nothing for an empty list (rule R293); no write-back when the base is in the list (rule R292); with S = 1
and R15 in the list the CPSR is restored last, with R15 not in the list the User registers are loaded (rule R296). -/
def execLdm (c : Cond) (m : BlockMode) (sb wb : Bool) (rn : Reg) (list : BitVec 16) (s : State) : Result :=
  conditionally c s fun s =>
    let regs := listedRegs list
    if regs = [] then .next (s.finish 1 [] s)
    else
      let n := regs.length
      let t := blockAddress m (s.readR rn) n
      let user := sb && !list.getLsbD 15
      let loaded := loadList user regs t.start s
      let based := if wb && !list.getLsbD rn.val then loaded.writeR rn t.wb else loaded
      let fin := s.finish (s.params.cycLdmBase + n) (blockAccesses t.start n)
      if sb && list.getLsbD 15 then mapNext fin based.restoreCpsr else .next (fin based)

/-- STM (rule R295): the write-back comes after every store, so each stored value is the one at the start (rule R292). -/
def execStm (c : Cond) (m : BlockMode) (sb wb : Bool) (rn : Reg) (list : BitVec 16) (s : State) : Result :=
  conditionally c s fun s =>
    let regs := listedRegs list
    if regs = [] then .next (s.finish 1 [] s)
    else
      let n := regs.length
      let t := blockAddress m (s.readR rn) n
      let stored := storeList sb regs t.start s
      let based := if wb then stored.writeR rn t.wb else stored
      .next (s.finish (s.params.cycStmBase + n) (blockAccesses t.start n) based)

end Sys2Proof.Machine
end

