-- ==== Sys2Proof/Machine/Branch.lean ====
section
/-! DEFINITION. Branch, branch with link, branch and exchange (45_branch.md). -/

namespace Sys2Proof.Machine

/-- `A + 8 + (sext_24(offset24) << 2)` (rule R310, 30_encoding.md rule R150). -/
def branchTarget (a : Word) (offset24 : BitVec 24) : Word := a + 8#32 + (offset24.signExtend 32 <<< 2)

/-- B (rule R310). -/
def execB (c : Cond) (offset24 : BitVec 24) (s : State) : Result :=
  conditionally c s fun s =>
    .next (s.finish s.params.cycBranch [] (s.writeR 15 (branchTarget s.pc offset24)))

/-- BL: R14 of the current view is the address of the next instruction (rule R311). -/
def execBl (c : Cond) (offset24 : BitVec 24) (s : State) : Result :=
  conditionally c s fun s =>
    .next (s.finish s.params.cycBranch []
      ((s.setReg s.mode 14 (s.pc + 4#32)).writeR 15 (branchTarget s.pc offset24)))

/-- BX: an odd target sets T; the pc is the target with bit 0 cleared and bit 1 kept (rule R316). -/
def execBx (c : Cond) (rm : Reg) (s : State) : Result :=
  conditionally c s fun s =>
    let v := s.readR rm
    .next (s.finish s.params.cycBranch []
      { s with
        cpsr := if v.getLsbD 0 then withT s.cpsr true else s.cpsr
        pc := v &&& 0xFFFFFFFE#32
        refill := true })

end Sys2Proof.Machine
end

