-- ==== Sys2Proof/Machine/Multiply.lean ====
section
/-! DEFINITION. Multiply and multiply-long (42_multiply.md): operands are read before any write (rule R240), R15 reads A + 8
and is written masked with a refill (rule R241), and only N and Z are written (rule R242). -/

namespace Sys2Proof.Machine

/-- The write of a 32-bit multiply result: Rd, and N and Z under S (rules R242, R244, R245). -/
def mulWrite (s : State) (sf : Bool) (rd : Reg) (result : Word) (base : Nat) : Result :=
  let t := s.writeR rd result
  .next (s.finish base [] (if sf then t.setNZ (result.getLsbD 31) (result == 0) else t))

/-- The write of a 64-bit result: RdLo, then RdHi, and N and Z of the 64 bits under S (rules R241, R242). -/
def mullWrite (s : State) (sf : Bool) (rdHi rdLo : Reg) (p : BitVec 64) (base : Nat) : Result :=
  let t := (s.writeR rdLo (p.extractLsb' 0 32)).writeR rdHi (p.extractLsb' 32 32)
  .next (s.finish base [] (if sf then t.setNZ (p.getLsbD 63) (p == 0) else t))

/-- The unsigned product of two words (rule R246). -/
def unsignedProduct (a b : Word) : BitVec 64 := BitVec.ofNat 64 (a.toNat * b.toNat)

/-- The signed product of two words, modulo 2^64 (rule R248). -/
def signedProduct (a b : Word) : BitVec 64 := BitVec.ofInt 64 (a.toInt * b.toInt)

/-- The accumulator `readR(RdHi) : readR(RdLo)` (rules R247, R249). -/
def accumulator (s : State) (rdHi rdLo : Reg) : BitVec 64 := s.readR rdHi ++ s.readR rdLo

/-- MUL (rule R244). -/
def execMul (c : Cond) (sf : Bool) (rd rm rs : Reg) (s : State) : Result :=
  conditionally c s fun s => mulWrite s sf rd (s.readR rm * s.readR rs) s.params.cycMul

/-- MLA (rule R245). -/
def execMla (c : Cond) (sf : Bool) (rd rn rm rs : Reg) (s : State) : Result :=
  conditionally c s fun s => mulWrite s sf rd (s.readR rm * s.readR rs + s.readR rn) s.params.cycMla

/-- UMULL (rule R246). -/
def execUmull (c : Cond) (sf : Bool) (rdHi rdLo rm rs : Reg) (s : State) : Result :=
  conditionally c s fun s => mullWrite s sf rdHi rdLo (unsignedProduct (s.readR rm) (s.readR rs)) s.params.cycMull

/-- UMLAL (rule R247). -/
def execUmlal (c : Cond) (sf : Bool) (rdHi rdLo rm rs : Reg) (s : State) : Result :=
  conditionally c s fun s =>
    mullWrite s sf rdHi rdLo (unsignedProduct (s.readR rm) (s.readR rs) + accumulator s rdHi rdLo) s.params.cycMlal

/-- SMULL (rule R248). -/
def execSmull (c : Cond) (sf : Bool) (rdHi rdLo rm rs : Reg) (s : State) : Result :=
  conditionally c s fun s => mullWrite s sf rdHi rdLo (signedProduct (s.readR rm) (s.readR rs)) s.params.cycMull

/-- SMLAL (rule R249). -/
def execSmlal (c : Cond) (sf : Bool) (rdHi rdLo rm rs : Reg) (s : State) : Result :=
  conditionally c s fun s =>
    mullWrite s sf rdHi rdLo (signedProduct (s.readR rm) (s.readR rs) + accumulator s rdHi rdLo) s.params.cycMlal

end Sys2Proof.Machine
end

