-- ==== Sys2Proof/Machine/Psr.lean ====
section
/-! DEFINITION. PSR transfer (47_psr_transfer.md). -/

namespace Sys2Proof.Machine

/-- The end of an MRS: Rd is written (rules R335, R345). -/
def mrsWrite (s : State) (rd : Reg) (v : Word) : Result := .next (s.finish s.params.cycPsr [] (s.writeR rd v))

/-- MRS of the CPSR, allowed in every mode (rule R335). -/
def execMrsCpsr (c : Cond) (rd : Reg) (s : State) : Result :=
  conditionally c s fun s => mrsWrite s rd s.cpsr

/-- MRS of the SPSR; a mode that has none reads 0 (rules R335, R336). -/
def execMrsSpsr (c : Cond) (rd : Reg) (s : State) : Result :=
  conditionally c s fun s => mrsWrite s rd (s.spsrOf s.mode)

/-- The bytes of the CPSR an MSR may write: in User mode only bits 31:24 (rule R338). -/
def cpsrMask (s : State) (mask : BitVec 4) : Word :=
  if s.mode = .usr then byteMask mask &&& 0xFF000000#32 else byteMask mask

/-- `msr` (rule R341): an SPSR write is ignored in a mode that has none (rule R342); a CPSR whose mode would be no mode is
refused (rule R340). -/
def msrWrite (s : State) (psr : PsrSel) (mask : BitVec 4) (v : Word) : Result :=
  match psr with
  | .spsr => .next (s.finish s.params.cycPsr [] (s.setSpsr s.mode (mergeBits (s.spsrOf s.mode) v (byteMask mask))))
  | .cpsr =>
    if validPsr (mergeBits s.cpsr v (cpsrMask s mask)) then
      .next (s.finish s.params.cycPsr [] { s with cpsr := mergeBits s.cpsr v (cpsrMask s mask) })
    else .refused .invalidMode

/-- MSR, register operand (rules R337, R341). -/
def execMsrReg (c : Cond) (psr : PsrSel) (mask : BitVec 4) (rm : Reg) (s : State) : Result :=
  conditionally c s fun s => msrWrite s psr mask (s.readR rm)

/-- MSR, immediate operand (rules R337, R341). -/
def execMsrImm (c : Cond) (psr : PsrSel) (mask : BitVec 4) (rot : BitVec 4) (imm8 : BitVec 8) (s : State) : Result :=
  conditionally c s fun s => msrWrite s psr mask (rotatedValue rot imm8)

end Sys2Proof.Machine
end

