-- ==== Sys2Proof/Machine/SingleTransfer.lean ====
section
/-! DEFINITION. Single data transfer and halfword or signed transfer (43_single_transfer.md). The order of effects is that of
rule R276: the address, the stored value, the access, the loaded register, the write-back. -/

namespace Sys2Proof.Machine

/-- A load: Rd gets the loaded value, then the base is written back (rules R261, R276). -/
def loadTransfer (s : State) (ix : Indexing) (rn rd : Reg) (t : TransferAddr) (v : Word) (w : Width) : Result :=
  .next (s.finish s.params.cycLdr [⟨t.addr, w⟩] ((s.writeR rd v).writeback ix rn rd t.ea))

/-- A store, `stored` being the state after the access: the base is written back (rules R261, R276). -/
def storeTransfer (s : State) (ix : Indexing) (rn rd : Reg) (t : TransferAddr) (stored : State) (w : Width) : Result :=
  .next (s.finish s.params.cycStr [⟨t.addr, w⟩] (stored.writeback ix rn rd t.ea))

/-- The load word (rule R263). -/
def loadWord (s : State) (ix : Indexing) (up : Bool) (rn rd : Reg) (off : Offset) : Result :=
  let t := sdtAddress s ix up rn off
  loadTransfer s ix rn rd t (s.read32 t.addr) .word

/-- The load byte, zero-extended (rule R265). -/
def loadByte (s : State) (ix : Indexing) (up : Bool) (rn rd : Reg) (off : Offset) : Result :=
  let t := sdtAddress s ix up rn off
  loadTransfer s ix rn rd t ((s.read8 t.addr).setWidth 32) .byte

/-- The store word; R15 stores A + 12 (rule R264). -/
def storeWord (s : State) (ix : Indexing) (up : Bool) (rn rd : Reg) (off : Offset) : Result :=
  let t := sdtAddress s ix up rn off
  storeTransfer s ix rn rd t (s.write32 t.addr (s.readR rd true)) .word

/-- The store byte: bits 7:0 of Rd (rule R266). -/
def storeByte (s : State) (ix : Indexing) (up : Bool) (rn rd : Reg) (off : Offset) : Result :=
  let t := sdtAddress s ix up rn off
  storeTransfer s ix rn rd t (s.write8 t.addr ((s.readR rd true).extractLsb' 0 8)) .byte

/-- STR (rule R264). -/
def execStr (c : Cond) (ix : Indexing) (up : Bool) (rn rd : Reg) (off : Offset) (s : State) : Result :=
  conditionally c s fun s => storeWord s ix up rn rd off

/-- LDR (rule R263). -/
def execLdr (c : Cond) (ix : Indexing) (up : Bool) (rn rd : Reg) (off : Offset) (s : State) : Result :=
  conditionally c s fun s => loadWord s ix up rn rd off

/-- STRB (rule R266). -/
def execStrb (c : Cond) (ix : Indexing) (up : Bool) (rn rd : Reg) (off : Offset) (s : State) : Result :=
  conditionally c s fun s => storeByte s ix up rn rd off

/-- LDRB (rule R265). -/
def execLdrb (c : Cond) (ix : Indexing) (up : Bool) (rn rd : Reg) (off : Offset) (s : State) : Result :=
  conditionally c s fun s => loadByte s ix up rn rd off

/-- STRT: the plain post-indexed form (rule R267). -/
def execStrt (c : Cond) (up : Bool) (rn rd : Reg) (off : Offset) (s : State) : Result :=
  conditionally c s fun s => storeWord s .post up rn rd off

/-- LDRT: the plain post-indexed form (rule R267). -/
def execLdrt (c : Cond) (up : Bool) (rn rd : Reg) (off : Offset) (s : State) : Result :=
  conditionally c s fun s => loadWord s .post up rn rd off

/-- STRBT: the plain post-indexed form (rule R267). -/
def execStrbt (c : Cond) (up : Bool) (rn rd : Reg) (off : Offset) (s : State) : Result :=
  conditionally c s fun s => storeByte s .post up rn rd off

/-- LDRBT: the plain post-indexed form (rule R267). -/
def execLdrbt (c : Cond) (up : Bool) (rn rd : Reg) (off : Offset) (s : State) : Result :=
  conditionally c s fun s => loadByte s .post up rn rd off

/-- STRH: bits 15:0 of Rd (rule R272). -/
def execStrh (c : Cond) (ix : Indexing) (up : Bool) (rn rd : Reg) (off : HalfOffset) (s : State) : Result :=
  conditionally c s fun s =>
    let t := hwAddress s ix up rn off
    storeTransfer s ix rn rd t (s.write16 t.addr ((s.readR rd true).extractLsb' 0 16)) .half

/-- LDRH, zero-extended (rule R271). -/
def execLdrh (c : Cond) (ix : Indexing) (up : Bool) (rn rd : Reg) (off : HalfOffset) (s : State) : Result :=
  conditionally c s fun s =>
    let t := hwAddress s ix up rn off
    loadTransfer s ix rn rd t ((s.read16 t.addr).setWidth 32) .half

/-- LDRSB, sign-extended (rule R273). -/
def execLdrsb (c : Cond) (ix : Indexing) (up : Bool) (rn rd : Reg) (off : HalfOffset) (s : State) : Result :=
  conditionally c s fun s =>
    let t := hwAddress s ix up rn off
    loadTransfer s ix rn rd t ((s.read8 t.addr).signExtend 32) .byte

/-- LDRSH, sign-extended (rule R274). -/
def execLdrsh (c : Cond) (ix : Indexing) (up : Bool) (rn rd : Reg) (off : HalfOffset) (s : State) : Result :=
  conditionally c s fun s =>
    let t := hwAddress s ix up rn off
    loadTransfer s ix rn rd t ((s.read16 t.addr).signExtend 32) .half

/-- The reserved halfword store with S:H = 10: no access, no write, 1 cycle (rule R279). -/
def execStrResSb (c : Cond) (_ix : Indexing) (_up : Bool) (_rn _rd : Reg) (_off : HalfOffset) (s : State) : Result :=
  conditionally c s fun s => .next (s.finish 1 [] s)

/-- The reserved halfword store with S:H = 11: no access, no write, 1 cycle (rule R279). -/
def execStrResSh (c : Cond) (_ix : Indexing) (_up : Bool) (_rn _rd : Reg) (_off : HalfOffset) (s : State) : Result :=
  conditionally c s fun s => .next (s.finish 1 [] s)

end Sys2Proof.Machine
end

