-- ==== Sys2Proof/Machine/SoftwareInterrupt.lean ====
section
/-! DEFINITION. Software interrupt (48_swi.md): the call of the external handler when it is present (rules R351, R352), the
exception entry when it is absent (rule R353). -/

namespace Sys2Proof.Machine

/-- The general registers of a view, R0 to R14, set to what the handler left in them (rule R352). -/
def State.setView (s : State) (m : Mode) (v : Vector Word 15) : State :=
  (List.finRange 15).foldl (fun t i => t.setReg m i.castSucc v[i]) s

/-- The handler's effect on the core (rule R352; log 8): its stores through the bus in order, the registers of the view it was
called in, the SPSRs and the CPSR. -/
def State.applyHandler (s : State) (h : HandlerResult) : State :=
  let stored := h.stores.foldl (fun t x => t.write8 x.1 x.2) s
  { stored.setView s.mode h.regs with
    cpsr := h.cpsr
    spsrFiq := h.spsrFiq
    spsrIrq := h.spsrIrq
    spsrSvc := h.spsrSvc
    spsrAbt := h.spsrAbt
    spsrUnd := h.spsrUnd }

/-- `swi_handled` (rule R351): a negative count and an invalid mode are refused; else the pc advances by 4 without a refill,
and the cycle count is the handler's. -/
def swiHandled (s : State) (call : BitVec 8) : Result :=
  let h := Config.swiResult s.draws call
  if h.cycles < 0 then .refused .badHandlerCycles
  else if validPsr h.cpsr then
    .next { s.applyHandler h with pc := s.pc + 4#32, cycles := h.cycles.toNat }
  else .refused .invalidMode

/-- `swi_fallback` (rule R353): the SWI exception entry. -/
def swiFallback (s : State) : Result :=
  .next (s.finish s.params.cycSwi [] (s.enter .svc ExceptionKind.swi.vector (s.pc + 4#32)))

/-- The two paths (rule R354); the choice is the configuration's. -/
def softwareInterrupt (s : State) (call : BitVec 8) : Result :=
  if s.params.swiHandler then swiHandled s call else swiFallback s

/-- SWI (rule R354). -/
def execSwi (c : Cond) (call : BitVec 8) (s : State) : Result :=
  conditionally c s fun s => softwareInterrupt s call

/-- Bits 27:24 = 1100, taken as SWI (30_encoding.md rule R158). -/
def execSwiCpC (c : Cond) (call : BitVec 8) (s : State) : Result :=
  conditionally c s fun s => softwareInterrupt s call

/-- Bits 27:24 = 1101, taken as SWI (30_encoding.md rule R158). -/
def execSwiCpD (c : Cond) (call : BitVec 8) (s : State) : Result :=
  conditionally c s fun s => softwareInterrupt s call

/-- Bits 27:24 = 1110, taken as SWI (30_encoding.md rule R158). -/
def execSwiCpE (c : Cond) (call : BitVec 8) (s : State) : Result :=
  conditionally c s fun s => softwareInterrupt s call

end Sys2Proof.Machine
end

