-- ==== Sys2Proof/Machine/Swap.lean ====
section
/-! DEFINITION. Single data swap (46_swap.md): a read, then a write at the same address, then the register (rules R326 to
R328). -/

namespace Sys2Proof.Machine

/-- SWP (rule R327). -/
def execSwp (c : Cond) (rn rd rm : Reg) (s : State) : Result :=
  conditionally c s fun s =>
    let a := s.readR rn
    .next (s.finish s.params.cycSwp [⟨a, .word⟩, ⟨a, .word⟩]
      ((s.write32 a (s.readR rm)).writeR rd (s.read32 a)))

/-- SWPB (rule R328). -/
def execSwpb (c : Cond) (rn rd rm : Reg) (s : State) : Result :=
  conditionally c s fun s =>
    let a := s.readR rn
    .next (s.finish s.params.cycSwp [⟨a, .byte⟩, ⟨a, .byte⟩]
      ((s.write8 a ((s.readR rm).extractLsb' 0 8)).writeR rd ((s.read8 a).setWidth 32)))

end Sys2Proof.Machine
end

