-- ==== Sys2Proof/Machine/Dispatch.lean ====
section
/-! DEFINITION. The dispatch of an instruction to its meaning: one arm per constructor of `Instr`. -/

namespace Sys2Proof.Machine

def exec (i : Instr) (s : State) : Host.Outcome State Fault Refusal :=
  match i with
  | .and c sf rn rd op2 => Sys2Proof.Machine.execAnd c sf rn rd op2 s
  | .eor c sf rn rd op2 => Sys2Proof.Machine.execEor c sf rn rd op2 s
  | .sub c sf rn rd op2 => Sys2Proof.Machine.execSub c sf rn rd op2 s
  | .rsb c sf rn rd op2 => Sys2Proof.Machine.execRsb c sf rn rd op2 s
  | .add c sf rn rd op2 => Sys2Proof.Machine.execAdd c sf rn rd op2 s
  | .adc c sf rn rd op2 => Sys2Proof.Machine.execAdc c sf rn rd op2 s
  | .sbc c sf rn rd op2 => Sys2Proof.Machine.execSbc c sf rn rd op2 s
  | .rsc c sf rn rd op2 => Sys2Proof.Machine.execRsc c sf rn rd op2 s
  | .tst c rn op2 => Sys2Proof.Machine.execTst c rn op2 s
  | .teq c rn op2 => Sys2Proof.Machine.execTeq c rn op2 s
  | .cmp c rn op2 => Sys2Proof.Machine.execCmp c rn op2 s
  | .cmn c rn op2 => Sys2Proof.Machine.execCmn c rn op2 s
  | .orr c sf rn rd op2 => Sys2Proof.Machine.execOrr c sf rn rd op2 s
  | .mov c sf rd op2 => Sys2Proof.Machine.execMov c sf rd op2 s
  | .bic c sf rn rd op2 => Sys2Proof.Machine.execBic c sf rn rd op2 s
  | .mvn c sf rd op2 => Sys2Proof.Machine.execMvn c sf rd op2 s
  | .dpTestS0 c op rn op2 => Sys2Proof.Machine.execDpTestS0 c op rn op2 s
  | .mul c sf rd rm rs => Sys2Proof.Machine.execMul c sf rd rm rs s
  | .mla c sf rd rn rm rs => Sys2Proof.Machine.execMla c sf rd rn rm rs s
  | .umull c sf rdHi rdLo rm rs => Sys2Proof.Machine.execUmull c sf rdHi rdLo rm rs s
  | .umlal c sf rdHi rdLo rm rs => Sys2Proof.Machine.execUmlal c sf rdHi rdLo rm rs s
  | .smull c sf rdHi rdLo rm rs => Sys2Proof.Machine.execSmull c sf rdHi rdLo rm rs s
  | .smlal c sf rdHi rdLo rm rs => Sys2Proof.Machine.execSmlal c sf rdHi rdLo rm rs s
  | .str c ix up rn rd off => Sys2Proof.Machine.execStr c ix up rn rd off s
  | .ldr c ix up rn rd off => Sys2Proof.Machine.execLdr c ix up rn rd off s
  | .strb c ix up rn rd off => Sys2Proof.Machine.execStrb c ix up rn rd off s
  | .ldrb c ix up rn rd off => Sys2Proof.Machine.execLdrb c ix up rn rd off s
  | .strt c up rn rd off => Sys2Proof.Machine.execStrt c up rn rd off s
  | .ldrt c up rn rd off => Sys2Proof.Machine.execLdrt c up rn rd off s
  | .strbt c up rn rd off => Sys2Proof.Machine.execStrbt c up rn rd off s
  | .ldrbt c up rn rd off => Sys2Proof.Machine.execLdrbt c up rn rd off s
  | .strh c ix up rn rd off => Sys2Proof.Machine.execStrh c ix up rn rd off s
  | .ldrh c ix up rn rd off => Sys2Proof.Machine.execLdrh c ix up rn rd off s
  | .ldrsb c ix up rn rd off => Sys2Proof.Machine.execLdrsb c ix up rn rd off s
  | .ldrsh c ix up rn rd off => Sys2Proof.Machine.execLdrsh c ix up rn rd off s
  | .strResSb c ix up rn rd off => Sys2Proof.Machine.execStrResSb c ix up rn rd off s
  | .strResSh c ix up rn rd off => Sys2Proof.Machine.execStrResSh c ix up rn rd off s
  | .swp c rn rd rm => Sys2Proof.Machine.execSwp c rn rd rm s
  | .swpb c rn rd rm => Sys2Proof.Machine.execSwpb c rn rd rm s
  | .mrsCpsr c rd => Sys2Proof.Machine.execMrsCpsr c rd s
  | .mrsSpsr c rd => Sys2Proof.Machine.execMrsSpsr c rd s
  | .msrReg c psr mask rm => Sys2Proof.Machine.execMsrReg c psr mask rm s
  | .msrImm c psr mask rot imm8 => Sys2Proof.Machine.execMsrImm c psr mask rot imm8 s
  | .bx c rm => Sys2Proof.Machine.execBx c rm s
  | .stm c mode sb wb rn list => Sys2Proof.Machine.execStm c mode sb wb rn list s
  | .ldm c mode sb wb rn list => Sys2Proof.Machine.execLdm c mode sb wb rn list s
  | .b c offset24 => Sys2Proof.Machine.execB c offset24 s
  | .bl c offset24 => Sys2Proof.Machine.execBl c offset24 s
  | .swi c call => Sys2Proof.Machine.execSwi c call s
  | .swiCpC c call => Sys2Proof.Machine.execSwiCpC c call s
  | .swiCpD c call => Sys2Proof.Machine.execSwiCpD c call s
  | .swiCpE c call => Sys2Proof.Machine.execSwiCpE c call s

end Sys2Proof.Machine
end

