-- ==== Sys2Proof/Machine/Step.lean ====
section
/-! DEFINITION. One step of the core (40_execution_common.md rule R170), and the placing of an instruction where the next step
fetches. -/

namespace Sys2Proof.Machine

/-- One step (rule R170), the checks in the order of 60_exceptions.md rule R380: the Thumb refusal, the IRQ check, then
fetch, decode and execution, the condition being the instruction's own. A state whose CPSR holds no mode has no meaning
(10_state.md rule R33; log 10). -/
def step (s : State) : Host.Outcome State Fault Refusal :=
  if psrT s.cpsr then .refused .thumbState
  else if validPsr s.cpsr then
    if s.irqTaken then .next s.takeIrq.endStep
    else
      match decode s.fetch with
      | some i => endOutcome (exec i s.afterFetch)
      | none => .next s.undecodable.endStep
  else .refused .invalidMode

/-- The state with the instruction whose bits are `w` (numbered as spec/opcode_table.json numbers them, those above `nbits`
0) stored where the next step fetches, so that this step runs it (log 17). -/
def State.withFetchWord (s : State) (nbits w : Nat) : State :=
  s.readyToFetch.placeWord s.readyToFetch.pc (BitVec.ofNat 32 (w % 2 ^ nbits))

end Sys2Proof.Machine
end

