-- ==== Sys2Proof/Machine/HostOps.lean ====
section
/-! DEFINITION. What the host and the interrupt controller may do between steps (70_reset_and_hazards.md rules R400 to R411,
60_exceptions.md rules R365 to R367, R381). No step calls any of these (log 11). -/

namespace Sys2Proof.Machine

/-! ### Reset and launch -/

/-- `reset()` (rule R400): the register file, the status registers and the pending set take their reset values, the pc is
`RESET_PC`; the stores, the collaborators and the parameters are unchanged, and so is the sample of `IRQ_LINE` that awaits the
next step, an input (log 5). -/
def State.hostReset (s : State) : State :=
  { s with
    regs := .zero
    pc := s.params.resetPc
    cpsr := 0x000000D3#32
    spsrFiq := 0
    spsrIrq := 0
    spsrSvc := 0
    spsrAbt := 0
    spsrUnd := 0
    pending := 0
    refill := false
    cycles := 0 }

/-- The launch profile `POST_BOOT` (rule R405). `IRQ_LINE` at its first step is the sample that awaits the next step; from
`State.reset` that is a free value, as 60_exceptions.md rule R368 leaves it (log 5). -/
def State.postBoot (s : State) : State :=
  let r := { s.hostReset with cpsr := 0x0000001F#32, pc := 0x08000000#32 }
  ((r.setReg .usr 13 0x03007F00#32).setReg .irq 13 0x03007FA0#32).setReg .svc 13 0x03007FE0#32

/-! ### Accessors (10_state.md rule R37, rule R409) -/

/-- Reading a visible register. -/
def State.hostGetReg (s : State) (i : Reg) : Word := s.reg s.mode i

/-- Writing a visible register; R15 sets the pc as given. -/
def State.hostSetReg (s : State) (i : Reg) (v : Word) : State := s.setReg s.mode i v

/-- Writing the CPSR: not masked by privilege, refused for an invalid mode. -/
def State.hostSetCpsr (s : State) (v : Word) : Result :=
  if validPsr v then .next { s with cpsr := v } else .refused .invalidMode

/-- Reading the SPSR of a mode; 0 where it has none. -/
def State.hostGetSpsr (s : State) (m : Mode) : Word := s.spsrOf m

/-- Writing the SPSR of a mode; nothing where it has none. -/
def State.hostSetSpsr (s : State) (m : Mode) (v : Word) : State := s.setSpsr m v

/-! ### Snapshot (rule R408) -/

/-- A consistent snapshot: the registers, pc, CPSR, SPSRs, pending set and core-owned stores; the cartridge is not part of
it. -/
structure Snapshot where
  regs : RegFile
  pc : Word
  cpsr : Word
  spsrFiq : Word
  spsrIrq : Word
  spsrSvc : Word
  spsrAbt : Word
  spsrUnd : Word
  pending : BitVec 16
  mem : Memory
  deriving DecidableEq, Repr

/-- Taking a snapshot between steps. -/
def State.snapshot (s : State) : Snapshot :=
  ⟨s.regs, s.pc, s.cpsr, s.spsrFiq, s.spsrIrq, s.spsrSvc, s.spsrAbt, s.spsrUnd, s.pending, s.mem.coreOwned⟩

/-- Restoring a snapshot sets exactly its state: a cartridge ROM image stays as it is. -/
def State.restore (s : State) (x : Snapshot) : State :=
  { s with
    regs := x.regs
    pc := x.pc
    cpsr := x.cpsr
    spsrFiq := x.spsrFiq
    spsrIrq := x.spsrIrq
    spsrSvc := x.spsrSvc
    spsrAbt := x.spsrAbt
    spsrUnd := x.spsrUnd
    pending := x.pending
    mem := x.mem.coreOwned ++ s.mem.cartridge }

/-! ### Memory access by the host, DMA and peripherals (rule R410) -/

/-- A byte written through the bus, as the core's own write is. -/
def State.hostBusWrite (s : State) (a : Word) (b : Byte) : State := s.write8 a b

/-- A byte read through the bus, and the state after: what a cartridge answers is a draw of its own (log 6). -/
def State.hostBusRead (s : State) (a : Word) : Byte × State := (s.read8 a, { s with draws := s.draws + 1 })

/-- A byte written beside the bus: into a core-owned store, the BIOS included, or into the cartridge ROM image a launch
supplies; see `State.poke` for the bytes of IF (log 19). -/
def State.hostPoke (s : State) (a : Word) (b : Byte) : State := s.poke a b

/-- A byte read beside the bus: the byte of a core-owned store; none where the core owns no store. The bytes of IF are no
bytes of a store (log 19). -/
def State.hostPeek (s : State) (a : Word) : Option Byte :=
  let k := physOf s.params.regions a
  if isStored k && isCoreOwned k then some (s.storedByte k) else none

/-! ### The interrupt controller (60_exceptions.md rules R365 to R367, R381) -/

/-- The fourteen interrupt sources, in the order of their IF bits and ranks (60_exceptions.md rule R366). -/
inductive InterruptSource where
  | vblank | hblank | vcount | timer0 | timer1 | timer2 | timer3 | serial
  | dma0 | dma1 | dma2 | dma3 | keypad | gamePak
  deriving DecidableEq, Repr

/-- The IF bit of a source, which is also its rank: 0 is the highest priority. -/
def InterruptSource.bit : InterruptSource → Fin 14
  | .vblank => 0 | .hblank => 1 | .vcount => 2 | .timer0 => 3 | .timer1 => 4 | .timer2 => 5 | .timer3 => 6
  | .serial => 7 | .dma0 => 8 | .dma1 => 9 | .dma2 => 10 | .dma3 => 11 | .keypad => 12 | .gamePak => 13

/-- The sources in rank order. -/
def allSources : List InterruptSource :=
  [.vblank, .hblank, .vcount, .timer0, .timer1, .timer2, .timer3, .serial, .dma0, .dma1, .dma2, .dma3, .keypad, .gamePak]

/-- `requestInterrupt(source)`: requesting a pending source again changes nothing (rule R367). -/
def State.requestInterrupt (s : State) (k : InterruptSource) : State :=
  { s with pending := s.pending ||| (1#16 <<< k.bit.val) }

/-- `clearInterrupt(source)`. -/
def State.clearInterrupt (s : State) (k : InterruptSource) : State :=
  { s with pending := s.pending &&& ~~~(1#16 <<< k.bit.val) }

/-- `pendingInterrupt()`: the pending source of lowest rank (rule R381). -/
def State.pendingInterrupt (s : State) : Option InterruptSource :=
  allSources.find? fun k => s.pending.getLsbD k.bit.val

/-- The controller's line for the next step, when a controller drives it (rule R368). -/
def State.setIrqLine (s : State) (line : Bool) : State := { s with irqLine := line }

/-! ### A run (rules R406, R411) -/

/-- Where a run ended, and the cycles its steps returned. -/
structure RunEnd where
  state : State
  cycles : Nat
  stopped : Option Refusal
  deriving DecidableEq, Repr

/-- `run(s0, N)`: N steps, each adding its cycles, ending early at the first refusal (rule R411). -/
def run : Nat → State → RunEnd
  | 0, s => ⟨s, 0, none⟩
  | n + 1, s =>
    match step s with
    | .next t => { run n t with cycles := t.cycles + (run n t).cycles }
    | .fault f => nomatch f
    | .refused r => ⟨s, 0, some r⟩

end Sys2Proof.Machine
end

