-- ==== Sys2Proof/Safety.lean ====
section
/-! DEFINITION. What claims call a good state and a good run: the invariant every step keeps, and the runs that meet no
refusal; and the kinds of instruction that claims about the status registers name. -/

namespace Sys2Proof.Machine

/-- The invariant: the memory list is in canonical form, CPSR[4:0] is one of the seven modes (10_state.md rule R33), the pc is
even (10_state.md rule R40, 45_branch.md rule R316), and IF bits 15:14 are 0 (60_exceptions.md rule R366). -/
abbrev State.Inv (s : State) : Prop :=
  s.mem.wf = true ∧ validPsr s.cpsr = true ∧ s.pc.getLsbD 0 = false ∧ s.pending.extractLsb' 14 2 = 0#2

/-- A run of `n` steps that meets no refusal. -/
def SafeRun (n : Nat) (s : State) : Prop := (run n s).stopped = none

end Sys2Proof.Machine

namespace Sys2Proof.Cert

/-! ### Kinds of instruction -/

/-- The software interrupt and the coprocessor space. -/
def IsSwi (i : Instr) : Prop := ∃ c n, i = .swi c n ∨ i = .swiCpC c n ∨ i = .swiCpD c n ∨ i = .swiCpE c n

/-- An MSR that names the CPSR. -/
def IsMsrCpsr (i : Instr) : Prop :=
  (∃ c m rm, i = .msrReg c .cpsr m rm) ∨ (∃ c m rot b, i = .msrImm c .cpsr m rot b)

/-- An S-bit form that writes R15 and restores the CPSR (rules R180, R211, R296). -/
def IsRestore (i : Instr) : Prop :=
  (∃ c rn o, i = .and c true rn 15 o ∨ i = .eor c true rn 15 o ∨ i = .sub c true rn 15 o ∨ i = .rsb c true rn 15 o ∨
    i = .add c true rn 15 o ∨ i = .adc c true rn 15 o ∨ i = .sbc c true rn 15 o ∨ i = .rsc c true rn 15 o ∨
    i = .orr c true rn 15 o ∨ i = .bic c true rn 15 o ∨ i = .mov c true 15 o ∨ i = .mvn c true 15 o) ∨
  (∃ c m wb rn list, i = .ldm c m true wb rn list ∧ list.getLsbD 15 = true)

/-- A branch and exchange. -/
def IsBx (i : Instr) : Prop := ∃ c rm, i = .bx c rm

/-- The word and byte transfers. -/
def IsSingleTransfer (i : Instr) : Prop :=
  ∃ c ix up rn rd off, i = .str c ix up rn rd off ∨ i = .ldr c ix up rn rd off ∨ i = .strb c ix up rn rd off ∨
    i = .ldrb c ix up rn rd off ∨ i = .strt c up rn rd off ∨ i = .ldrt c up rn rd off ∨ i = .strbt c up rn rd off ∨
    i = .ldrbt c up rn rd off

end Sys2Proof.Cert
end

