-- ==== Sys2Proof/Certificates/Slice0/Obligations.lean ====
section
/-! DEFINITION. The statements about the model. Each is a closed proposition; its docstring names the rules of spec/ it
formalises or rests on. `Sys2Proof.Cert` holds the vocabulary the statements share. -/

namespace Sys2Proof.Cert

open Sys2Proof.Machine

/-! ### What is kept and what is written -/

/-- Every saved status register is as before. -/
def SpsrsKept (s t : State) : Prop := ∀ m, t.spsrOf m = s.spsrOf m

/-- Every physical general register is as before, but those named. -/
def RegsKept (s t : State) (written : List (Option PhysReg)) : Prop :=
  ∀ p, some p ∉ written → t.regs.get p = s.regs.get p

/-- Every byte of memory reads in `t` as in `s`; the stores, the pending set and the calls made to collaborators agree. That an
unlisted cartridge byte reads alike within one draw is the model's choice (DESIGN CHOICE, log 6). -/
def SameMemory (s t : State) : Prop :=
  (∀ a, t.read8 a = s.read8 a) ∧ t.mem = s.mem ∧ t.pending = s.pending ∧ t.calls = s.calls

/-- The parameters and the model's own fields are as before. -/
def EnvKept (s t : State) : Prop := t.params = s.params ∧ t.irqLine = s.irqLine ∧ t.draws = s.draws

/-- Everything but the general registers, the pc, the CPSR and the cycle count is as before. -/
def OthersKept (s t : State) : Prop := SpsrsKept s t ∧ SameMemory s t ∧ EnvKept s t

/-- Rd, and no other general register, gets a value; R15 gets it with bits 1:0 cleared, and else the pc advances by 4. -/
def Wrote (s t : State) (rd : Reg) (v : Word) : Prop :=
  RegsKept s t [view s.mode rd] ∧
    if rd = 15 then t.pc = v &&& 0xFFFFFFFC#32 else t.reg s.mode rd = v ∧ t.pc = s.pc + 4#32

/-- No general register is written, and the pc advances by 4. -/
def OnlyPc (s t : State) : Prop := RegsKept s t [] ∧ t.pc = s.pc + 4#32

/-- The four flags have these values, and the CPSR's other bits are as before. -/
def FlagsAre (s t : State) (n z c v : Bool) : Prop :=
  psrN t.cpsr = n ∧ psrZ t.cpsr = z ∧ psrC t.cpsr = c ∧ psrV t.cpsr = v ∧
    t.cpsr.extractLsb' 0 28 = s.cpsr.extractLsb' 0 28

/-- The cycle count: the base cost, 2 for a refill, and the bus cost of the fetch and the accesses (rule R420). -/
def Costs (s t : State) (base : Nat) (refill : Bool) (accesses : List Access) : Prop :=
  t.cycles = base + (if refill then 2 else 0) + busCost s.params (⟨s.pc, .word⟩ :: accesses)

/-! ### Data processing -/

/-- The six logical operations that write Rd, each with its function of the operands (rules R213, R214, R226 to R229). -/
def logicalForms (c : Cond) (sf : Bool) (rn rd : Reg) (o : Operand2) : List (Instr × (Word → Word → Word)) :=
  [(.and c sf rn rd o, fun a b => a &&& b), (.eor c sf rn rd o, fun a b => a ^^^ b),
   (.orr c sf rn rd o, fun a b => a ||| b), (.bic c sf rn rd o, fun a b => a &&& ~~~b),
   (.mov c sf rd o, fun _ b => b), (.mvn c sf rd o, fun _ b => ~~~b)]

/-- Result, carry and overflow of an addition with carry input (rule R190). -/
def AddSpec (a b : Word) (cin : Nat) (r : Word) (c v : Bool) : Prop :=
  r.toNat = (a.toNat + b.toNat + cin) % 2 ^ 32 ∧ (c = true ↔ 2 ^ 32 ≤ a.toNat + b.toNat + cin) ∧
    (v = true ↔ a.getLsbD 31 = b.getLsbD 31 ∧ r.getLsbD 31 ≠ a.getLsbD 31)

/-- Result, carry and overflow of a subtraction with borrow input (rule R191). -/
def SubSpec (a b : Word) (bin : Nat) (r : Word) (c v : Bool) : Prop :=
  (r.toNat : Int) = ((a.toNat : Int) - b.toNat - bin) % 2 ^ 32 ∧ (c = true ↔ b.toNat + bin ≤ a.toNat) ∧
    (v = true ↔ a.getLsbD 31 ≠ b.getLsbD 31 ∧ r.getLsbD 31 ≠ a.getLsbD 31)

/-- The subtractions that write Rd, each with minuend, subtrahend and borrow input (rule R191). -/
def subtractForms (s : State) (c : Cond) (sf : Bool) (rn rd : Reg) (o : Operand2) : List (Instr × Word × Word × Nat) :=
  let d := dpOperands s rn o
  let bin := 1 - (psrC s.cpsr).toNat
  [(.sub c sf rn rd o, d.op1, d.op2, 0), (.rsb c sf rn rd o, d.op2, d.op1, 0),
   (.sbc c sf rn rd o, d.op1, d.op2, bin), (.rsc c sf rn rd o, d.op2, d.op1, bin)]

/-- The additions that write Rd, each with its carry input (rule R190). -/
def addForms (s : State) (c : Cond) (sf : Bool) (rn rd : Reg) (o : Operand2) : List (Instr × Nat) :=
  [(.add c sf rn rd o, 0), (.adc c sf rn rd o, (psrC s.cpsr).toNat)]

/-- The base cost of a data-processing instruction (rule R230). -/
def dpCycles (s : State) (o : Operand2) : Nat := s.params.cycDp + if isRegShift o then 1 else 0

/-- The twelve operations that write Rd, each with its result as a word. -/
def writingForms (s : State) (c : Cond) (sf : Bool) (rn rd : Reg) (o : Operand2) : List (Instr × Word) :=
  let d := dpOperands s rn o
  let cy : Word := if psrC s.cpsr then 1#32 else 0#32
  (logicalForms c sf rn rd o).map (fun x => (x.1, x.2 d.op1 d.op2)) ++
  [(.add c sf rn rd o, d.op1 + d.op2), (.adc c sf rn rd o, d.op1 + d.op2 + cy),
   (.sub c sf rn rd o, d.op1 - d.op2), (.rsb c sf rn rd o, d.op2 - d.op1),
   (.sbc c sf rn rd o, d.op1 - d.op2 - (1#32 - cy)), (.rsc c sf rn rd o, d.op2 - d.op1 - (1#32 - cy))]

/-- An S = 1 data-processing instruction with Rd = 15 in a mode that owns an SPSR (rule R211). -/
def Returns (s : State) (sf : Bool) (rd : Reg) : Prop := sf = true ∧ rd = 15 ∧ s.mode.hasSpsr = true

/-- What a test operation leaves: the four flags, and nothing else but the pc and the cycle count. -/
def TestLeaves (s t : State) (o : Operand2) (n z c v : Bool) : Prop :=
  FlagsAre s t n z c v ∧ OnlyPc s t ∧ OthersKept s t ∧ Costs s t (dpCycles s o) false []

/-! ### Status registers and software interrupts -/

/-- A software interrupt with this call number. -/
def IsSwiOf (i : Instr) (n : BitVec 8) : Prop :=
  ∃ c, i = .swi c n ∨ i = .swiCpC c n ∨ i = .swiCpD c n ∨ i = .swiCpE c n

/-- An MSR to the CPSR with this field mask and this operand value. -/
def IsMsrCpsrOf (s : State) (i : Instr) (mask : BitVec 4) (v : Word) : Prop :=
  (∃ c rm, i = .msrReg c .cpsr mask rm ∧ v = s.readR rm) ∨
    (∃ c rot b, i = .msrImm c .cpsr mask rot b ∧ v = rotatedValue rot b)

/-- The CPSR an MSR would leave: the selected bytes of the operand, in User mode only bits 31:24 (rules R338, R341). -/
def MsrMerges (s : State) (mask : BitVec 4) (v new : Word) : Prop :=
  ∀ k, k < 32 → new.getLsbD k =
    if mask.getLsbD (k / 8) = true ∧ (s.mode = .usr → 24 ≤ k) then v.getLsbD k else s.cpsr.getLsbD k

/-! ### Single transfers -/

/-- Whether a transfer writes its base back (rule R261). -/
def WritesBack (ix : Indexing) (rn rd : Reg) : Prop := ix = .post ∨ (ix = .preWriteback ∧ rn ≠ rd)

/-- A load form: its indexing, its address, the value it loads and the width of the access. -/
structure LoadForm where
  instr : Instr
  ix : Indexing
  at' : TransferAddr
  value : Word
  width : Width

/-- The seven load instructions (rules R263, R265, R267, R271, R273, R274). -/
def loadForms (s : State) (c : Cond) (ix : Indexing) (up : Bool) (rn rd : Reg) (off : Offset) (hoff : HalfOffset) :
    List LoadForm :=
  let a := sdtAddress s ix up rn off
  let p := sdtAddress s .post up rn off
  let h := hwAddress s ix up rn hoff
  [⟨.ldr c ix up rn rd off, ix, a, s.read32 a.addr, .word⟩,
   ⟨.ldrb c ix up rn rd off, ix, a, (s.read8 a.addr).setWidth 32, .byte⟩,
   ⟨.ldrt c up rn rd off, .post, p, s.read32 p.addr, .word⟩,
   ⟨.ldrbt c up rn rd off, .post, p, (s.read8 p.addr).setWidth 32, .byte⟩,
   ⟨.ldrh c ix up rn rd hoff, ix, h, (s.read16 h.addr).setWidth 32, .half⟩,
   ⟨.ldrsb c ix up rn rd hoff, ix, h, (s.read8 h.addr).signExtend 32, .byte⟩,
   ⟨.ldrsh c ix up rn rd hoff, ix, h, (s.read16 h.addr).signExtend 32, .half⟩]

/-- A store form: its indexing, its address, the state after its bus write, the addresses of the bytes it stores, and the
width of the access. -/
structure StoreForm where
  instr : Instr
  ix : Indexing
  at' : TransferAddr
  after : State
  bytes : List Word
  width : Width

/-- The addresses of the bytes of a word access (rule R100). -/
def wordBytes (a : Word) : List Word := [alignWord a, alignWord a + 1, alignWord a + 2, alignWord a + 3]

/-- The addresses of the bytes of a halfword access (rule R100). -/
def halfBytes (a : Word) : List Word := [alignHalf a, alignHalf a + 1]

/-- The five store instructions (rules R264, R266, R267, R272); R15 stores A + 12. -/
def storeForms (s : State) (c : Cond) (ix : Indexing) (up : Bool) (rn rd : Reg) (off : Offset) (hoff : HalfOffset) :
    List StoreForm :=
  let a := sdtAddress s ix up rn off
  let p := sdtAddress s .post up rn off
  let h := hwAddress s ix up rn hoff
  let v := if rd = 15 then s.pc + 12#32 else s.reg s.mode rd
  [⟨.str c ix up rn rd off, ix, a, s.write32 a.addr v, wordBytes a.addr, .word⟩,
   ⟨.strb c ix up rn rd off, ix, a, s.write8 a.addr (v.extractLsb' 0 8), [a.addr], .byte⟩,
   ⟨.strt c up rn rd off, .post, p, s.write32 p.addr v, wordBytes p.addr, .word⟩,
   ⟨.strbt c up rn rd off, .post, p, s.write8 p.addr (v.extractLsb' 0 8), [p.addr], .byte⟩,
   ⟨.strh c ix up rn rd hoff, ix, h, s.write16 h.addr (v.extractLsb' 0 16), halfBytes h.addr, .half⟩]

/-- Every byte at an address outside these reads as before; for an unlisted cartridge byte, within one draw, that is the
model's choice (DESIGN CHOICE, log 6). -/
def BytesKeptOutside (s t : State) (bytes : List Word) : Prop :=
  ∀ a, (∀ b ∈ bytes, physOf s.params.regions b ≠ physOf s.params.regions a) → t.read8 a = s.read8 a

/-! ### Block transfers -/

/-- The address of listed register i: the start plus 4 for every listed register below it (rule R290). -/
def slot (start : Word) (list : BitVec 16) (i : Reg) : Word :=
  start + BitVec.ofNat 32 (4 * ((listedRegs list).filter (· < i)).length)

/-- The value an STM stores for register i (rule R295). -/
def stmValue (s : State) (sb : Bool) (i : Reg) : Word :=
  if i = 15 then s.pc + 12#32 else if sb then s.reg .usr i else s.reg s.mode i

end Sys2Proof.Cert

open Sys2Proof Sys2Proof.Machine Sys2Proof.Cert

/-! ### Decoding -/

/-- Every well-formed instruction is read back from its own word (rules R132 to R145, R153, R154). -/
def Obligations.DecodeEncodeRoundTrip : Prop :=
  ∀ i : Instr, i.wf = true → decode (encode i) = some i

/-- Every word is an instruction, well-formed, and its condition is bits 31:28 (rules R131, R155). -/
def Obligations.EveryWordDecodes : Prop :=
  ∀ w : Word, ∃ i, decode w = some i ∧ i.wf = true ∧ i.cond.bits = w.extractLsb' 28 4

/-- One word of each family, written out in the spec's examples, is the instruction it stands for (R213 to R354). -/
def Obligations.SpecWordsDecode : Prop :=
  decode 0xE21100FF#32 = some (.and .al true 1 0 (.imm 0 0xFF)) ∧
  decode 0xE0234291#32 = some (.mla .al false 3 4 1 2) ∧
  decode 0xE0F10293#32 = some (.smlal .al true 1 0 3 2) ∧
  decode 0xE5B10004#32 = some (.ldr .al .preWriteback true 1 0 (.imm 4)) ∧
  decode 0xE1E102B4#32 = some (.strh .al .preWriteback true 1 0 (.imm 0x24)) ∧
  decode 0xE92D4003#32 = some (.stm .al .db false true 13 0x4003) ∧
  decode 0x1AFFFFFA#32 = some (.b .ne 0xFFFFFA) ∧
  decode 0xE12FFF1E#32 = some (.bx .al 14) ∧
  decode 0xE1420091#32 = some (.swpb .al 2 0 1) ∧
  decode 0xE328F4F0#32 = some (.msrImm .al .cpsr 0b1000 4 0xF0) ∧
  decode 0xEF050000#32 = some (.swi .al 5)

/-- Category 01 is single data transfer, and bit 4 of its register form is ignored (rule R157). -/
def Obligations.CategoryOneIsSingleTransfer : Prop :=
  ∀ w : Word, field w 26 2 = 0b01#2 →
    (∃ i, decode w = some i ∧ IsSingleTransfer i) ∧
    (w.getLsbD 25 = true → decode (w ^^^ 0x10#32) = decode w)

/-- Category 11 is the software interrupt unit, with the call number in bits 23:16 (rule R158). -/
def Obligations.CategoryThreeIsSoftwareInterrupt : Prop :=
  ∀ w : Word, field w 26 2 = 0b11#2 →
    ∃ i, decode w = some i ∧ IsSwi i ∧
      ∀ s, exec i s = exec (.swi (Cond.ofBits (field w 28 4)) (field w 16 8)) s

/-! ### The step -/

/-- A step that is neither refused nor an IRQ runs the instruction its word decodes to (rules R170, R171). Around it the model
adds only the numbering of its free values and the next sample of the IRQ line (log 5, log 6). -/
def Obligations.StepRunsDecoded : Prop :=
  ∀ s i, psrT s.cpsr = false → validPsr s.cpsr = true → (s.irqLine = false ∨ psrI s.cpsr = true) →
    decode (s.read32 s.pc) = some i →
    let u := { s with draws := s.draws + 1 }
    (∀ t, exec i u = .next t →
      step s = .next { t with draws := t.draws + 1, irqLine := Config.irqLine (t.draws + 1) }) ∧
    (∀ r, exec i u = .refused r → step s = .refused r)

/-- A step in Thumb state is refused (rule R172). -/
def Obligations.ThumbStateRefused : Prop :=
  ∀ s : State, psrT s.cpsr = true → step s = .refused .thumbState

/-- The condition table (rule R174). -/
def Obligations.ConditionTable : Prop :=
  ∀ p : Word, ∀ code : BitVec 4,
    let n := psrN p
    let z := psrZ p
    let c := psrC p
    let v := psrV p
    condPassed (Cond.ofBits code) p =
      ([z, !z, c, !c, n, !n, v, !v, c && !z, !c || z, n == v, n != v, !z && (n == v), z || (n != v), true, true]).getD
        code.toNat false

/-- An instruction whose condition fails does nothing but advance the pc, in 1 cycle and the cost of its fetch (rule R175). -/
def Obligations.FailedConditionIsNoOp : Prop :=
  ∀ i s, condPassed i.cond s.cpsr = false →
    exec i s = .next { s with
      pc := s.pc + 4#32, cycles := 1 + busCost s.params [⟨s.pc, .word⟩], refill := false }

/-- The only refusals of an instruction, and when (rules R33, R180, R340, R351, R364). That a handler which leaves an illegal
mode in the CPSR is refused is the model's reading of rule R33 (DEDUCED, log 8); rule R364 names only an MSR and an SPSR
restore. -/
def Obligations.OnlySpecRefusals : Prop :=
  ∀ i s r, exec i s = .refused r → condPassed i.cond s.cpsr = true ∧
    ((r = .badHandlerCycles ∧ s.params.swiHandler = true ∧
        ∃ n, IsSwiOf i n ∧ (Config.swiResult s.draws n).cycles < 0) ∨
     (r = .invalidMode ∧
      ((s.params.swiHandler = true ∧
          ∃ n, IsSwiOf i n ∧ 0 ≤ (Config.swiResult s.draws n).cycles ∧ validPsr (Config.swiResult s.draws n).cpsr = false) ∨
       (∃ mask v, IsMsrCpsrOf s i mask v ∧ ∃ new : Word, MsrMerges s mask v new ∧ validPsr new = false) ∨
       (IsRestore i ∧ s.mode.hasSpsr = true ∧ validPsr (s.spsrOf s.mode) = false))))

/-! ### Invariants and whole-machine rules -/

/-- The invariant holds at reset. -/
def Obligations.ResetMeetsInvariant : Prop := State.reset.Inv

/-- Every step keeps the invariant: memory in canonical form, a legal mode, an even pc, IF bits 15:14 zero (R33, R40, R366). -/
def Obligations.StepKeepsInvariant : Prop := ∀ s t : State, s.Inv → step s = .next t → t.Inv

/-- User mode: no step but a software interrupt or an IRQ changes CPSR bits 23:6 or 4:0 or an SPSR (rules R48, R383). -/
def Obligations.UserModeKeepsControlBits : Prop :=
  ∀ s t : State, s.mode? = some .usr → step s = .next t →
    (psrI s.cpsr = false ∧ s.irqLine = true) ∨ (∃ i, decode (s.read32 s.pc) = some i ∧ IsSwi i) ∨
    (t.cpsr.extractLsb' 6 18 = s.cpsr.extractLsb' 6 18 ∧ t.cpsr.extractLsb' 0 5 = s.cpsr.extractLsb' 0 5 ∧
      SpsrsKept s t)

/-- Thumb state is entered only by BX, a privileged MSR to the CPSR, an SPSR restore, or a system-call handler (R45, R319). -/
def Obligations.ThumbEntryOnlyByFour : Prop :=
  ∀ s t : State, step s = .next t → psrT t.cpsr = true →
    ∃ i, decode (s.read32 s.pc) = some i ∧
      (IsBx i ∨ (IsMsrCpsr i ∧ s.mode ≠ .usr) ∨ (IsRestore i ∧ psrT (s.spsrOf s.mode) = true) ∨
        (IsSwi i ∧ s.params.swiHandler = true))

/-- No step changes a BIOS byte, a byte of a cartridge ROM image, or a parameter (rules R7, R87, R93). That the listed bytes
of a cartridge are such a read-only image is the model's choice (DESIGN CHOICE, log 6: one option of rule R93; rule R92 leaves
the effect of a cartridge write to the collaborator), and so is a state that carries the parameters (DESIGN CHOICE, log 2). -/
def Obligations.StepKeepsReadOnly : Prop :=
  ∀ s t : State, step s = .next t →
    (∀ a, regionOf s.params.regions a = .bios → t.read8 a = s.read8 a) ∧
    (∀ k, isCoreOwned k = false → t.mem.lookup k = s.mem.lookup k) ∧ t.params = s.params

/-! ### Reset -/

/-- The registers after reset (rules R52 to R55). -/
def Obligations.ResetRegisters : Prop :=
  (∀ p, State.reset.regs.get p = 0x00000000#32) ∧ State.reset.cpsr = 0x000000D3#32 ∧
    (∀ m, State.reset.spsrOf m = 0x00000000#32) ∧ State.reset.pc = State.reset.params.resetPc

/-- The host's reset, from any state (rule R400). -/
def Obligations.HostResetKeepsMemory : Prop :=
  ∀ s : State,
    (∀ p, s.hostReset.regs.get p = 0x00000000#32) ∧ s.hostReset.cpsr = 0x000000D3#32 ∧
    (∀ m, s.hostReset.spsrOf m = 0x00000000#32) ∧ s.hostReset.pc = s.params.resetPc ∧ s.hostReset.pending = 0#16 ∧
    s.hostReset.mem = s.mem ∧ s.hostReset.calls = s.calls ∧ s.hostReset.params = s.params

/-! ### Registers -/

/-- The visible register view (rule R34), and that R[i] reads and writes it. -/
def Obligations.ViewTable : Prop :=
  (∀ (m : Mode) (i : Fin 8), view m ⟨i.val, by omega⟩ = some (.low i)) ∧
  (∀ (m : Mode) (i : Fin 5), view m ⟨8 + i.val, by omega⟩ =
    some (if m = .fiq then .fiq ⟨i.val, by omega⟩ else .usr ⟨i.val, by omega⟩)) ∧
  (∀ i : Fin 2,
    view .usr ⟨13 + i.val, by omega⟩ = some (.usr ⟨5 + i.val, by omega⟩) ∧
    view .sys ⟨13 + i.val, by omega⟩ = some (.usr ⟨5 + i.val, by omega⟩) ∧
    view .fiq ⟨13 + i.val, by omega⟩ = some (.fiq ⟨5 + i.val, by omega⟩) ∧
    view .irq ⟨13 + i.val, by omega⟩ = some (.irq i) ∧ view .svc ⟨13 + i.val, by omega⟩ = some (.svc i) ∧
    view .abt ⟨13 + i.val, by omega⟩ = some (.abt i) ∧ view .und ⟨13 + i.val, by omega⟩ = some (.und i)) ∧
  (∀ m : Mode, view m 15 = none) ∧
  (∀ (s : State) (m : Mode) (i : Reg) (p : PhysReg) (v : Word), s.mode? = some m → view m i = some p →
    s.readR i = s.regs.get p ∧ s.writeR i v = { s with regs := s.regs.set p v })

/-- Banks are independent storage: a write of one register is read back and changes no other (rule R35). -/
def Obligations.BanksAreIndependent : Prop :=
  ∀ (s : State) (m : Mode) (i : Reg) (p : PhysReg) (v : Word), view m i = some p →
    (s.setReg m i v).regs.get p = v ∧ ∀ q, q ≠ p → (s.setReg m i v).regs.get q = s.regs.get q

/-- R15 as an operand and as a destination, and the operands of data processing in their three forms (rules R177, R178, R181,
R188, R210): Rn, Rm and Rs read A + 12 in the register-shift form and A + 8 in the others. -/
def Obligations.PcOperandAndDestination : Prop :=
  ∀ s : State, (∀ v : Word, s.writeR 15 v = { s with pc := v &&& 0xFFFFFFFC#32, refill := true }) ∧
    s.readR 15 = s.pc + 8#32 ∧ s.readR 15 true = s.pc + 12#32 ∧
    (let r := fun i : Reg => if i = 15 then s.pc + 12#32 else s.reg s.mode i
     ∀ rn rm rs ty,
       let d := dpOperands s rn (.shiftReg rm ty rs)
       let x := shifter s.params.archShiftZero false (r rm) ty ((r rs).toNat % 256) (psrC s.cpsr)
       d.op1 = r rn ∧ d.op2 = x.value ∧ d.sc = x.carry) ∧
    (let r := fun i : Reg => if i = 15 then s.pc + 8#32 else s.reg s.mode i
     (∀ rn rm ty (n : BitVec 5),
       let d := dpOperands s rn (.shiftImm rm ty n)
       let x := shifter s.params.archShiftZero true (r rm) ty n.toNat (psrC s.cpsr)
       d.op1 = r rn ∧ d.op2 = x.value ∧ d.sc = x.carry) ∧
     ∀ rn rot b,
       let d := dpOperands s rn (.imm rot b)
       d.op1 = r rn ∧ d.op2 = rotatedValue rot b ∧
         d.sc = (if rot = 0 then psrC s.cpsr else (rotatedValue rot b).getLsbD 31))

/-! ### Memory -/

/-- The region map. The default table's regions, offsets and cost classes are rule R84's. The clauses for every table rest on
the model's form of a table (DESIGN CHOICE, log 3): rows of selectors of which the first that covers a selector decides, a size
in words, and an address no row covers unmapped and fast; rules R82 and R83 say only that the selector picks the region and
that the offset is modulo its size. -/
def Obligations.RegionMap : Prop :=
  (∀ a, regionOf [] a = .unmapped ∧ isSlow [] a = false) ∧
  (∀ (r : RegionRow) (m : Sys2Proof.RegionMap) (a : Word),
    let sel := (a.extractLsb' 24 8).toNat
    if r.first ≤ sel ∧ sel ≤ r.last then
      regionOf (r :: m) a = r.region ∧ offsetOf (r :: m) a = (a.toNat - r.first * 2 ^ 24) % (4 * r.words) ∧
        isSlow (r :: m) a = r.slow
    else
      regionOf (r :: m) a = regionOf m a ∧ offsetOf (r :: m) a = offsetOf m a ∧ isSlow (r :: m) a = isSlow m a) ∧
  (∀ a : Word,
    let sel := (a.extractLsb' 24 8).toNat
    let m := Sys2Proof.RegionMap.default
    regionOf m a = (if sel < 16 then
        ([.bios, .unmapped, .ewram, .iwram, .io, .pal, .vram, .oam, .cartRom, .cartRom, .cartRom, .cartRom, .cartRom,
          .cartRom, .cartSram, .cartSram] : List Region).getD sel .unmapped
      else .unmapped) ∧
    isSlow m a = (sel == 2 || (8 ≤ sel && sel ≤ 15)) ∧
    (regionOf m a ≠ .unmapped → offsetOf m a = match regionOf m a with
      | .bios => (a.extractLsb' 0 24).toNat % 0x4000
      | .ewram => (a.extractLsb' 0 24).toNat % 0x40000
      | .iwram => (a.extractLsb' 0 24).toNat % 0x8000
      | .io | .pal | .oam => (a.extractLsb' 0 24).toNat % 0x400
      | .vram => (a.extractLsb' 0 24).toNat % 0x18000
      | .cartRom => (a.extractLsb' 0 25).toNat
      | .cartSram => (a.extractLsb' 0 16).toNat
      | .unmapped => 0))

/-- Two addresses of one region with the same offset alias one byte (rule R83), for every region table. -/
def Obligations.MirrorsAlias : Prop :=
  (∀ (m : Sys2Proof.RegionMap) (a : Word) (r : RegionRow), rowOf m a = some r →
    offsetOf m a = (a.toNat - r.first * 2 ^ 24) % (4 * r.words)) ∧
  ∀ (s : State) (a b : Word) (v : Byte),
    regionOf s.params.regions a = regionOf s.params.regions b →
    offsetOf s.params.regions a = offsetOf s.params.regions b →
    s.read8 a = s.read8 b ∧ s.write8 a v = s.write8 b v

/-- Unmapped addresses read as ones and drop writes (rule R85). -/
def Obligations.UnmappedAccess : Prop :=
  ∀ (s : State) (a : Word), regionOf s.params.regions a = .unmapped →
    s.read8 a = 0xFF#8 ∧ s.read16 a = 0xFFFF#16 ∧ s.read32 a = 0xFFFFFFFF#32 ∧
    (∀ v, s.write8 a v = s) ∧ (∀ v, s.write16 a v = s) ∧ (∀ v, s.write32 a v = s)

/-- A byte store in EWRAM, IWRAM, PAL, VRAM or OAM, or at a generic IO offset, is read back, and changes nothing else
(rules R88, R89). That an unlisted cartridge byte reads as before within one draw is the model's choice (DESIGN CHOICE,
log 6). -/
def Obligations.PlainByteStore : Prop :=
  ∀ (s : State) (a : Word) (v : Byte), s.mem.wf = true →
    (regionOf s.params.regions a ∈ [Region.ewram, .iwram, .pal, .vram, .oam] ∨
      (regionOf s.params.regions a = .io ∧
        (offsetOf s.params.regions a < 0x0B0 ∨ 0x0DF < offsetOf s.params.regions a) ∧
        offsetOf s.params.regions a ≠ 0x202 ∧ offsetOf s.params.regions a ≠ 0x203)) →
    s.read8 a = s.storedByte (physOf s.params.regions a) ∧ (s.write8 a v).read8 a = v ∧
    (∀ b, physOf s.params.regions b ≠ physOf s.params.regions a → (s.write8 a v).read8 b = s.read8 b) ∧
    s.write8 a v = { s with mem := (s.write8 a v).mem }

/-- A byte write in a DMA window is forwarded and stores nothing; a byte read returns the store (rule R95). That the forwarded
writes are kept as a list is the model's choice (DESIGN CHOICE, log 7). -/
def Obligations.DmaWindowForwards : Prop :=
  ∀ (s : State) (a : Word) (v : Byte),
    let o := offsetOf s.params.regions a
    regionOf s.params.regions a = .io → 0x0B0 ≤ o → o ≤ 0x0DF →
      s.write8 a v = { s with calls := s.calls ++ [.dmaWrite o v] } ∧
      (s.write8 a v).read8 a = s.read8 a ∧ s.read8 a = s.storedByte (physOf s.params.regions a)

/-- The interrupt-acknowledge field (rule R97), the IF bit of each interrupt source (rules R366, R367), and that the pending
source of lowest rank is reported (rules R365, R381). -/
def Obligations.InterruptAcknowledge : Prop :=
  ∀ (s : State) (a : Word),
    (regionOf s.params.regions (a &&& 0xFFFFFFFE#32) = .io → offsetOf s.params.regions (a &&& 0xFFFFFFFE#32) = 0x202 →
      s.read16 a = s.pending ∧ ∀ v : Half, s.write16 a v = { s with pending := s.pending &&& ~~~v }) ∧
    (regionOf s.params.regions a = .io → offsetOf s.params.regions a = 0x202 →
      s.read8 a = s.pending.extractLsb' 0 8 ∧
      ∀ v : Byte, s.write8 a v = { s with pending := s.pending &&& ~~~(v.setWidth 16) }) ∧
    (regionOf s.params.regions a = .io → offsetOf s.params.regions a = 0x203 →
      s.read8 a = s.pending.extractLsb' 8 8 ∧
      ∀ v : Byte, s.write8 a v = { s with pending := s.pending &&& ~~~(v.setWidth 16 <<< 8) }) ∧
    (∀ x ∈ [(InterruptSource.vblank, 0), (.hblank, 1), (.vcount, 2), (.timer0, 3), (.timer1, 4), (.timer2, 5), (.timer3, 6),
        (.serial, 7), (.dma0, 8), (.dma1, 9), (.dma2, 10), (.dma3, 11), (.keypad, 12), (.gamePak, 13)],
      (s.requestInterrupt x.1).pending = s.pending ||| 1#16 <<< x.2 ∧
      (s.clearInterrupt x.1).pending = s.pending &&& ~~~(1#16 <<< x.2)) ∧
    (∀ k : InterruptSource, s.pendingInterrupt = some k ↔
      s.pending.getLsbD k.bit.val = true ∧ ∀ j : InterruptSource, j.bit < k.bit → s.pending.getLsbD j.bit.val = false)

/-- Wide accesses are built from bytes in ascending order, little-endian, after aligning down (rule R100). -/
def Obligations.WideAccessIsBytes : Prop :=
  ∀ (s : State) (a : Word),
    let h := a &&& 0xFFFFFFFE#32
    let b := a &&& 0xFFFFFFFC#32
    s.read16 a = (if regionOf s.params.regions h = .io ∧ offsetOf s.params.regions h = 0x202 then s.pending
      else (s.read8 h).setWidth 16 ||| (s.read8 (h + 1)).setWidth 16 <<< 8) ∧
    s.read32 a = (s.read8 b).setWidth 32 ||| (s.read8 (b + 1)).setWidth 32 <<< 8 |||
      (s.read8 (b + 2)).setWidth 32 <<< 16 ||| (s.read8 (b + 3)).setWidth 32 <<< 24 ∧
    (∀ v : Half, s.write16 a v = (if regionOf s.params.regions h = .io ∧ offsetOf s.params.regions h = 0x202 then { s with pending := s.pending &&& ~~~v }
      else (s.write8 h (v.extractLsb' 0 8)).write8 (h + 1) (v.extractLsb' 8 8))) ∧
    (∀ v : Word, s.write32 a v = (((s.write8 b (v.extractLsb' 0 8)).write8 (b + 1) (v.extractLsb' 8 8)).write8 (b + 2)
      (v.extractLsb' 16 8)).write8 (b + 3) (v.extractLsb' 24 8))

/-- After a word store in a plain region, every narrower and equal read sees its bytes (rule R102). -/
def Obligations.MixedWidthReads : Prop :=
  ∀ (s : State) (a v : Word), s.mem.wf = true → regionOf s.params.regions a ∈ [Region.ewram, .iwram, .pal, .vram, .oam] →
    let t := s.write32 a v
    let b := a &&& 0xFFFFFFFC#32
    t.read32 a = v ∧ t.read16 b = v.extractLsb' 0 16 ∧ t.read16 (b + 2) = v.extractLsb' 16 16 ∧
    t.read8 b = v.extractLsb' 0 8 ∧ t.read8 (b + 1) = v.extractLsb' 8 8 ∧
    t.read8 (b + 2) = v.extractLsb' 16 8 ∧ t.read8 (b + 3) = v.extractLsb' 24 8

/-! ### Exceptions -/

/-- The exception entry primitive (rule R372). -/
def Obligations.ExceptionEntry : Prop :=
  ∀ (s : State) (m : Mode) (vector link : Word), m.hasSpsr = true →
    let t := s.enter m vector link
    t.spsrOf m = s.cpsr ∧ (∀ n, n ≠ m → t.spsrOf n = s.spsrOf n) ∧
    t.cpsr.extractLsb' 0 5 = m.bits ∧ psrT t.cpsr = false ∧ psrI t.cpsr = true ∧ psrF t.cpsr = psrF s.cpsr ∧
    t.cpsr.extractLsb' 8 24 = s.cpsr.extractLsb' 8 24 ∧
    t.reg m 14 = link ∧ RegsKept s t [view m 14] ∧ t.pc = vector ∧ t.refill = true ∧ SameMemory s t ∧ EnvKept s t

/-- Taking an IRQ, and ignoring the line while it is masked (rules R368, R369). In the masked clause the next state carries
the numbering of the model's free values and the next sample of the line, which are the model's (DESIGN CHOICE, log 5,
log 6). -/
def Obligations.IrqIsTaken : Prop :=
  ∀ s : State, psrT s.cpsr = false → validPsr s.cpsr = true → s.irqLine = true →
    (psrI s.cpsr = false → ∃ t, step s = .next t ∧
      t.spsrIrq = s.cpsr ∧ t.cpsr.extractLsb' 0 5 = 0b10010#5 ∧ psrT t.cpsr = false ∧ psrI t.cpsr = true ∧
      psrF t.cpsr = psrF s.cpsr ∧ t.cpsr.extractLsb' 8 24 = s.cpsr.extractLsb' 8 24 ∧
      t.reg .irq 14 = s.pc + 4#32 ∧ t.pc = 0x00000018#32 ∧ t.cycles = s.params.cycIrq + 2 ∧
      RegsKept s t [view .irq 14] ∧ (∀ n, n ≠ .irq → t.spsrOf n = s.spsrOf n) ∧
      t.mem = s.mem ∧ t.pending = s.pending ∧ t.calls = s.calls) ∧
    (psrI s.cpsr = true → ∀ i t, decode (s.read32 s.pc) = some i → exec i { s with draws := s.draws + 1 } = .next t →
      step s = .next { t with draws := t.draws + 1, irqLine := Config.irqLine (t.draws + 1) })

/-- SUBS PC, LR, #4 undoes an IRQ entry, and MOVS PC, LR a software interrupt taken by the exception entry (rules R353, R356,
R376, R379). -/
def Obligations.ExceptionReturnRoundTrip : Prop :=
  (decode 0xE25EF004#32 = some (.sub .al true 14 15 (.imm 0 4)) ∧
    ∀ s : State, validPsr s.cpsr = true →
      ∃ u, exec (.sub .al true 14 15 (.imm 0 4)) s.takeIrq = .next u ∧
        u.pc = s.pc &&& 0xFFFFFFFC#32 ∧ u.cpsr = s.cpsr ∧ RegsKept s u [view .irq 14] ∧ SameMemory s u) ∧
  (decode 0xE1B0F00E#32 = some (.mov .al true 15 (.shiftImm 14 .lsl 0)) ∧
    ∀ (s : State) (n : BitVec 8), validPsr s.cpsr = true → s.params.swiHandler = false →
      ∃ t u, exec (.swi .al n) s = .next t ∧ exec (.mov .al true 15 (.shiftImm 14 .lsl 0)) t = .next u ∧
        u.pc = (s.pc + 4#32) &&& 0xFFFFFFFC#32 ∧ u.cpsr = s.cpsr ∧ RegsKept s u [view .svc 14] ∧ SameMemory s u)

/-- An SPSR restore whose saved mode is no mode is refused, in data processing and in LDM (rule R180). -/
def Obligations.InvalidRestoreRefused : Prop :=
  ∀ (s : State) (c : Cond), condPassed c s.cpsr = true → s.mode.hasSpsr = true →
    validPsr (s.spsrOf s.mode) = false →
    (∀ rn o, ∀ x ∈ writingForms s c true rn 15 o, exec x.1 s = .refused .invalidMode) ∧
    (∀ m wb rn list, list.getLsbD 15 = true → exec (.ldm c m true wb rn list) s = .refused .invalidMode)

/-! ### The shifter -/

/-- The barrel shifter: amount zero (rule R183) and every other amount (rules R184 to R187). -/
def Obligations.ShifterResult : Prop :=
  ∀ (v : Word) (cin : Bool),
    (∀ ty, (∀ imm, shifter false imm v ty 0 cin = ⟨v, cin⟩) ∧ shifter true false v ty 0 cin = ⟨v, cin⟩) ∧
    shifter true true v .lsl 0 cin = ⟨v, cin⟩ ∧
    shifter true true v .lsr 0 cin = shifter true true v .lsr 32 cin ∧
    shifter true true v .asr 0 cin = shifter true true v .asr 32 cin ∧
    (shifter true true v .ror 0 cin).value.toNat = cin.toNat * 2 ^ 31 + v.toNat / 2 ∧
    (shifter true true v .ror 0 cin).carry = v.getLsbD 0 ∧
    ∀ (arch imm : Bool) (n : Nat), 1 ≤ n →
      (let x := shifter arch imm v .lsl n cin
       x.value.toNat = v.toNat * 2 ^ n % 2 ^ 32 ∧ x.carry = (if n ≤ 32 then v.getLsbD (32 - n) else false)) ∧
      (let x := shifter arch imm v .lsr n cin
       x.value.toNat = v.toNat / 2 ^ n ∧ x.carry = (if n ≤ 32 then v.getLsbD (n - 1) else false)) ∧
      (let x := shifter arch imm v .asr n cin
       x.value.toInt = v.toInt / 2 ^ n ∧ x.carry = (if n ≤ 32 then v.getLsbD (n - 1) else v.getLsbD 31)) ∧
      (let x := shifter arch imm v .ror n cin
       let r := n % 32
       if r = 0 then x.value = v ∧ x.carry = (if arch then v.getLsbD 31 else cin)
       else x.value = (v >>> r ||| v <<< (32 - r)) ∧ x.carry = v.getLsbD (r - 1))

/-- The rotated immediate and its carry-out (rules R146, R188). -/
def Obligations.RotatedImmediate : Prop :=
  ∀ (s : State) (rot : BitVec 4) (imm8 : BitVec 8),
    let x := operand2 s (.imm rot imm8)
    let z : Word := imm8.setWidth 32
    let n := 2 * rot.toNat
    x.value = (if rot = 0 then z else z >>> n ||| z <<< (32 - n)) ∧
    x.carry = (if rot = 0 then psrC s.cpsr else x.value.getLsbD 31)

/-! ### Data processing -/

/-- AND, EOR, ORR, BIC, MOV, MVN (rules R192, R211, R213, R214, R226 to R229). -/
def Obligations.LogicalResult : Prop :=
  ∀ (s : State) (c : Cond) (sf : Bool) (rn rd : Reg) (o : Operand2), condPassed c s.cpsr = true → ¬ Returns s sf rd →
    ∀ x ∈ logicalForms c sf rn rd o,
      let d := dpOperands s rn o
      let r := x.2 d.op1 d.op2
      ∃ t, exec x.1 s = .next t ∧ Wrote s t rd r ∧
        (if sf then FlagsAre s t (r.getLsbD 31) (r == 0) d.sc (psrV s.cpsr) else t.cpsr = s.cpsr) ∧
        OthersKept s t ∧ Costs s t (dpCycles s o) (rd == 15) []

/-- ADD and ADC (rules R190, R211, R217, R218). -/
def Obligations.AdditionResult : Prop :=
  ∀ (s : State) (c : Cond) (sf : Bool) (rn rd : Reg) (o : Operand2), condPassed c s.cpsr = true → ¬ Returns s sf rd →
    ∀ x ∈ addForms s c sf rn rd o,
      let d := dpOperands s rn o
      ∃ t r cf vf, exec x.1 s = .next t ∧ AddSpec d.op1 d.op2 x.2 r cf vf ∧ Wrote s t rd r ∧
        (if sf then FlagsAre s t (r.getLsbD 31) (r == 0) cf vf else t.cpsr = s.cpsr) ∧
        OthersKept s t ∧ Costs s t (dpCycles s o) (rd == 15) []

/-- SUB, RSB, SBC and RSC (rules R191, R211, R215, R216, R219, R220). -/
def Obligations.SubtractionResult : Prop :=
  ∀ (s : State) (c : Cond) (sf : Bool) (rn rd : Reg) (o : Operand2), condPassed c s.cpsr = true → ¬ Returns s sf rd →
    ∀ x ∈ subtractForms s c sf rn rd o,
      ∃ t r cf vf, exec x.1 s = .next t ∧ SubSpec x.2.1 x.2.2.1 x.2.2.2 r cf vf ∧ Wrote s t rd r ∧
        (if sf then FlagsAre s t (r.getLsbD 31) (r == 0) cf vf else t.cpsr = s.cpsr) ∧
        OthersKept s t ∧ Costs s t (dpCycles s o) (rd == 15) []

/-- TST, TEQ, CMP and CMN write the flags of AND, EOR, SUB and ADD, and no register (rules R221, R222, R223, R225). -/
def Obligations.TestResult : Prop :=
  ∀ (s : State) (c : Cond) (rn : Reg) (o : Operand2), condPassed c s.cpsr = true →
    let d := dpOperands s rn o
    let x := d.op1 &&& d.op2
    let y := d.op1 ^^^ d.op2
    (∃ t, exec (.tst c rn o) s = .next t ∧ TestLeaves s t o (x.getLsbD 31) (x == 0) d.sc (psrV s.cpsr)) ∧
    (∃ t, exec (.teq c rn o) s = .next t ∧ TestLeaves s t o (y.getLsbD 31) (y == 0) d.sc (psrV s.cpsr)) ∧
    (∃ t r cf vf, exec (.cmp c rn o) s = .next t ∧ SubSpec d.op1 d.op2 0 r cf vf ∧
      TestLeaves s t o (r.getLsbD 31) (r == 0) cf vf) ∧
    (∃ t r cf vf, exec (.cmn c rn o) s = .next t ∧ AddSpec d.op1 d.op2 0 r cf vf ∧
      TestLeaves s t o (r.getLsbD 31) (r == 0) cf vf)

/-- A test opcode with S = 0 that is not MRS, MSR or BX executes and writes nothing (rule R224). -/
def Obligations.TestWithoutFlagsWritesNothing : Prop :=
  (∀ w : Word, selectUnit w = some .dataProcessing → w.extractLsb' 23 2 = 0b10#2 → w.getLsbD 20 = false →
    ∃ c op rn o, decode w = some (.dpTestS0 c op rn o)) ∧
  (∀ (s : State) (c : Cond) (op : TestOp) (rn : Reg) (o : Operand2), condPassed c s.cpsr = true →
    ∃ t, exec (.dpTestS0 c op rn o) s = .next t ∧ t.cpsr = s.cpsr ∧ OnlyPc s t ∧ OthersKept s t ∧
      Costs s t (dpCycles s o) false [])

/-- The signed overflow flag of an addition and a subtraction says that the exact signed result does not fit (R190, R191). -/
def Obligations.OverflowIsSignedOverflow : Prop :=
  ∀ (a b : Word) (cy : Bool),
    ((addOut a b cy).overflow = true ↔ (addOut a b cy).result.toInt ≠ a.toInt + b.toInt + cy.toNat) ∧
    ((subOut a b cy).overflow = true ↔ (subOut a b cy).result.toInt ≠ a.toInt - b.toInt - cy.toNat)

/-- An S = 1 operation with Rd = 15 in a mode that owns an SPSR writes the pc and restores the CPSR (rules R180, R211). -/
def Obligations.ReturnRestoresCpsr : Prop :=
  ∀ (s : State) (c : Cond) (rn : Reg) (o : Operand2), condPassed c s.cpsr = true → s.mode.hasSpsr = true →
    validPsr (s.spsrOf s.mode) = true →
    ∀ x ∈ writingForms s c true rn 15 o,
      ∃ t, exec x.1 s = .next t ∧ t.pc = x.2 &&& 0xFFFFFFFC#32 ∧ t.cpsr = s.spsrOf s.mode ∧
        RegsKept s t [] ∧ OthersKept s t ∧ Costs s t (dpCycles s o) true []

/-! ### Multiply -/

/-- MUL and MLA (rules R241, R242, R244, R245). -/
def Obligations.MultiplyResult : Prop :=
  ∀ (s : State) (c : Cond) (sf : Bool) (rd rn rm rs : Reg), condPassed c s.cpsr = true →
    let m := (s.readR rm).toNat
    let k := (s.readR rs).toNat
    ∀ x ∈ [(Instr.mul c sf rd rm rs, m * k, s.params.cycMul),
           (Instr.mla c sf rd rn rm rs, m * k + (s.readR rn).toNat, s.params.cycMla)],
      ∃ t r, exec x.1 s = .next t ∧ r.toNat = x.2.1 % 2 ^ 32 ∧ Wrote s t rd r ∧
        (if sf then FlagsAre s t (r.getLsbD 31) (r == 0) (psrC s.cpsr) (psrV s.cpsr) else t.cpsr = s.cpsr) ∧
        OthersKept s t ∧ Costs s t x.2.2 (rd == 15) []

/-- UMULL, UMLAL, SMULL and SMLAL (rules R241, R242, R246 to R249). -/
def Obligations.LongMultiplyResult : Prop :=
  ∀ (s : State) (c : Cond) (sf : Bool) (hi lo rm rs : Reg), condPassed c s.cpsr = true →
    let u : Int := (s.readR rm).toNat * (s.readR rs).toNat
    let g : Int := (s.readR rm).toInt * (s.readR rs).toInt
    let acc : Int := (s.readR hi).toNat * 2 ^ 32 + (s.readR lo).toNat
    ∀ x ∈ [(Instr.umull c sf hi lo rm rs, u, s.params.cycMull), (Instr.umlal c sf hi lo rm rs, u + acc, s.params.cycMlal),
           (Instr.smull c sf hi lo rm rs, g, s.params.cycMull), (Instr.smlal c sf hi lo rm rs, g + acc, s.params.cycMlal)],
      ∃ (t : State) (p : BitVec 64), exec x.1 s = .next t ∧ (p.toNat : Int) = x.2.1 % 2 ^ 64 ∧
        (hi ≠ 15 → t.reg s.mode hi = p.extractLsb' 32 32) ∧
        (lo ≠ 15 → lo ≠ hi → t.reg s.mode lo = p.extractLsb' 0 32) ∧
        t.pc = (if hi = 15 then p.extractLsb' 32 32 &&& 0xFFFFFFFC#32
          else if lo = 15 then p.extractLsb' 0 32 &&& 0xFFFFFFFC#32 else s.pc + 4#32) ∧
        RegsKept s t [view s.mode hi, view s.mode lo] ∧
        (if sf then FlagsAre s t (p.getLsbD 63) (p == 0) (psrC s.cpsr) (psrV s.cpsr) else t.cpsr = s.cpsr) ∧
        OthersKept s t ∧ Costs s t x.2.2 (hi == 15 || lo == 15) []

/-! ### Single transfers -/

/-- The address of a transfer, and the effective address its write-back uses (rules R260, R270). -/
def Obligations.TransferAddresses : Prop :=
  ∀ (s : State) (ix : Indexing) (up : Bool) (rn : Reg),
    let base := if rn = 15 then s.pc + 8#32 else s.reg s.mode rn
    (∀ off,
      let x := sdtAddress s ix up rn off
      let n : Word := match off with
        | .imm n => n.setWidth 32
        | .reg rm ty k => (shifter s.params.archShiftZero true (s.readR rm) ty k.toNat (psrC s.cpsr)).value
      x.ea.toNat = (if up then base.toNat + n.toNat else base.toNat + (2 ^ 32 - n.toNat)) % 2 ^ 32 ∧
      x.addr = (if ix = .post then base else x.ea)) ∧
    (∀ off,
      let x := hwAddress s ix up rn off
      let n : Word := match off with
        | .imm n => n.setWidth 32
        | .reg rm => s.readR rm
      x.ea.toNat = (if up then base.toNat + n.toNat else base.toNat + (2 ^ 32 - n.toNat)) % 2 ^ 32 ∧
      x.addr = (if ix = .post then base else x.ea))

/-- The loads (rules R261, R263, R265, R267, R271, R273, R274, R276). -/
def Obligations.LoadResult : Prop :=
  ∀ (s : State) (c : Cond) (ix : Indexing) (up : Bool) (rn rd : Reg) (off : Offset) (hoff : HalfOffset),
    condPassed c s.cpsr = true →
    ∀ x ∈ loadForms s c ix up rn rd off hoff,
      ∃ t, exec x.instr s = .next t ∧ t.cpsr = s.cpsr ∧ OthersKept s t ∧
        (WritesBack x.ix rn rd →
          (rn ≠ 15 → t.reg s.mode rn = x.at'.ea) ∧ (rd ≠ 15 → rd ≠ rn → t.reg s.mode rd = x.value) ∧
          t.pc = (if rn = 15 then x.at'.ea &&& 0xFFFFFFFC#32
            else if rd = 15 then x.value &&& 0xFFFFFFFC#32 else s.pc + 4#32) ∧
          RegsKept s t [view s.mode rn, view s.mode rd] ∧
          Costs s t s.params.cycLdr (rn == 15 || rd == 15) [⟨x.at'.addr, x.width⟩]) ∧
        (¬ WritesBack x.ix rn rd →
          Wrote s t rd x.value ∧ Costs s t s.params.cycLdr (rd == 15) [⟨x.at'.addr, x.width⟩])

/-- The stores, and the bytes they leave (rules R261, R264, R266, R267, R272, R276). -/
def Obligations.StoreResult : Prop :=
  ∀ (s : State) (c : Cond) (ix : Indexing) (up : Bool) (rn rd : Reg) (off : Offset) (hoff : HalfOffset),
    condPassed c s.cpsr = true →
    ∀ x ∈ storeForms s c ix up rn rd off hoff,
      ∃ t, exec x.instr s = .next t ∧ t.cpsr = s.cpsr ∧ SpsrsKept s t ∧ EnvKept s t ∧
        SameMemory x.after t ∧ BytesKeptOutside s t x.bytes ∧
        (WritesBack x.ix rn rd →
          Wrote s t rn x.at'.ea ∧ Costs s t s.params.cycStr (rn == 15) [⟨x.at'.addr, x.width⟩]) ∧
        (¬ WritesBack x.ix rn rd →
          OnlyPc s t ∧ Costs s t s.params.cycStr false [⟨x.at'.addr, x.width⟩])

/-- The reserved halfword stores do nothing, in 1 cycle and the cost of the fetch (rule R279). -/
def Obligations.ReservedStoreDoesNothing : Prop :=
  (∀ w : Word, selectUnit w = some .halfword → w.getLsbD 20 = false → w.getLsbD 6 = true →
    ∃ c ix up rn rd off, decode w = some (.strResSb c ix up rn rd off) ∨ decode w = some (.strResSh c ix up rn rd off)) ∧
  (∀ (s : State) (c : Cond) (ix : Indexing) (up : Bool) (rn rd : Reg) (off : HalfOffset), condPassed c s.cpsr = true →
    ∀ i ∈ [Instr.strResSb c ix up rn rd off, Instr.strResSh c ix up rn rd off],
      ∃ t, exec i s = .next t ∧ t.cpsr = s.cpsr ∧ OnlyPc s t ∧ OthersKept s t ∧ Costs s t 1 false [])

/-! ### Block transfers -/

/-- The start address and the write-back value of the four modes (rule R290). -/
def Obligations.BlockAddressing : Prop :=
  ∀ (base : Word) (n : Nat), n ≤ 16 →
    let up := BitVec.ofNat 32 ((base.toNat + 4 * n) % 2 ^ 32)
    let down := BitVec.ofNat 32 ((base.toNat + 2 ^ 32 - 4 * n) % 2 ^ 32)
    blockAddress .ia base n = ⟨base, up⟩ ∧ blockAddress .ib base n = ⟨base + 4#32, up⟩ ∧
    blockAddress .da base n = ⟨down + 4#32, down⟩ ∧ blockAddress .db base n = ⟨down, down⟩

/-- LDM of a non-empty list that restores no invalid mode (rules R290, R292, R294, R296). -/
def Obligations.LoadMultipleResult : Prop :=
  ∀ (s : State) (c : Cond) (m : BlockMode) (sb wb : Bool) (rn : Reg) (list : BitVec 16),
    condPassed c s.cpsr = true → list ≠ 0#16 →
    (sb = true → list.getLsbD 15 = true → s.mode.hasSpsr = true → validPsr (s.spsrOf s.mode) = true) →
    let n := (listedRegs list).length
    let a := blockAddress m (s.readR rn) n
    let target := if sb && !list.getLsbD 15 then Mode.usr else s.mode
    let back := wb && !list.getLsbD rn.val
    ∃ t, exec (.ldm c m sb wb rn list) s = .next t ∧
      (∀ i : Reg, i ≠ 15 → list.getLsbD i.val = true → t.reg target i = s.read32 (slot a.start list i)) ∧
      (back = true → rn ≠ 15 → t.reg s.mode rn = a.wb) ∧
      t.pc = (if back = true ∧ rn = 15 then a.wb &&& 0xFFFFFFFC#32
        else if list.getLsbD 15 then s.read32 (slot a.start list 15) &&& 0xFFFFFFFC#32 else s.pc + 4#32) ∧
      (∀ p, (∀ i : Reg, list.getLsbD i.val = true → view target i ≠ some p) → (back = true → view s.mode rn ≠ some p) →
        t.regs.get p = s.regs.get p) ∧
      t.cpsr = (if sb && list.getLsbD 15 && s.mode.hasSpsr then s.spsrOf s.mode else s.cpsr) ∧
      OthersKept s t ∧
      Costs s t (s.params.cycLdmBase + n) (list.getLsbD 15 || (back && rn == 15)) (blockAccesses a.start n)

/-- STM of a non-empty list (rules R290, R292, R295, R296). -/
def Obligations.StoreMultipleResult : Prop :=
  ∀ (s : State) (c : Cond) (m : BlockMode) (sb wb : Bool) (rn : Reg) (list : BitVec 16),
    condPassed c s.cpsr = true → list ≠ 0#16 →
    let n := (listedRegs list).length
    let a := blockAddress m (s.readR rn) n
    let stored := (listedRegs list).foldl (fun u i => u.write32 (slot a.start list i) (stmValue s sb i)) s
    ∃ t, exec (.stm c m sb wb rn list) s = .next t ∧ SameMemory stored t ∧
      BytesKeptOutside s t ((listedRegs list).flatMap fun i => wordBytes (slot a.start list i)) ∧
      (if wb then Wrote s t rn a.wb else OnlyPc s t) ∧ t.cpsr = s.cpsr ∧ SpsrsKept s t ∧ EnvKept s t ∧
      Costs s t (s.params.cycStmBase + n) (wb && rn == 15) (blockAccesses a.start n)

/-- An empty register list does nothing, in 1 cycle and the cost of the fetch (rule R293). -/
def Obligations.EmptyListDoesNothing : Prop :=
  ∀ (s : State) (c : Cond) (m : BlockMode) (sb wb : Bool) (rn : Reg), condPassed c s.cpsr = true →
    ∀ i ∈ [Instr.ldm c m sb wb rn 0#16, Instr.stm c m sb wb rn 0#16],
      ∃ t, exec i s = .next t ∧ t.cpsr = s.cpsr ∧ OnlyPc s t ∧ OthersKept s t ∧ Costs s t 1 false []

/-! ### Branches -/

/-- B and BL (rules R310, R311, R312). -/
def Obligations.BranchResult : Prop :=
  ∀ (s : State) (c : Cond) (offset : BitVec 24), condPassed c s.cpsr = true →
    let target := BitVec.ofInt 32 (s.pc.toNat + 8 + 4 * offset.toInt)
    (∃ t, exec (.b c offset) s = .next t ∧ t.pc = target &&& 0xFFFFFFFC#32 ∧ RegsKept s t [] ∧ t.cpsr = s.cpsr ∧
      OthersKept s t ∧ Costs s t s.params.cycBranch true []) ∧
    (∃ t, exec (.bl c offset) s = .next t ∧ t.pc = target &&& 0xFFFFFFFC#32 ∧ t.reg s.mode 14 = s.pc + 4#32 ∧
      RegsKept s t [view s.mode 14] ∧ t.cpsr = s.cpsr ∧ OthersKept s t ∧ Costs s t s.params.cycBranch true [])

/-- BX (rules R316, R317). -/
def Obligations.BranchExchangeResult : Prop :=
  ∀ (s : State) (c : Cond) (rm : Reg), condPassed c s.cpsr = true →
    let v := if rm = 15 then s.pc + 8#32 else s.reg s.mode rm
    ∃ t, exec (.bx c rm) s = .next t ∧ t.pc = v &&& 0xFFFFFFFE#32 ∧
      psrT t.cpsr = (v.getLsbD 0 || psrT s.cpsr) ∧
      (∀ k, k ≠ 5 → t.cpsr.getLsbD k = s.cpsr.getLsbD k) ∧ RegsKept s t [] ∧ OthersKept s t ∧
      Costs s t s.params.cycBranch true []

/-! ### Swap -/

/-- SWP and SWPB (rules R326 to R329). -/
def Obligations.SwapResult : Prop :=
  ∀ (s : State) (c : Cond) (rn rd rm : Reg), condPassed c s.cpsr = true →
    let a := s.readR rn
    let v := s.readR rm
    (∃ t, exec (.swp c rn rd rm) s = .next t ∧ Wrote s t rd (s.read32 a) ∧ SameMemory (s.write32 a v) t ∧
      BytesKeptOutside s t (wordBytes a) ∧ t.cpsr = s.cpsr ∧ SpsrsKept s t ∧ EnvKept s t ∧
      Costs s t s.params.cycSwp (rd == 15) [⟨a, .word⟩, ⟨a, .word⟩]) ∧
    (∃ t, exec (.swpb c rn rd rm) s = .next t ∧ Wrote s t rd ((s.read8 a).setWidth 32) ∧
      SameMemory (s.write8 a (v.extractLsb' 0 8)) t ∧ BytesKeptOutside s t [a] ∧ t.cpsr = s.cpsr ∧ SpsrsKept s t ∧
      EnvKept s t ∧ Costs s t s.params.cycSwp (rd == 15) [⟨a, .byte⟩, ⟨a, .byte⟩])

/-! ### PSR transfer -/

/-- MRS (rules R335, R336, R345). -/
def Obligations.MrsResult : Prop :=
  ∀ (s : State) (c : Cond) (rd : Reg), condPassed c s.cpsr = true →
    ∀ x ∈ [(Instr.mrsCpsr c rd, s.cpsr),
           (Instr.mrsSpsr c rd, if s.mode = .usr ∨ s.mode = .sys then 0x00000000#32 else s.spsrOf s.mode)],
      ∃ t, exec x.1 s = .next t ∧ Wrote s t rd x.2 ∧ t.cpsr = s.cpsr ∧ OthersKept s t ∧
        Costs s t s.params.cycPsr (rd == 15) []

/-- MSR to the CPSR: the selected bytes, in User mode bits 31:24 only, and the refusal of an invalid mode (R338 to R341). -/
def Obligations.MsrCpsrResult : Prop :=
  ∀ (s : State) (c : Cond) (mask rot : BitVec 4) (rm : Reg) (imm8 : BitVec 8), condPassed c s.cpsr = true →
    ∀ x ∈ [(Instr.msrReg c .cpsr mask rm, s.readR rm), (Instr.msrImm c .cpsr mask rot imm8, rotatedValue rot imm8)],
      ∀ new : Word, MsrMerges s mask x.2 new →
        (validPsr new = true → ∃ t, exec x.1 s = .next t ∧ t.cpsr = new ∧ OnlyPc s t ∧ OthersKept s t ∧
          Costs s t s.params.cycPsr false []) ∧
        (validPsr new = false → exec x.1 s = .refused .invalidMode)

/-- MSR to the SPSR: the selected bytes of the current mode's; nothing in a mode that has none (rules R339, R341, R342). -/
def Obligations.MsrSpsrResult : Prop :=
  ∀ (s : State) (c : Cond) (mask rot : BitVec 4) (rm : Reg) (imm8 : BitVec 8), condPassed c s.cpsr = true →
    ∀ x ∈ [(Instr.msrReg c .spsr mask rm, s.readR rm), (Instr.msrImm c .spsr mask rot imm8, rotatedValue rot imm8)],
      ∃ t, exec x.1 s = .next t ∧ t.cpsr = s.cpsr ∧ OnlyPc s t ∧ SameMemory s t ∧ EnvKept s t ∧
        Costs s t s.params.cycPsr false [] ∧
        (∀ m, m ≠ s.mode → t.spsrOf m = s.spsrOf m) ∧
        (if s.mode = .usr ∨ s.mode = .sys then SpsrsKept s t
         else ∀ k, k < 32 → (t.spsrOf s.mode).getLsbD k =
           if mask.getLsbD (k / 8) = true then x.2.getLsbD k else (s.spsrOf s.mode).getLsbD k)

/-! ### Software interrupt -/

/-- With no handler, the four software-interrupt instructions take the SWI exception (rules R353, R354, R355). -/
def Obligations.SoftwareInterruptEntry : Prop :=
  ∀ (s : State) (c : Cond) (n : BitVec 8), condPassed c s.cpsr = true → s.params.swiHandler = false →
    ∀ i ∈ [Instr.swi c n, Instr.swiCpC c n, Instr.swiCpD c n, Instr.swiCpE c n],
      ∃ t, exec i s = .next t ∧ t.spsrSvc = s.cpsr ∧ (∀ m, m ≠ .svc → t.spsrOf m = s.spsrOf m) ∧
        t.cpsr.extractLsb' 0 5 = 0b10011#5 ∧ psrT t.cpsr = false ∧ psrI t.cpsr = true ∧ psrF t.cpsr = psrF s.cpsr ∧
        t.cpsr.extractLsb' 8 24 = s.cpsr.extractLsb' 8 24 ∧ t.reg .svc 14 = s.pc + 4#32 ∧
        RegsKept s t [view .svc 14] ∧ t.pc = 0x00000008#32 ∧ SameMemory s t ∧ EnvKept s t ∧
        Costs s t s.params.cycSwi true []

/-- With a handler, its answer, a free value, is applied and the pc advances by 4 (rules R351, R352; log 8); a negative count is
refused (rule R351). That a handler which leaves an illegal mode in the CPSR is refused, and that the count is looked at first,
is the model's reading of rule R33 (DEDUCED, log 8); rule R364 names only an MSR and an SPSR restore. -/
def Obligations.SoftwareInterruptHandled : Prop :=
  ∀ (s : State) (c : Cond) (n : BitVec 8), condPassed c s.cpsr = true → s.params.swiHandler = true →
    let h := Config.swiResult s.draws n
    ∀ i ∈ [Instr.swi c n, Instr.swiCpC c n, Instr.swiCpD c n, Instr.swiCpE c n],
      if h.cycles < 0 then exec i s = .refused .badHandlerCycles
      else if validPsr h.cpsr = false then exec i s = .refused .invalidMode
      else ∃ t, exec i s = .next t ∧ t.pc = s.pc + 4#32 ∧ t.refill = false ∧ (t.cycles : Int) = h.cycles ∧
        t.cpsr = h.cpsr ∧ t.spsrFiq = h.spsrFiq ∧ t.spsrIrq = h.spsrIrq ∧ t.spsrSvc = h.spsrSvc ∧
        t.spsrAbt = h.spsrAbt ∧ t.spsrUnd = h.spsrUnd ∧
        (∀ k : Fin 15, t.reg s.mode k.castSucc = h.regs[k]) ∧
        (∀ p, (∀ k : Reg, view s.mode k ≠ some p) → t.regs.get p = s.regs.get p) ∧
        SameMemory (h.stores.foldl (fun u x => u.write8 x.1 x.2) s) t ∧ EnvKept s t

/-! ### The cartridge -/

/-- A byte write in a cartridge window is handed to the cartridge with its window and offset and changes nothing else
(rules R90, R91, R92). That the forwarded writes are kept as a list is the model's choice (DESIGN CHOICE, log 7). So is that a
byte in a cartridge window, the written one included, reads as before within the same draw (DESIGN CHOICE, log 6): rules R92
and R93 leave what the cartridge answers after a write to the cartridge. -/
def Obligations.CartridgeWindowForwards : Prop :=
  ∀ (s : State) (a : Word) (v : Byte),
    let o := offsetOf s.params.regions a
    (regionOf s.params.regions a = .cartRom →
      s.write8 a v = { s with calls := s.calls ++ [.cartWrite .rom o v] } ∧ ∀ b, (s.write8 a v).read8 b = s.read8 b) ∧
    (regionOf s.params.regions a = .cartSram →
      s.write8 a v = { s with calls := s.calls ++ [.cartWrite .sram o v] } ∧ ∀ b, (s.write8 a v).read8 b = s.read8 b)
end

