-- ==== Sys2Proof/Laws/State.lean ====
section
/-! SUPPORT. What each update of a State record does to each field. Every lemma holds by `rfl`. -/

namespace Sys2Proof.Machine

/-! ### `State.begin` -/

@[simp] theorem State.begin_regs (s : State) : s.begin.regs = s.regs := rfl
@[simp] theorem State.begin_pc (s : State) : s.begin.pc = s.pc := rfl
@[simp] theorem State.begin_cpsr (s : State) : s.begin.cpsr = s.cpsr := rfl
@[simp] theorem State.begin_spsrFiq (s : State) : s.begin.spsrFiq = s.spsrFiq := rfl
@[simp] theorem State.begin_spsrIrq (s : State) : s.begin.spsrIrq = s.spsrIrq := rfl
@[simp] theorem State.begin_spsrSvc (s : State) : s.begin.spsrSvc = s.spsrSvc := rfl
@[simp] theorem State.begin_spsrAbt (s : State) : s.begin.spsrAbt = s.spsrAbt := rfl
@[simp] theorem State.begin_spsrUnd (s : State) : s.begin.spsrUnd = s.spsrUnd := rfl
@[simp] theorem State.begin_pending (s : State) : s.begin.pending = s.pending := rfl
@[simp] theorem State.begin_mem (s : State) : s.begin.mem = s.mem := rfl
@[simp] theorem State.begin_refill (s : State) : s.begin.refill = false := rfl
@[simp] theorem State.begin_cycles (s : State) : s.begin.cycles = s.cycles := rfl
@[simp] theorem State.begin_calls (s : State) : s.begin.calls = s.calls := rfl
@[simp] theorem State.begin_params (s : State) : s.begin.params = s.params := rfl
@[simp] theorem State.begin_irqLine (s : State) : s.begin.irqLine = s.irqLine := rfl
@[simp] theorem State.begin_draws (s : State) : s.begin.draws = s.draws := rfl

/-! ### `State.store` -/

@[simp] theorem State.store_regs (s : State) (k : Nat) (b : Byte) : (s.store k b).regs = s.regs := rfl
@[simp] theorem State.store_pc (s : State) (k : Nat) (b : Byte) : (s.store k b).pc = s.pc := rfl
@[simp] theorem State.store_cpsr (s : State) (k : Nat) (b : Byte) : (s.store k b).cpsr = s.cpsr := rfl
@[simp] theorem State.store_spsrFiq (s : State) (k : Nat) (b : Byte) : (s.store k b).spsrFiq = s.spsrFiq := rfl
@[simp] theorem State.store_spsrIrq (s : State) (k : Nat) (b : Byte) : (s.store k b).spsrIrq = s.spsrIrq := rfl
@[simp] theorem State.store_spsrSvc (s : State) (k : Nat) (b : Byte) : (s.store k b).spsrSvc = s.spsrSvc := rfl
@[simp] theorem State.store_spsrAbt (s : State) (k : Nat) (b : Byte) : (s.store k b).spsrAbt = s.spsrAbt := rfl
@[simp] theorem State.store_spsrUnd (s : State) (k : Nat) (b : Byte) : (s.store k b).spsrUnd = s.spsrUnd := rfl
@[simp] theorem State.store_pending (s : State) (k : Nat) (b : Byte) : (s.store k b).pending = s.pending := rfl
@[simp] theorem State.store_mem (s : State) (k : Nat) (b : Byte) : (s.store k b).mem = s.mem.put k b := rfl
@[simp] theorem State.store_refill (s : State) (k : Nat) (b : Byte) : (s.store k b).refill = s.refill := rfl
@[simp] theorem State.store_cycles (s : State) (k : Nat) (b : Byte) : (s.store k b).cycles = s.cycles := rfl
@[simp] theorem State.store_calls (s : State) (k : Nat) (b : Byte) : (s.store k b).calls = s.calls := rfl
@[simp] theorem State.store_params (s : State) (k : Nat) (b : Byte) : (s.store k b).params = s.params := rfl
@[simp] theorem State.store_irqLine (s : State) (k : Nat) (b : Byte) : (s.store k b).irqLine = s.irqLine := rfl
@[simp] theorem State.store_draws (s : State) (k : Nat) (b : Byte) : (s.store k b).draws = s.draws := rfl

/-! ### `State.acknowledge` -/

@[simp] theorem State.acknowledge_regs (s : State) (v : BitVec 16) : (s.acknowledge v).regs = s.regs := rfl
@[simp] theorem State.acknowledge_pc (s : State) (v : BitVec 16) : (s.acknowledge v).pc = s.pc := rfl
@[simp] theorem State.acknowledge_cpsr (s : State) (v : BitVec 16) : (s.acknowledge v).cpsr = s.cpsr := rfl
@[simp] theorem State.acknowledge_spsrFiq (s : State) (v : BitVec 16) : (s.acknowledge v).spsrFiq = s.spsrFiq := rfl
@[simp] theorem State.acknowledge_spsrIrq (s : State) (v : BitVec 16) : (s.acknowledge v).spsrIrq = s.spsrIrq := rfl
@[simp] theorem State.acknowledge_spsrSvc (s : State) (v : BitVec 16) : (s.acknowledge v).spsrSvc = s.spsrSvc := rfl
@[simp] theorem State.acknowledge_spsrAbt (s : State) (v : BitVec 16) : (s.acknowledge v).spsrAbt = s.spsrAbt := rfl
@[simp] theorem State.acknowledge_spsrUnd (s : State) (v : BitVec 16) : (s.acknowledge v).spsrUnd = s.spsrUnd := rfl
@[simp] theorem State.acknowledge_pending (s : State) (v : BitVec 16) :
    (s.acknowledge v).pending = s.pending &&& ~~~v := rfl
@[simp] theorem State.acknowledge_mem (s : State) (v : BitVec 16) : (s.acknowledge v).mem = s.mem := rfl
@[simp] theorem State.acknowledge_refill (s : State) (v : BitVec 16) : (s.acknowledge v).refill = s.refill := rfl
@[simp] theorem State.acknowledge_cycles (s : State) (v : BitVec 16) : (s.acknowledge v).cycles = s.cycles := rfl
@[simp] theorem State.acknowledge_calls (s : State) (v : BitVec 16) : (s.acknowledge v).calls = s.calls := rfl
@[simp] theorem State.acknowledge_params (s : State) (v : BitVec 16) : (s.acknowledge v).params = s.params := rfl
@[simp] theorem State.acknowledge_irqLine (s : State) (v : BitVec 16) : (s.acknowledge v).irqLine = s.irqLine := rfl
@[simp] theorem State.acknowledge_draws (s : State) (v : BitVec 16) : (s.acknowledge v).draws = s.draws := rfl

/-! ### `State.forward` -/

@[simp] theorem State.forward_regs (s : State) (c : Call) : (s.forward c).regs = s.regs := rfl
@[simp] theorem State.forward_pc (s : State) (c : Call) : (s.forward c).pc = s.pc := rfl
@[simp] theorem State.forward_cpsr (s : State) (c : Call) : (s.forward c).cpsr = s.cpsr := rfl
@[simp] theorem State.forward_spsrFiq (s : State) (c : Call) : (s.forward c).spsrFiq = s.spsrFiq := rfl
@[simp] theorem State.forward_spsrIrq (s : State) (c : Call) : (s.forward c).spsrIrq = s.spsrIrq := rfl
@[simp] theorem State.forward_spsrSvc (s : State) (c : Call) : (s.forward c).spsrSvc = s.spsrSvc := rfl
@[simp] theorem State.forward_spsrAbt (s : State) (c : Call) : (s.forward c).spsrAbt = s.spsrAbt := rfl
@[simp] theorem State.forward_spsrUnd (s : State) (c : Call) : (s.forward c).spsrUnd = s.spsrUnd := rfl
@[simp] theorem State.forward_pending (s : State) (c : Call) : (s.forward c).pending = s.pending := rfl
@[simp] theorem State.forward_mem (s : State) (c : Call) : (s.forward c).mem = s.mem := rfl
@[simp] theorem State.forward_refill (s : State) (c : Call) : (s.forward c).refill = s.refill := rfl
@[simp] theorem State.forward_cycles (s : State) (c : Call) : (s.forward c).cycles = s.cycles := rfl
@[simp] theorem State.forward_calls (s : State) (c : Call) : (s.forward c).calls = s.calls ++ [c] := rfl
@[simp] theorem State.forward_params (s : State) (c : Call) : (s.forward c).params = s.params := rfl
@[simp] theorem State.forward_irqLine (s : State) (c : Call) : (s.forward c).irqLine = s.irqLine := rfl
@[simp] theorem State.forward_draws (s : State) (c : Call) : (s.forward c).draws = s.draws := rfl

/-! ### `State.setFlags` -/

@[simp] theorem State.setFlags_regs (s : State) (a : AluOut) : (s.setFlags a).regs = s.regs := rfl
@[simp] theorem State.setFlags_pc (s : State) (a : AluOut) : (s.setFlags a).pc = s.pc := rfl
@[simp] theorem State.setFlags_cpsr (s : State) (a : AluOut) :
    (s.setFlags a).cpsr = withNZCV s.cpsr (a.result.getLsbD 31) (a.result == 0) a.carry a.overflow := rfl
@[simp] theorem State.setFlags_spsrFiq (s : State) (a : AluOut) : (s.setFlags a).spsrFiq = s.spsrFiq := rfl
@[simp] theorem State.setFlags_spsrIrq (s : State) (a : AluOut) : (s.setFlags a).spsrIrq = s.spsrIrq := rfl
@[simp] theorem State.setFlags_spsrSvc (s : State) (a : AluOut) : (s.setFlags a).spsrSvc = s.spsrSvc := rfl
@[simp] theorem State.setFlags_spsrAbt (s : State) (a : AluOut) : (s.setFlags a).spsrAbt = s.spsrAbt := rfl
@[simp] theorem State.setFlags_spsrUnd (s : State) (a : AluOut) : (s.setFlags a).spsrUnd = s.spsrUnd := rfl
@[simp] theorem State.setFlags_pending (s : State) (a : AluOut) : (s.setFlags a).pending = s.pending := rfl
@[simp] theorem State.setFlags_mem (s : State) (a : AluOut) : (s.setFlags a).mem = s.mem := rfl
@[simp] theorem State.setFlags_refill (s : State) (a : AluOut) : (s.setFlags a).refill = s.refill := rfl
@[simp] theorem State.setFlags_cycles (s : State) (a : AluOut) : (s.setFlags a).cycles = s.cycles := rfl
@[simp] theorem State.setFlags_calls (s : State) (a : AluOut) : (s.setFlags a).calls = s.calls := rfl
@[simp] theorem State.setFlags_params (s : State) (a : AluOut) : (s.setFlags a).params = s.params := rfl
@[simp] theorem State.setFlags_irqLine (s : State) (a : AluOut) : (s.setFlags a).irqLine = s.irqLine := rfl
@[simp] theorem State.setFlags_draws (s : State) (a : AluOut) : (s.setFlags a).draws = s.draws := rfl

/-! ### `State.setNZ` -/

@[simp] theorem State.setNZ_regs (s : State) (n z : Bool) : (s.setNZ n z).regs = s.regs := rfl
@[simp] theorem State.setNZ_pc (s : State) (n z : Bool) : (s.setNZ n z).pc = s.pc := rfl
@[simp] theorem State.setNZ_cpsr (s : State) (n z : Bool) : (s.setNZ n z).cpsr = withNZ s.cpsr n z := rfl
@[simp] theorem State.setNZ_spsrFiq (s : State) (n z : Bool) : (s.setNZ n z).spsrFiq = s.spsrFiq := rfl
@[simp] theorem State.setNZ_spsrIrq (s : State) (n z : Bool) : (s.setNZ n z).spsrIrq = s.spsrIrq := rfl
@[simp] theorem State.setNZ_spsrSvc (s : State) (n z : Bool) : (s.setNZ n z).spsrSvc = s.spsrSvc := rfl
@[simp] theorem State.setNZ_spsrAbt (s : State) (n z : Bool) : (s.setNZ n z).spsrAbt = s.spsrAbt := rfl
@[simp] theorem State.setNZ_spsrUnd (s : State) (n z : Bool) : (s.setNZ n z).spsrUnd = s.spsrUnd := rfl
@[simp] theorem State.setNZ_pending (s : State) (n z : Bool) : (s.setNZ n z).pending = s.pending := rfl
@[simp] theorem State.setNZ_mem (s : State) (n z : Bool) : (s.setNZ n z).mem = s.mem := rfl
@[simp] theorem State.setNZ_refill (s : State) (n z : Bool) : (s.setNZ n z).refill = s.refill := rfl
@[simp] theorem State.setNZ_cycles (s : State) (n z : Bool) : (s.setNZ n z).cycles = s.cycles := rfl
@[simp] theorem State.setNZ_calls (s : State) (n z : Bool) : (s.setNZ n z).calls = s.calls := rfl
@[simp] theorem State.setNZ_params (s : State) (n z : Bool) : (s.setNZ n z).params = s.params := rfl
@[simp] theorem State.setNZ_irqLine (s : State) (n z : Bool) : (s.setNZ n z).irqLine = s.irqLine := rfl
@[simp] theorem State.setNZ_draws (s : State) (n z : Bool) : (s.setNZ n z).draws = s.draws := rfl

/-! ### `State.finish` -/

@[simp] theorem State.finish_regs (s : State) (start : State) (base : Nat) (xs : List Access) :
    (start.finish base xs s).regs = s.regs := rfl
@[simp] theorem State.finish_pc (s : State) (start : State) (base : Nat) (xs : List Access) :
    (start.finish base xs s).pc = if s.refill then s.pc else start.pc + 4#32 := rfl
@[simp] theorem State.finish_cpsr (s : State) (start : State) (base : Nat) (xs : List Access) :
    (start.finish base xs s).cpsr = s.cpsr := rfl
@[simp] theorem State.finish_spsrFiq (s : State) (start : State) (base : Nat) (xs : List Access) :
    (start.finish base xs s).spsrFiq = s.spsrFiq := rfl
@[simp] theorem State.finish_spsrIrq (s : State) (start : State) (base : Nat) (xs : List Access) :
    (start.finish base xs s).spsrIrq = s.spsrIrq := rfl
@[simp] theorem State.finish_spsrSvc (s : State) (start : State) (base : Nat) (xs : List Access) :
    (start.finish base xs s).spsrSvc = s.spsrSvc := rfl
@[simp] theorem State.finish_spsrAbt (s : State) (start : State) (base : Nat) (xs : List Access) :
    (start.finish base xs s).spsrAbt = s.spsrAbt := rfl
@[simp] theorem State.finish_spsrUnd (s : State) (start : State) (base : Nat) (xs : List Access) :
    (start.finish base xs s).spsrUnd = s.spsrUnd := rfl
@[simp] theorem State.finish_pending (s : State) (start : State) (base : Nat) (xs : List Access) :
    (start.finish base xs s).pending = s.pending := rfl
@[simp] theorem State.finish_mem (s : State) (start : State) (base : Nat) (xs : List Access) :
    (start.finish base xs s).mem = s.mem := rfl
@[simp] theorem State.finish_refill (s : State) (start : State) (base : Nat) (xs : List Access) :
    (start.finish base xs s).refill = s.refill := rfl
@[simp] theorem State.finish_cycles (s : State) (start : State) (base : Nat) (xs : List Access) :
    (start.finish base xs s).cycles = base + (if s.refill then 2 else 0) + busCost start.params (⟨start.pc, .word⟩ :: xs) := rfl
@[simp] theorem State.finish_calls (s : State) (start : State) (base : Nat) (xs : List Access) :
    (start.finish base xs s).calls = s.calls := rfl
@[simp] theorem State.finish_params (s : State) (start : State) (base : Nat) (xs : List Access) :
    (start.finish base xs s).params = s.params := rfl
@[simp] theorem State.finish_irqLine (s : State) (start : State) (base : Nat) (xs : List Access) :
    (start.finish base xs s).irqLine = s.irqLine := rfl
@[simp] theorem State.finish_draws (s : State) (start : State) (base : Nat) (xs : List Access) :
    (start.finish base xs s).draws = s.draws := rfl

/-! ### `State.afterFetch` -/

@[simp] theorem State.afterFetch_regs (s : State) : s.afterFetch.regs = s.regs := rfl
@[simp] theorem State.afterFetch_pc (s : State) : s.afterFetch.pc = s.pc := rfl
@[simp] theorem State.afterFetch_cpsr (s : State) : s.afterFetch.cpsr = s.cpsr := rfl
@[simp] theorem State.afterFetch_spsrFiq (s : State) : s.afterFetch.spsrFiq = s.spsrFiq := rfl
@[simp] theorem State.afterFetch_spsrIrq (s : State) : s.afterFetch.spsrIrq = s.spsrIrq := rfl
@[simp] theorem State.afterFetch_spsrSvc (s : State) : s.afterFetch.spsrSvc = s.spsrSvc := rfl
@[simp] theorem State.afterFetch_spsrAbt (s : State) : s.afterFetch.spsrAbt = s.spsrAbt := rfl
@[simp] theorem State.afterFetch_spsrUnd (s : State) : s.afterFetch.spsrUnd = s.spsrUnd := rfl
@[simp] theorem State.afterFetch_pending (s : State) : s.afterFetch.pending = s.pending := rfl
@[simp] theorem State.afterFetch_mem (s : State) : s.afterFetch.mem = s.mem := rfl
@[simp] theorem State.afterFetch_refill (s : State) : s.afterFetch.refill = s.refill := rfl
@[simp] theorem State.afterFetch_cycles (s : State) : s.afterFetch.cycles = s.cycles := rfl
@[simp] theorem State.afterFetch_calls (s : State) : s.afterFetch.calls = s.calls := rfl
@[simp] theorem State.afterFetch_params (s : State) : s.afterFetch.params = s.params := rfl
@[simp] theorem State.afterFetch_irqLine (s : State) : s.afterFetch.irqLine = s.irqLine := rfl
@[simp] theorem State.afterFetch_draws (s : State) : s.afterFetch.draws = s.draws + 1 := rfl

/-! ### `State.endStep` -/

@[simp] theorem State.endStep_regs (s : State) : s.endStep.regs = s.regs := rfl
@[simp] theorem State.endStep_pc (s : State) : s.endStep.pc = s.pc := rfl
@[simp] theorem State.endStep_cpsr (s : State) : s.endStep.cpsr = s.cpsr := rfl
@[simp] theorem State.endStep_spsrFiq (s : State) : s.endStep.spsrFiq = s.spsrFiq := rfl
@[simp] theorem State.endStep_spsrIrq (s : State) : s.endStep.spsrIrq = s.spsrIrq := rfl
@[simp] theorem State.endStep_spsrSvc (s : State) : s.endStep.spsrSvc = s.spsrSvc := rfl
@[simp] theorem State.endStep_spsrAbt (s : State) : s.endStep.spsrAbt = s.spsrAbt := rfl
@[simp] theorem State.endStep_spsrUnd (s : State) : s.endStep.spsrUnd = s.spsrUnd := rfl
@[simp] theorem State.endStep_pending (s : State) : s.endStep.pending = s.pending := rfl
@[simp] theorem State.endStep_mem (s : State) : s.endStep.mem = s.mem := rfl
@[simp] theorem State.endStep_refill (s : State) : s.endStep.refill = s.refill := rfl
@[simp] theorem State.endStep_cycles (s : State) : s.endStep.cycles = s.cycles := rfl
@[simp] theorem State.endStep_calls (s : State) : s.endStep.calls = s.calls := rfl
@[simp] theorem State.endStep_params (s : State) : s.endStep.params = s.params := rfl
@[simp] theorem State.endStep_irqLine (s : State) : s.endStep.irqLine = Config.irqLine (s.draws + 1) := rfl
@[simp] theorem State.endStep_draws (s : State) : s.endStep.draws = s.draws + 1 := rfl

end Sys2Proof.Machine
end

