-- ==== Sys2Proof/Laws/Memory.lean ====
section
/-! SUPPORT. The list of stored bytes: a byte read after a write, and that every memory operation keeps the canonical form. -/

namespace Sys2Proof.Machine

/-! ### The canonical form -/

theorem Memory.wfFrom_cons {lo k : Nat} {b : Byte} {m : Memory} :
    Memory.wfFrom lo ((k, b) :: m) = true ↔
      lo ≤ k ∧ isStored k = true ∧ resting k ≠ some b ∧ Memory.wfFrom (k + 1) m = true := by
  simp [Memory.wfFrom, and_assoc]

theorem Memory.wfFrom_mono {lo lo' : Nat} (h : lo' ≤ lo) : ∀ {m : Memory}, Memory.wfFrom lo m = true → Memory.wfFrom lo' m = true
  | [], _ => rfl
  | (_, _) :: _, hm => by
    obtain ⟨h1, h2⟩ := Memory.wfFrom_cons.mp hm
    exact Memory.wfFrom_cons.mpr ⟨h.trans h1, h2⟩

/-- No key below the bound is listed. -/
theorem Memory.lookup_of_lt {key : Nat} : ∀ {m : Memory} {lo : Nat}, Memory.wfFrom lo m = true → key < lo → m.lookup key = none
  | [], _, _, _ => rfl
  | (k, b) :: m, lo, hm, hk => by
    obtain ⟨h1, -, -, h2⟩ := Memory.wfFrom_cons.mp hm
    have : k ≠ key := by omega
    simp only [Memory.lookup, if_neg this]
    exact Memory.lookup_of_lt h2 (by omega)

theorem Memory.wfFrom_erase {key : Nat} : ∀ {m : Memory} {lo : Nat}, Memory.wfFrom lo m = true → Memory.wfFrom lo (m.erase key) = true
  | [], _, _ => rfl
  | (k, b) :: m, lo, hm => by
    obtain ⟨h1, h2, h3, h4⟩ := Memory.wfFrom_cons.mp hm
    unfold Memory.erase
    split
    · exact Memory.wfFrom_mono (by omega) h4
    · exact Memory.wfFrom_cons.mpr ⟨h1, h2, h3, Memory.wfFrom_erase h4⟩

theorem Memory.wfFrom_insert {key : Nat} {b : Byte} (hs : isStored key = true) (hr : resting key ≠ some b) :
    ∀ {m : Memory} {lo : Nat}, Memory.wfFrom lo m = true → lo ≤ key → Memory.wfFrom lo (m.insert key b) = true
  | [], _, _, hk => Memory.wfFrom_cons.mpr ⟨hk, hs, hr, rfl⟩
  | (k, b') :: m, lo, hm, hk => by
    obtain ⟨h1, h2, h3, h4⟩ := Memory.wfFrom_cons.mp hm
    unfold Memory.insert
    split
    · exact Memory.wfFrom_cons.mpr ⟨hk, hs, hr, Memory.wfFrom_cons.mpr ⟨by omega, h2, h3, h4⟩⟩
    · split
      · next e => subst e; exact Memory.wfFrom_cons.mpr ⟨hk, hs, hr, h4⟩
      · exact Memory.wfFrom_cons.mpr ⟨h1, h2, h3, Memory.wfFrom_insert hs hr h4 (by omega)⟩

/-- Storing a byte keeps the canonical form. -/
theorem Memory.wf_put {m : Memory} (hm : m.wf = true) (key : Nat) (b : Byte) : (m.put key b).wf = true := by
  unfold Memory.put
  split
  · exact hm
  · next hs =>
    split
    · exact Memory.wfFrom_erase hm
    · next hr => exact Memory.wfFrom_insert (by simpa using hs) hr hm (Nat.zero_le _)

@[simp] theorem Memory.wf_nil : Memory.wf [] = true := rfl

/-! ### Lookups -/

theorem Memory.lookup_insert (m : Memory) (k key : Nat) (b : Byte) :
    (m.insert k b).lookup key = if k = key then some b else m.lookup key := by
  induction m with
  | nil => simp [Memory.insert, Memory.lookup]
  | cons x m ih =>
    obtain ⟨k', b'⟩ := x
    unfold Memory.insert
    split
    · simp [Memory.lookup]
    · split
      · next e => subst e; by_cases h : k = key <;> simp [Memory.lookup, h]
      · next hne =>
        by_cases h : k' = key
        · have : k ≠ key := by omega
          simp [Memory.lookup, h, this]
        · simp [Memory.lookup, h, ih]

theorem Memory.lookup_erase_ne (m : Memory) {k key : Nat} (h : k ≠ key) : (m.erase k).lookup key = m.lookup key := by
  induction m with
  | nil => rfl
  | cons x m ih =>
    obtain ⟨k', b'⟩ := x
    unfold Memory.erase
    split
    · next e => subst e; simp [Memory.lookup, h]
    · simp [Memory.lookup, ih]

theorem Memory.lookup_erase_same {key : Nat} : ∀ {m : Memory} {lo : Nat}, Memory.wfFrom lo m = true → (m.erase key).lookup key = none
  | [], _, _ => rfl
  | (k, b) :: m, lo, hm => by
    obtain ⟨-, -, -, h4⟩ := Memory.wfFrom_cons.mp hm
    unfold Memory.erase
    split
    · next e => subst e; exact Memory.lookup_of_lt h4 (by omega)
    · next e => simp only [Memory.lookup, if_neg e]; exact Memory.lookup_erase_same h4

/-- Storing at one address leaves the byte at every other. -/
theorem Memory.lookup_put_ne (m : Memory) {k key : Nat} (h : k ≠ key) (b : Byte) : (m.put k b).lookup key = m.lookup key := by
  unfold Memory.put
  split
  · rfl
  · split
    · exact m.lookup_erase_ne h
    · rw [m.lookup_insert, if_neg h]

/-- A listed byte is at an address that has a store. -/
theorem Memory.isStored_of_lookup {key : Nat} {b : Byte} : ∀ {m : Memory} {lo : Nat}, Memory.wfFrom lo m = true →
    m.lookup key = some b → isStored key = true
  | (k, b') :: m, lo, hm, h => by
    obtain ⟨-, h2, -, h4⟩ := Memory.wfFrom_cons.mp hm
    unfold Memory.lookup at h
    split at h
    · next e => exact e ▸ h2
    · exact Memory.isStored_of_lookup h4 h

/-! ### The core-owned part and the cartridge's (rule R408) -/

theorem Memory.lookup_append {m n : Memory} (key : Nat) :
    (m ++ n : Memory).lookup key = (m.lookup key).or (n.lookup key) := by
  induction m with
  | nil => rfl
  | cons x m ih =>
    obtain ⟨k, b⟩ := x
    simp only [List.cons_append, Memory.lookup]
    split
    · rfl
    · exact ih

/-- A part of the list chosen by address keeps the canonical form. -/
theorem Memory.wfFrom_filter (p : Nat → Bool) : ∀ {m : Memory} {lo : Nat}, Memory.wfFrom lo m = true →
    Memory.wfFrom lo (m.filter fun x => p x.1) = true
  | [], _, _ => rfl
  | (k, b) :: m, lo, hm => by
    obtain ⟨h1, h2, h3, h4⟩ := Memory.wfFrom_cons.mp hm
    rw [List.filter_cons]
    split
    · exact Memory.wfFrom_cons.mpr ⟨h1, h2, h3, Memory.wfFrom_filter p h4⟩
    · exact Memory.wfFrom_mono (by omega) (Memory.wfFrom_filter p h4)

theorem Memory.lookup_filter (p : Nat → Bool) (m : Memory) (key : Nat) :
    Memory.lookup (m.filter fun x => p x.1) key = if p key then m.lookup key else none := by
  induction m with
  | nil => simp [Memory.lookup]
  | cons x m ih =>
    obtain ⟨k, b⟩ := x
    rw [List.filter_cons]
    by_cases hk : k = key
    · subst hk; by_cases hp : p k = true <;> simp [hp, Memory.lookup, ih]
    · by_cases hp : p k = true <;> simp [hp, hk, Memory.lookup, ih]

theorem isCoreOwned_iff (k : Nat) : isCoreOwned k = true ↔ k < Region.cartRom.block := by simp [isCoreOwned]

/-- Core-owned bytes, then bytes of the cartridge, are in canonical form. -/
theorem Memory.wfFrom_append : ∀ {m n : Memory} {lo : Nat}, Memory.wfFrom lo m = true → lo ≤ Region.cartRom.block →
    (∀ x ∈ m, isCoreOwned x.1 = true) → Memory.wfFrom Region.cartRom.block n = true → Memory.wfFrom lo (m ++ n) = true
  | [], _, _, _, hlo, _, hn => Memory.wfFrom_mono hlo hn
  | (k, b) :: m, _, lo, hm, _, hc, hn => by
    obtain ⟨h1, h2, h3, h4⟩ := Memory.wfFrom_cons.mp hm
    have hk := (isCoreOwned_iff k).mp (hc _ List.mem_cons_self)
    exact Memory.wfFrom_cons.mpr ⟨h1, h2, h3,
      Memory.wfFrom_append h4 (by omega) (fun x hx => hc x (List.mem_cons_of_mem _ hx)) hn⟩

/-- The cartridge's bytes lie above every core-owned one. -/
theorem Memory.wfFrom_cartridge : ∀ {m : Memory} {lo : Nat}, Memory.wfFrom lo m = true →
    Memory.wfFrom Region.cartRom.block m.cartridge = true
  | [], _, _ => rfl
  | (k, b) :: m, lo, hm => by
    obtain ⟨-, h2, h3, h4⟩ := Memory.wfFrom_cons.mp hm
    have ih := Memory.wfFrom_filter (fun k => !isCoreOwned k) h4
    unfold Memory.cartridge
    rw [List.filter_cons]
    split
    · next hp =>
      have : ¬ k < Region.cartRom.block := fun h => by simp [(isCoreOwned_iff k).mpr h] at hp
      exact Memory.wfFrom_cons.mpr ⟨by omega, h2, h3, ih⟩
    · exact Memory.wfFrom_cartridge h4

/-- Putting one memory's core-owned bytes before another's cartridge keeps the canonical form. -/
theorem Memory.wf_restore {m n : Memory} (hm : m.wf = true) (hn : n.wf = true) : (m.coreOwned ++ n.cartridge : Memory).wf = true :=
  Memory.wfFrom_append (Memory.wfFrom_filter _ hm) (Nat.zero_le _) (fun _ hx => by simpa using (List.mem_filter.mp hx).2)
    (Memory.wfFrom_cartridge hn)

/-- What a restored memory holds: the snapshot's bytes in the core-owned stores, its own elsewhere. -/
theorem Memory.lookup_restore (m n : Memory) (key : Nat) :
    (m.coreOwned ++ n.cartridge : Memory).lookup key = if isCoreOwned key then m.lookup key else n.lookup key := by
  rw [Memory.lookup_append]
  unfold Memory.coreOwned Memory.cartridge
  rw [Memory.lookup_filter, Memory.lookup_filter (fun k => !isCoreOwned k)]
  cases isCoreOwned key <;> simp

/-! ### Bytes of the state -/

theorem State.storedByte_congr {s t : State} (hm : t.mem = s.mem) (hd : t.draws = s.draws) (k : Nat) :
    t.storedByte k = s.storedByte k := by
  unfold State.storedByte; rw [hm, hd]

/-- A stored byte reads back. -/
theorem State.storedByte_store_same {s : State} (hm : s.mem.wf = true) {k : Nat} (hk : isStored k = true) (b : Byte) :
    (s.store k b).storedByte k = b := by
  simp only [State.storedByte, State.store_mem, State.store_draws, Memory.put, hk]
  by_cases hr : resting k = some b
  · simp [hr, Memory.lookup_erase_same hm]
  · simp [hr, Memory.lookup_insert]

theorem State.storedByte_store_ne (s : State) {k key : Nat} (h : k ≠ key) (b : Byte) :
    (s.store k b).storedByte key = s.storedByte key := by
  simp only [State.storedByte, State.store_mem, State.store_draws, Memory.lookup_put_ne _ h]

end Sys2Proof.Machine
end

