-- ==== Sys2Proof/Laws/Registers.lean ====
section
/-! SUPPORT. The register file, the banked views and the saved status registers: read after write, and what each write
leaves alone (10_state.md rules R34, R35, R37, R46, R47). -/

namespace Sys2Proof.Machine

/-! ### Modes -/

@[simp] theorem Mode.ofBits_bits (m : Mode) : Mode.ofBits m.bits = some m := by cases m <;> rfl

theorem Mode.bits_of_ofBits {b : BitVec 5} {m : Mode} (h : Mode.ofBits b = some m) : m.bits = b := by
  revert b; cases m <;> decide

theorem Mode.bits_injective {m n : Mode} (h : m.bits = n.bits) : m = n := by
  revert h; cases m <;> cases n <;> decide

/-! ### The register file -/

@[simp] theorem RegFile.get_set_same (r : RegFile) (p : PhysReg) (v : Word) : (r.set p v).get p = v := by
  cases p <;> simp [RegFile.get, RegFile.set]

/-- Banks are independent storage (rule R35). -/
theorem RegFile.get_set_ne (r : RegFile) {p q : PhysReg} (h : p ≠ q) (v : Word) : (r.set p v).get q = r.get q := by
  cases p <;> cases q <;> simp only [RegFile.get, RegFile.set] <;>
    (rename_i i j; refine Vector.getElem_set_ne _ _ ?_; intro e; exact h (by rw [Fin.ext e]))

theorem RegFile.get_set (r : RegFile) (p q : PhysReg) (v : Word) :
    (r.set p v).get q = if p = q then v else r.get q := by
  split
  · next h => subst h; simp
  · next h => exact r.get_set_ne h v

/-! ### Views -/

theorem view_eq_none {m : Mode} {i : Reg} : view m i = none ↔ i = 15 := by
  revert i; cases m <;> decide

theorem view_fifteen (m : Mode) : view m 15 = none := by cases m <;> rfl

/-- A view names each of its registers once. -/
theorem view_injective {m : Mode} {i j : Reg} (h : view m i = view m j) : i = j := by
  revert i j; cases m <;> decide

theorem view_isSome {m : Mode} {i : Reg} (h : i ≠ 15) : ∃ p, view m i = some p :=
  Option.ne_none_iff_exists'.mp (fun e => h (view_eq_none.mp e))

/-- The User and System views are one (rule R34). -/
theorem view_sys (i : Reg) : view .sys i = view .usr i := by revert i; decide

/-! ### Reads and writes of a view -/

theorem State.setReg_of_view {s : State} {m : Mode} {i : Reg} {p : PhysReg} (h : view m i = some p) (v : Word) :
    s.setReg m i v = { s with regs := s.regs.set p v } := by simp [State.setReg, h]

theorem State.setReg_fifteen (s : State) (m : Mode) (v : Word) : s.setReg m 15 v = { s with pc := v } := by
  simp [State.setReg, view_fifteen]

theorem State.reg_fifteen (s : State) (m : Mode) : s.reg m 15 = s.pc := by simp [State.reg, view_fifteen]

theorem State.reg_of_view {s : State} {m : Mode} {i : Reg} {p : PhysReg} (h : view m i = some p) :
    s.reg m i = s.regs.get p := by simp [State.reg, h]

@[simp] theorem State.reg_setReg_same (s : State) (m : Mode) (i : Reg) (v : Word) : (s.setReg m i v).reg m i = v := by
  unfold State.setReg State.reg; cases view m i <;> simp

theorem State.reg_setReg_ne (s : State) (m : Mode) {i j : Reg} (h : i ≠ j) (v : Word) :
    (s.setReg m i v).reg m j = s.reg m j := by
  unfold State.setReg State.reg
  rcases hi : view m i with - | p <;> rcases hj : view m j with - | q
  · exact absurd (view_injective (hi.trans hj.symm)) h
  · rfl
  · rfl
  · exact RegFile.get_set_ne _ (fun e => h (view_injective (by rw [hi, hj, e]))) v

/-- A write of a view leaves every physical register but its own (rule R35). -/
theorem State.get_setReg (s : State) (m : Mode) (i : Reg) (v : Word) (p : PhysReg) :
    (s.setReg m i v).regs.get p = if view m i = some p then v else s.regs.get p := by
  unfold State.setReg
  rcases hi : view m i with - | q
  · simp
  · simp [RegFile.get_set]

theorem State.setReg_pc {m : Mode} {i : Reg} (h : i ≠ 15) (s : State) (v : Word) : (s.setReg m i v).pc = s.pc := by
  obtain ⟨p, hp⟩ := view_isSome (m := m) h
  rw [State.setReg_of_view hp]

@[simp] theorem State.setReg_cpsr (s : State) (m : Mode) (i : Reg) (v : Word) :
    (s.setReg m i v).cpsr = s.cpsr := by unfold State.setReg; split <;> rfl
@[simp] theorem State.setReg_spsrFiq (s : State) (m : Mode) (i : Reg) (v : Word) :
    (s.setReg m i v).spsrFiq = s.spsrFiq := by unfold State.setReg; split <;> rfl
@[simp] theorem State.setReg_spsrIrq (s : State) (m : Mode) (i : Reg) (v : Word) :
    (s.setReg m i v).spsrIrq = s.spsrIrq := by unfold State.setReg; split <;> rfl
@[simp] theorem State.setReg_spsrSvc (s : State) (m : Mode) (i : Reg) (v : Word) :
    (s.setReg m i v).spsrSvc = s.spsrSvc := by unfold State.setReg; split <;> rfl
@[simp] theorem State.setReg_spsrAbt (s : State) (m : Mode) (i : Reg) (v : Word) :
    (s.setReg m i v).spsrAbt = s.spsrAbt := by unfold State.setReg; split <;> rfl
@[simp] theorem State.setReg_spsrUnd (s : State) (m : Mode) (i : Reg) (v : Word) :
    (s.setReg m i v).spsrUnd = s.spsrUnd := by unfold State.setReg; split <;> rfl
@[simp] theorem State.setReg_pending (s : State) (m : Mode) (i : Reg) (v : Word) :
    (s.setReg m i v).pending = s.pending := by unfold State.setReg; split <;> rfl
@[simp] theorem State.setReg_mem (s : State) (m : Mode) (i : Reg) (v : Word) :
    (s.setReg m i v).mem = s.mem := by unfold State.setReg; split <;> rfl
@[simp] theorem State.setReg_refill (s : State) (m : Mode) (i : Reg) (v : Word) :
    (s.setReg m i v).refill = s.refill := by unfold State.setReg; split <;> rfl
@[simp] theorem State.setReg_cycles (s : State) (m : Mode) (i : Reg) (v : Word) :
    (s.setReg m i v).cycles = s.cycles := by unfold State.setReg; split <;> rfl
@[simp] theorem State.setReg_calls (s : State) (m : Mode) (i : Reg) (v : Word) :
    (s.setReg m i v).calls = s.calls := by unfold State.setReg; split <;> rfl
@[simp] theorem State.setReg_params (s : State) (m : Mode) (i : Reg) (v : Word) :
    (s.setReg m i v).params = s.params := by unfold State.setReg; split <;> rfl
@[simp] theorem State.setReg_irqLine (s : State) (m : Mode) (i : Reg) (v : Word) :
    (s.setReg m i v).irqLine = s.irqLine := by unfold State.setReg; split <;> rfl
@[simp] theorem State.setReg_draws (s : State) (m : Mode) (i : Reg) (v : Word) :
    (s.setReg m i v).draws = s.draws := by unfold State.setReg; split <;> rfl

/-! ### Saved status registers -/

@[simp] theorem State.setSpsr_regs (s : State) (m : Mode) (v : Word) : (s.setSpsr m v).regs = s.regs := by
  cases m <;> rfl
@[simp] theorem State.setSpsr_pc (s : State) (m : Mode) (v : Word) : (s.setSpsr m v).pc = s.pc := by
  cases m <;> rfl
@[simp] theorem State.setSpsr_cpsr (s : State) (m : Mode) (v : Word) : (s.setSpsr m v).cpsr = s.cpsr := by
  cases m <;> rfl
@[simp] theorem State.setSpsr_pending (s : State) (m : Mode) (v : Word) : (s.setSpsr m v).pending = s.pending := by
  cases m <;> rfl
@[simp] theorem State.setSpsr_mem (s : State) (m : Mode) (v : Word) : (s.setSpsr m v).mem = s.mem := by
  cases m <;> rfl
@[simp] theorem State.setSpsr_refill (s : State) (m : Mode) (v : Word) : (s.setSpsr m v).refill = s.refill := by
  cases m <;> rfl
@[simp] theorem State.setSpsr_cycles (s : State) (m : Mode) (v : Word) : (s.setSpsr m v).cycles = s.cycles := by
  cases m <;> rfl
@[simp] theorem State.setSpsr_calls (s : State) (m : Mode) (v : Word) : (s.setSpsr m v).calls = s.calls := by
  cases m <;> rfl
@[simp] theorem State.setSpsr_params (s : State) (m : Mode) (v : Word) : (s.setSpsr m v).params = s.params := by
  cases m <;> rfl
@[simp] theorem State.setSpsr_irqLine (s : State) (m : Mode) (v : Word) : (s.setSpsr m v).irqLine = s.irqLine := by
  cases m <;> rfl
@[simp] theorem State.setSpsr_draws (s : State) (m : Mode) (v : Word) : (s.setSpsr m v).draws = s.draws := by
  cases m <;> rfl

/-- A write of an SPSR is read back in a mode that owns one, and changes no other (rules R46, R47). -/
theorem State.spsrOf_setSpsr (s : State) (m n : Mode) (v : Word) :
    (s.setSpsr m v).spsrOf n = if m = n ∧ m.hasSpsr then v else s.spsrOf n := by
  cases m <;> cases n <;> rfl

/-- USR and SYS own no SPSR (rule R47). -/
theorem State.setSpsr_of_no_spsr (s : State) {m : Mode} (h : m.hasSpsr = false) (v : Word) : s.setSpsr m v = s := by
  cases m <;> first | rfl | cases h

theorem State.spsrOf_of_no_spsr (s : State) {m : Mode} (h : m.hasSpsr = false) : s.spsrOf m = 0 := by
  cases m <;> first | rfl | cases h

/-! ### What the mode depends on -/

theorem State.mode_congr {s t : State} (h : t.cpsr = s.cpsr) : t.mode = s.mode := by
  simp [State.mode, State.mode?, h]

theorem State.reg_congr {s t : State} (hr : t.regs = s.regs) (hp : t.pc = s.pc) (m : Mode) (i : Reg) :
    t.reg m i = s.reg m i := by
  unfold State.reg; rw [hr, hp]

theorem State.spsrOf_congr {s t : State} (h1 : t.spsrFiq = s.spsrFiq) (h2 : t.spsrIrq = s.spsrIrq)
    (h3 : t.spsrSvc = s.spsrSvc) (h4 : t.spsrAbt = s.spsrAbt) (h5 : t.spsrUnd = s.spsrUnd) (m : Mode) :
    t.spsrOf m = s.spsrOf m := by
  cases m <;> simp [State.spsrOf, *]

end Sys2Proof.Machine
end

