-- ==== Sys2Proof/Laws/Bus.lean ====
section
/-! SUPPORT. The bus: which fields an access can change, the byte read after a write, and the frame of the wide writes
(20_memory.md rules R83 to R103). -/

namespace Sys2Proof

/-- The regions whose bytes a program may store at every offset (rule R88). -/
def Region.plain : Region → Bool
  | .ewram | .iwram | .pal | .vram | .oam => true
  | _ => false

theorem Region.number_inj {r q : Region} (h : r.number = q.number) : r = q := by
  revert h; cases r <;> cases q <;> decide

end Sys2Proof

namespace Sys2Proof.Machine

/-! ### Regions and store addresses -/

theorem offsetOf_lt (m : RegionMap) (a : Word) : offsetOf m a < 0x100000000 := by
  have := a.isLt
  unfold offsetOf
  split
  · exact (Nat.mod_le _ _).trans_lt (by omega)
  · decide

/-- A store address determines the region and the offset. -/
theorem physOf_inj {m : RegionMap} {a b : Word} (h : physOf m a = physOf m b) :
    regionOf m a = regionOf m b ∧ offsetOf m a = offsetOf m b := by
  have := offsetOf_lt m a
  have := offsetOf_lt m b
  unfold physOf Region.block at h
  exact ⟨Region.number_inj (by omega), by omega⟩

theorem isStored_iff (k : Nat) : isStored k = true ↔
    (k / 0x100000000 = 0 ∨ 2 ≤ k / 0x100000000 ∧ k / 0x100000000 ≤ 8) ∧ k ≠ 0x400000202 ∧ k ≠ 0x400000203 := by
  simp [isStored, Region.block, Region.number, and_assoc]

theorem isStored_of_plain {m : RegionMap} {a : Word} (h : (regionOf m a).plain = true) : isStored (physOf m a) = true := by
  have ho := offsetOf_lt m a
  rw [isStored_iff]
  unfold physOf
  cases hr : regionOf m a <;> rw [hr] at h <;>
    first | (exact absurd h (by decide)) | (simp only [Region.block, Region.number]; omega)

/-! ### Which fields a bus write changes -/


@[simp] theorem State.write8_regs (s : State) (a : Word) (b : Byte) : (s.write8 a b).regs = s.regs := by
  unfold State.write8; repeat' split
  all_goals rfl
@[simp] theorem State.write8_pc (s : State) (a : Word) (b : Byte) : (s.write8 a b).pc = s.pc := by
  unfold State.write8; repeat' split
  all_goals rfl
@[simp] theorem State.write8_cpsr (s : State) (a : Word) (b : Byte) : (s.write8 a b).cpsr = s.cpsr := by
  unfold State.write8; repeat' split
  all_goals rfl
@[simp] theorem State.write8_spsrFiq (s : State) (a : Word) (b : Byte) : (s.write8 a b).spsrFiq = s.spsrFiq := by
  unfold State.write8; repeat' split
  all_goals rfl
@[simp] theorem State.write8_spsrIrq (s : State) (a : Word) (b : Byte) : (s.write8 a b).spsrIrq = s.spsrIrq := by
  unfold State.write8; repeat' split
  all_goals rfl
@[simp] theorem State.write8_spsrSvc (s : State) (a : Word) (b : Byte) : (s.write8 a b).spsrSvc = s.spsrSvc := by
  unfold State.write8; repeat' split
  all_goals rfl
@[simp] theorem State.write8_spsrAbt (s : State) (a : Word) (b : Byte) : (s.write8 a b).spsrAbt = s.spsrAbt := by
  unfold State.write8; repeat' split
  all_goals rfl
@[simp] theorem State.write8_spsrUnd (s : State) (a : Word) (b : Byte) : (s.write8 a b).spsrUnd = s.spsrUnd := by
  unfold State.write8; repeat' split
  all_goals rfl
@[simp] theorem State.write8_refill (s : State) (a : Word) (b : Byte) : (s.write8 a b).refill = s.refill := by
  unfold State.write8; repeat' split
  all_goals rfl
@[simp] theorem State.write8_cycles (s : State) (a : Word) (b : Byte) : (s.write8 a b).cycles = s.cycles := by
  unfold State.write8; repeat' split
  all_goals rfl
@[simp] theorem State.write8_params (s : State) (a : Word) (b : Byte) : (s.write8 a b).params = s.params := by
  unfold State.write8; repeat' split
  all_goals rfl
@[simp] theorem State.write8_irqLine (s : State) (a : Word) (b : Byte) : (s.write8 a b).irqLine = s.irqLine := by
  unfold State.write8; repeat' split
  all_goals rfl
@[simp] theorem State.write8_draws (s : State) (a : Word) (b : Byte) : (s.write8 a b).draws = s.draws := by
  unfold State.write8; repeat' split
  all_goals rfl
@[simp] theorem State.write16_regs (s : State) (a : Word) (v : Half) : (s.write16 a v).regs = s.regs := by
  simp [State.write16, apply_ite State.regs]
@[simp] theorem State.write16_pc (s : State) (a : Word) (v : Half) : (s.write16 a v).pc = s.pc := by
  simp [State.write16, apply_ite State.pc]
@[simp] theorem State.write16_cpsr (s : State) (a : Word) (v : Half) : (s.write16 a v).cpsr = s.cpsr := by
  simp [State.write16, apply_ite State.cpsr]
@[simp] theorem State.write16_spsrFiq (s : State) (a : Word) (v : Half) : (s.write16 a v).spsrFiq = s.spsrFiq := by
  simp [State.write16, apply_ite State.spsrFiq]
@[simp] theorem State.write16_spsrIrq (s : State) (a : Word) (v : Half) : (s.write16 a v).spsrIrq = s.spsrIrq := by
  simp [State.write16, apply_ite State.spsrIrq]
@[simp] theorem State.write16_spsrSvc (s : State) (a : Word) (v : Half) : (s.write16 a v).spsrSvc = s.spsrSvc := by
  simp [State.write16, apply_ite State.spsrSvc]
@[simp] theorem State.write16_spsrAbt (s : State) (a : Word) (v : Half) : (s.write16 a v).spsrAbt = s.spsrAbt := by
  simp [State.write16, apply_ite State.spsrAbt]
@[simp] theorem State.write16_spsrUnd (s : State) (a : Word) (v : Half) : (s.write16 a v).spsrUnd = s.spsrUnd := by
  simp [State.write16, apply_ite State.spsrUnd]
@[simp] theorem State.write16_refill (s : State) (a : Word) (v : Half) : (s.write16 a v).refill = s.refill := by
  simp [State.write16, apply_ite State.refill]
@[simp] theorem State.write16_cycles (s : State) (a : Word) (v : Half) : (s.write16 a v).cycles = s.cycles := by
  simp [State.write16, apply_ite State.cycles]
@[simp] theorem State.write16_params (s : State) (a : Word) (v : Half) : (s.write16 a v).params = s.params := by
  simp [State.write16, apply_ite State.params]
@[simp] theorem State.write16_irqLine (s : State) (a : Word) (v : Half) : (s.write16 a v).irqLine = s.irqLine := by
  simp [State.write16, apply_ite State.irqLine]
@[simp] theorem State.write16_draws (s : State) (a : Word) (v : Half) : (s.write16 a v).draws = s.draws := by
  simp [State.write16, apply_ite State.draws]
@[simp] theorem State.write32_regs (s : State) (a : Word) (v : Word) : (s.write32 a v).regs = s.regs := by
  simp [State.write32]
@[simp] theorem State.write32_pc (s : State) (a : Word) (v : Word) : (s.write32 a v).pc = s.pc := by
  simp [State.write32]
@[simp] theorem State.write32_cpsr (s : State) (a : Word) (v : Word) : (s.write32 a v).cpsr = s.cpsr := by
  simp [State.write32]
@[simp] theorem State.write32_spsrFiq (s : State) (a : Word) (v : Word) : (s.write32 a v).spsrFiq = s.spsrFiq := by
  simp [State.write32]
@[simp] theorem State.write32_spsrIrq (s : State) (a : Word) (v : Word) : (s.write32 a v).spsrIrq = s.spsrIrq := by
  simp [State.write32]
@[simp] theorem State.write32_spsrSvc (s : State) (a : Word) (v : Word) : (s.write32 a v).spsrSvc = s.spsrSvc := by
  simp [State.write32]
@[simp] theorem State.write32_spsrAbt (s : State) (a : Word) (v : Word) : (s.write32 a v).spsrAbt = s.spsrAbt := by
  simp [State.write32]
@[simp] theorem State.write32_spsrUnd (s : State) (a : Word) (v : Word) : (s.write32 a v).spsrUnd = s.spsrUnd := by
  simp [State.write32]
@[simp] theorem State.write32_refill (s : State) (a : Word) (v : Word) : (s.write32 a v).refill = s.refill := by
  simp [State.write32]
@[simp] theorem State.write32_cycles (s : State) (a : Word) (v : Word) : (s.write32 a v).cycles = s.cycles := by
  simp [State.write32]
@[simp] theorem State.write32_params (s : State) (a : Word) (v : Word) : (s.write32 a v).params = s.params := by
  simp [State.write32]
@[simp] theorem State.write32_irqLine (s : State) (a : Word) (v : Word) : (s.write32 a v).irqLine = s.irqLine := by
  simp [State.write32]
@[simp] theorem State.write32_draws (s : State) (a : Word) (v : Word) : (s.write32 a v).draws = s.draws := by
  simp [State.write32]

@[simp] theorem State.write8_mode (s : State) (a : Word) (b : Byte) : (s.write8 a b).mode = s.mode :=
  State.mode_congr (by simp)
@[simp] theorem State.write16_mode (s : State) (a : Word) (v : Half) : (s.write16 a v).mode = s.mode :=
  State.mode_congr (by simp)
@[simp] theorem State.write32_mode (s : State) (a : Word) (v : Word) : (s.write32 a v).mode = s.mode :=
  State.mode_congr (by simp)

/-! ### The canonical form -/

theorem State.write8_wf {s : State} (h : s.mem.wf = true) (a : Word) (b : Byte) : (s.write8 a b).mem.wf = true := by
  unfold State.write8
  repeat' split
  all_goals first | exact h | exact Memory.wf_put h _ _

theorem State.write16_wf {s : State} (h : s.mem.wf = true) (a : Word) (v : Half) : (s.write16 a v).mem.wf = true := by
  unfold State.write16
  dsimp only
  split
  · exact h
  · exact State.write8_wf (State.write8_wf h _ _) _ _

theorem State.write32_wf {s : State} (h : s.mem.wf = true) (a v : Word) : (s.write32 a v).mem.wf = true :=
  State.write8_wf (State.write8_wf (State.write8_wf (State.write8_wf h _ _) _ _) _ _) _ _

/-! ### Reads -/

theorem State.read8_congr {s t : State} (hm : t.mem = s.mem) (hp : t.pending = s.pending) (hd : t.draws = s.draws)
    (hq : t.params = s.params) (a : Word) : t.read8 a = s.read8 a := by
  unfold State.read8
  simp only [State.storedByte_congr hm hd, hp, hd, hq]

theorem State.read16_congr {s t : State} (h : ∀ a, t.read8 a = s.read8 a) (hp : t.pending = s.pending)
    (hq : t.params = s.params) (a : Word) : t.read16 a = s.read16 a := by
  simp only [State.read16, h, hp, hq]

theorem State.read32_congr {s t : State} (h : ∀ a, t.read8 a = s.read8 a) (a : Word) : t.read32 a = s.read32 a := by
  simp only [State.read32, h]

/-- Two addresses of one byte read alike (rule R83). -/
theorem State.read8_of_phys (s : State) {a b : Word} (h : physOf s.params.regions a = physOf s.params.regions b) :
    s.read8 a = s.read8 b := by
  obtain ⟨hr, ho⟩ := physOf_inj h
  unfold State.read8
  rw [hr, ho, h]

theorem State.write8_of_phys (s : State) {a b : Word} (h : physOf s.params.regions a = physOf s.params.regions b)
    (v : Byte) : s.write8 a v = s.write8 b v := by
  obtain ⟨hr, ho⟩ := physOf_inj h
  unfold State.write8
  rw [hr, ho, h]

/-- A byte access in a plain region is an access to its store (rule R88). -/
theorem State.read8_plain {s : State} {a : Word} (h : (regionOf s.params.regions a).plain = true) :
    s.read8 a = s.storedByte (physOf s.params.regions a) := by
  unfold State.read8
  cases hr : regionOf s.params.regions a <;> rw [hr] at h <;> first | rfl | exact absurd h (by decide)

theorem State.write8_plain {s : State} {a : Word} (h : (regionOf s.params.regions a).plain = true) (b : Byte) :
    s.write8 a b = s.store (physOf s.params.regions a) b := by
  unfold State.write8
  cases hr : regionOf s.params.regions a <;> rw [hr] at h <;> first | rfl | exact absurd h (by decide)

/-- A byte of a plain region reads back as it was written (rule R88). -/
theorem State.read8_write8_same {s : State} (hm : s.mem.wf = true) {a : Word} (h : (regionOf s.params.regions a).plain = true)
    (b : Byte) : (s.write8 a b).read8 a = b := by
  rw [State.write8_plain h, State.read8_plain (by simpa using h)]
  exact State.storedByte_store_same hm (isStored_of_plain h) b

theorem extractLsb'_and_not_low (p : BitVec 16) (b : Byte) :
    (p &&& ~~~(0#8 ++ b)).extractLsb' 8 8 = p.extractLsb' 8 8 := by
  ext i hi
  have : (0#8 ++ b).getLsbD (8 + i) = false := by rw [BitVec.getLsbD_append]; simp
  simp only [BitVec.getElem_extractLsb', BitVec.getLsbD_and, BitVec.getLsbD_not]
  rw [this]; simp; omega

theorem extractLsb'_and_not_high (p : BitVec 16) (b : Byte) :
    (p &&& ~~~(b ++ 0#8)).extractLsb' 0 8 = p.extractLsb' 0 8 := by
  ext i hi
  have : (b ++ 0#8).getLsbD (0 + i) = false := by rw [BitVec.getLsbD_append]; simp; omega
  simp only [BitVec.getElem_extractLsb', BitVec.getLsbD_and, BitVec.getLsbD_not]
  rw [this]; simp; omega

/-- Acknowledging sources changes no byte but those of IF (rule R97). -/
theorem State.read8_acknowledge (s : State) (v : BitVec 16) {a : Word}
    (h0 : regionOf s.params.regions a = .io → offsetOf s.params.regions a = 0x202 →
      (s.pending &&& ~~~v).extractLsb' 0 8 = s.pending.extractLsb' 0 8)
    (h1 : regionOf s.params.regions a = .io → offsetOf s.params.regions a = 0x203 →
      (s.pending &&& ~~~v).extractLsb' 8 8 = s.pending.extractLsb' 8 8) :
    (s.acknowledge v).read8 a = s.read8 a := by
  unfold State.read8
  simp only [State.acknowledge_pending, State.acknowledge_params, State.acknowledge_draws,
    State.storedByte_congr (State.acknowledge_mem s v) (State.acknowledge_draws s v)]
  cases hr : regionOf s.params.regions a <;> dsimp only
  split
  · next ho => exact h0 hr ho
  · split
    · next ho => exact h1 hr ho
    · rfl

/-- A byte write leaves every byte at another store address. -/
theorem State.read8_write8_ne (s : State) {a k : Word} (h : physOf s.params.regions k ≠ physOf s.params.regions a) (b : Byte) :
    (s.write8 k b).read8 a = s.read8 a := by
  have store : (s.store (physOf s.params.regions k) b).read8 a = s.read8 a := by
    unfold State.read8
    simp only [State.storedByte_store_ne s h, State.store_pending, State.store_draws, State.store_params]
  unfold State.write8
  cases hk : regionOf s.params.regions k <;> simp only
  case io =>
    have ne {o : Nat} (ho : offsetOf s.params.regions k = o) (ha : regionOf s.params.regions a = .io) :
        offsetOf s.params.regions a ≠ o := fun e => h (by unfold physOf; rw [hk, ha, ho, e])
    split
    · exact State.read8_congr rfl rfl rfl rfl a
    · split
      · next ho =>
        exact s.read8_acknowledge _ (fun ha e => absurd e (ne ho ha)) (fun _ _ => extractLsb'_and_not_low _ _)
      · split
        · next ho =>
          exact s.read8_acknowledge _ (fun _ _ => extractLsb'_and_not_high _ _) (fun ha e => absurd e (ne ho ha))
        · exact store
  all_goals first | exact store | exact State.read8_congr rfl rfl rfl rfl a

/-! ### Aligned accesses -/

theorem alignWord_toNat (a : Word) : (alignWord a).toNat = a.toNat / 4 * 4 := by
  have : alignWord a = (a >>> 2) <<< 2 := by
    unfold alignWord
    ext i hi
    interval_cases i <;> simp
  rw [this, BitVec.toNat_shiftLeft, BitVec.toNat_ushiftRight, Nat.shiftRight_eq_div_pow, Nat.shiftLeft_eq]
  have := a.isLt
  omega
theorem alignHalf_toNat (a : Word) : (alignHalf a).toNat = a.toNat / 2 * 2 := by
  have : alignHalf a = (a >>> 1) <<< 1 := by
    unfold alignHalf
    ext i hi
    interval_cases i <;> simp
  rw [this, BitVec.toNat_shiftLeft, BitVec.toNat_ushiftRight, Nat.shiftRight_eq_div_pow, Nat.shiftLeft_eq]
  have := a.isLt
  omega

/-- An address's row depends on its selector alone. -/
theorem rowOf_congr (m : RegionMap) {a b : Word} (h : a.toNat / 0x1000000 = b.toNat / 0x1000000) : rowOf m a = rowOf m b := by
  unfold rowOf; rw [h]

theorem base_le {m : RegionMap} {a : Word} {r : RegionRow} (h : rowOf m a = some r) : r.base ≤ a.toNat := by
  have := List.find?_some h
  simp only [Bool.and_eq_true, decide_eq_true_eq] at this
  unfold RegionRow.base
  omega

/-- An aligned word lies in one region, at consecutive offsets (rule R99). -/
theorem word_byte {m : RegionMap} {a : Word} {k : Word} (hk : k.toNat < 4) (hu : regionOf m a ≠ .unmapped) :
    regionOf m (alignWord a + k) = regionOf m a ∧ offsetOf m (alignWord a + k) = offsetOf m (alignWord a) + k.toNat := by
  have hn := alignWord_toNat a
  have ha := a.isLt
  have hs : (alignWord a + k).toNat = a.toNat / 4 * 4 + k.toNat := by
    rw [BitVec.toNat_add, hn]; omega
  have r0 : rowOf m (alignWord a) = rowOf m a := rowOf_congr m (by rw [hn]; omega)
  have r1 : rowOf m (alignWord a + k) = rowOf m a := rowOf_congr m (by rw [hs]; omega)
  refine ⟨by unfold regionOf; rw [r1], ?_⟩
  obtain ⟨r, hr⟩ : ∃ r, rowOf m a = some r := by
    cases h : rowOf m a with
    | none => exact absurd (by unfold regionOf; rw [h]) hu
    | some r => exact ⟨r, rfl⟩
  have hb : r.base ≤ (alignWord a).toNat := base_le (r0.trans hr)
  unfold offsetOf
  rw [r0, r1, hr]
  dsimp only
  rw [hs, hn]
  rw [hn] at hb
  have hd : ∃ B, r.base = 4 * B := ⟨r.first * 0x400000, by unfold RegionRow.base; omega⟩
  unfold RegionRow.size
  generalize r.base = B at *
  generalize r.words = S at *
  generalize k.toNat = j at *
  obtain ⟨B', rfl⟩ := hd
  generalize a.toNat / 4 = q at *
  have e1 : q * 4 + j - 4 * B' = 4 * (q - B') + j := by omega
  have e2 : q * 4 - 4 * B' = 4 * (q - B') := by omega
  rw [e1, e2, Nat.mul_mod_mul_left]
  rcases Nat.eq_zero_or_pos S with rfl | hS
  · simp
  have := Nat.mod_lt (q - B') hS
  have e3 : (4 * (q - B') + j) = 4 * S * ((q - B') / S) + (4 * ((q - B') % S) + j) := by
    have := Nat.div_add_mod (q - B') S
    conv_lhs => rw [← this]
    ring
  rw [e3, Nat.mul_add_mod, Nat.mod_eq_of_lt (by omega)]

theorem physOf_word_byte {m : RegionMap} {a : Word} {k : Word} (hk : k.toNat < 4) (hu : regionOf m a ≠ .unmapped) :
    physOf m (alignWord a + k) = physOf m (alignWord a) + k.toNat := by
  have h0 := word_byte (m := m) (a := a) (k := 0#32) (by decide) hu
  have h1 := word_byte hk hu
  rw [BitVec.add_zero] at h0
  unfold physOf
  rw [h1.1, h1.2, h0.1, Nat.add_assoc]

theorem half_region (m : RegionMap) (a : Word) : regionOf m (alignHalf a) = regionOf m a := by
  unfold regionOf
  rw [rowOf_congr m (show (alignHalf a).toNat / 0x1000000 = a.toNat / 0x1000000 by rw [alignHalf_toNat]; omega)]

/-- The low byte of an aligned halfword, and the one after it. -/
theorem half_byte {m : RegionMap} {a : Word} (hu : regionOf m a ≠ .unmapped) :
    regionOf m (alignHalf a) = regionOf m a ∧ regionOf m (alignHalf a + 1) = regionOf m a ∧
      offsetOf m (alignHalf a + 1) = offsetOf m (alignHalf a) + 1 := by
  have hw : ∃ k : Word, k.toNat < 3 ∧ alignHalf a = alignWord a + k := by
    refine ⟨BitVec.ofNat 32 (a.toNat / 2 * 2 % 4), ?_, ?_⟩
    · rw [BitVec.toNat_ofNat]; omega
    · apply BitVec.eq_of_toNat_eq
      have := a.isLt
      rw [BitVec.toNat_add, alignHalf_toNat, alignWord_toNat, BitVec.toNat_ofNat]; omega
  obtain ⟨k, hk, e⟩ := hw
  have hk1 : (k + 1#32).toNat = k.toNat + 1 := by
    rw [BitVec.toNat_add]; simp only [BitVec.toNat_ofNat]; omega
  have e1 : alignHalf a + 1 = alignWord a + (k + 1#32) := by rw [e, BitVec.add_assoc]; rfl
  refine ⟨half_region m a, ?_, ?_⟩
  · rw [e1]; exact (word_byte (by omega) hu).1
  · rw [e1, e, (word_byte (by omega) hu).2, (word_byte (by omega) hu).2, hk1]; omega

theorem physOf_half_byte {m : RegionMap} {a : Word} (hu : regionOf m a ≠ .unmapped) :
    physOf m (alignHalf a + 1) = physOf m (alignHalf a) + 1 := by
  obtain ⟨h0, h1, h2⟩ := half_byte hu
  unfold physOf
  rw [h0, h1, h2, Nat.add_assoc]

/-! ### Frames of the wide writes -/

/-- The byte after the IF field's first is its second (rule R97). -/
theorem if_half_succ {m : RegionMap} {a : Word} (hr : regionOf m (alignHalf a) = .io) (ho : offsetOf m (alignHalf a) = 0x202) :
    regionOf m (alignHalf a + 1) = .io ∧ offsetOf m (alignHalf a + 1) = 0x203 := by
  have h := half_byte (m := m) (a := a) (by rw [← half_region, hr]; decide)
  exact ⟨by rw [h.2.1, ← half_region, hr], by rw [h.2.2, ho]⟩

/-- The bytes a halfword write may change. -/
theorem State.read8_write16_ne (s : State) {a x : Word}
    (h0 : physOf s.params.regions (alignHalf a) ≠ physOf s.params.regions x)
    (h1 : physOf s.params.regions (alignHalf a + 1) ≠ physOf s.params.regions x) (v : Half) :
    (s.write16 a v).read8 x = s.read8 x := by
  unfold State.write16
  dsimp only
  split
  · next hi =>
    simp only [isIfHalf, Bool.and_eq_true, beq_iff_eq] at hi
    obtain ⟨hr, ho⟩ := hi
    obtain ⟨hr', ho'⟩ := if_half_succ hr ho
    exact s.read8_acknowledge _ (fun hx e => absurd (by unfold physOf; rw [hr, ho, hx, e]) h0)
      (fun hx e => absurd (by unfold physOf; rw [hr', ho', hx, e]) h1)
  · rw [State.read8_write8_ne _ (by simpa using h1), State.read8_write8_ne _ h0]

/-- The bytes a word write may change. -/
theorem State.read8_write32_ne (s : State) {a x : Word} (h0 : physOf s.params.regions (alignWord a) ≠ physOf s.params.regions x)
    (h1 : physOf s.params.regions (alignWord a + 1) ≠ physOf s.params.regions x)
    (h2 : physOf s.params.regions (alignWord a + 2) ≠ physOf s.params.regions x)
    (h3 : physOf s.params.regions (alignWord a + 3) ≠ physOf s.params.regions x) (v : Word) :
    (s.write32 a v).read8 x = s.read8 x := by
  unfold State.write32
  dsimp only
  rw [State.read8_write8_ne _ (by simpa using h3), State.read8_write8_ne _ (by simpa using h2),
    State.read8_write8_ne _ (by simpa using h1), State.read8_write8_ne _ h0]

/-! ### Wide reads after wide writes -/

/-- A word of a plain region reads back as it was written (rules R88, R100). -/
theorem State.read32_write32_same {s : State} (hm : s.mem.wf = true) {a : Word} (h : (regionOf s.params.regions a).plain = true)
    (v : Word) : (s.write32 a v).read32 a = v := by
  have hu : regionOf s.params.regions a ≠ .unmapped := by intro e; rw [e] at h; exact absurd h (by decide)
  have w0 := (word_byte (a := a) (k := 0#32) (by decide) hu).1
  have w1 : regionOf s.params.regions (alignWord a + 1) = _ := (word_byte (a := a) (k := 1#32) (by decide) hu).1
  have w2 : regionOf s.params.regions (alignWord a + 2) = _ := (word_byte (a := a) (k := 2#32) (by decide) hu).1
  have w3 : regionOf s.params.regions (alignWord a + 3) = _ := (word_byte (a := a) (k := 3#32) (by decide) hu).1
  have p1 : physOf s.params.regions (alignWord a + 1) = physOf s.params.regions (alignWord a) + 1 :=
    physOf_word_byte (a := a) (k := 1#32) (by decide) hu
  have p2 : physOf s.params.regions (alignWord a + 2) = physOf s.params.regions (alignWord a) + 2 :=
    physOf_word_byte (a := a) (k := 2#32) (by decide) hu
  have p3 : physOf s.params.regions (alignWord a + 3) = physOf s.params.regions (alignWord a) + 3 :=
    physOf_word_byte (a := a) (k := 3#32) (by decide) hu
  rw [BitVec.add_zero] at w0
  unfold State.read32 State.write32
  dsimp only
  generalize alignWord a = b at *
  have m0 := State.write8_wf hm b (v.extractLsb' 0 8)
  have m1 := State.write8_wf m0 (b + 1) (v.extractLsb' 8 8)
  have m2 := State.write8_wf m1 (b + 2) (v.extractLsb' 16 8)
  rw [State.read8_write8_same m2 (by simp only [State.write8_params, w3, h]),
    State.read8_write8_ne _ (by simp only [State.write8_params, p3, p2]; omega),
    State.read8_write8_same m1 (by simp only [State.write8_params, w2, h]),
    State.read8_write8_ne _ (by simp only [State.write8_params, p3, p1]; omega),
    State.read8_write8_ne _ (by simp only [State.write8_params, p2, p1]; omega),
    State.read8_write8_same m0 (by simp only [State.write8_params, w1, h]),
    State.read8_write8_ne _ (by simp only [State.write8_params, p3]; omega),
    State.read8_write8_ne _ (by simp only [State.write8_params, p2]; omega),
    State.read8_write8_ne _ (by simp only [State.write8_params, p1]; omega),
    State.read8_write8_same hm (by rw [w0]; exact h)]
  ext i hi
  simp only [BitVec.getElem_append, BitVec.getElem_extractLsb']
  rw [← BitVec.getLsbD_eq_getElem]
  split_ifs <;> (congr 1; omega)

theorem State.read16_write16_same {s : State} (hm : s.mem.wf = true) {a : Word} (h : (regionOf s.params.regions a).plain = true)
    (v : Half) : (s.write16 a v).read16 a = v := by
  have hu : regionOf s.params.regions a ≠ .unmapped := by intro e; rw [e] at h; exact absurd h (by decide)
  obtain ⟨w0, w1, -⟩ := half_byte hu
  have p1 := physOf_half_byte hu
  have hif : isIfHalf s.params.regions (alignHalf a) = false := by
    unfold isIfHalf; rw [w0]
    cases hr : regionOf s.params.regions a <;> first | rfl | (rw [hr] at h; exact absurd h (by decide))
  unfold State.read16 State.write16
  dsimp only
  simp only [hif, Bool.false_eq_true, if_false, State.write8_params]
  have m0 := State.write8_wf hm (alignHalf a) (v.extractLsb' 0 8)
  rw [State.read8_write8_same m0 (by simp only [State.write8_params, w1, h]),
    State.read8_write8_ne _ (by simp only [State.write8_params, p1]; omega),
    State.read8_write8_same hm (by rw [w0]; exact h)]
  ext i hi
  simp only [BitVec.getElem_append, BitVec.getElem_extractLsb']
  rw [← BitVec.getLsbD_eq_getElem]
  split_ifs <;> (congr 1; omega)

end Sys2Proof.Machine
end

