-- ==== Sys2Proof/Laws/Decode.lean ====
section
/-! SUPPORT. The decode table row by row in terms of fields, the unit a word selects, and the fields of every encoding
(30_encoding.md rules R132 to R154). -/

namespace Sys2Proof

/-! ### Fields -/

theorem getLsbD_field (w : Word) (lo n i : Nat) : (field w lo n).getLsbD i = (decide (i < n) && w.getLsbD (lo + i)) := by
  simp [field]

theorem field_eq_iff {w : Word} {lo n : Nat} {v : BitVec n} :
    field w lo n = v ↔ ∀ i, i < n → w.getLsbD (lo + i) = v.getLsbD i := by
  constructor
  · rintro rfl i hi; rw [getLsbD_field]; simp [hi]
  · intro h
    apply BitVec.eq_of_getLsbD_eq
    intro i hi
    rw [getLsbD_field, ← h i hi]; simp [hi]

theorem and_eq_iff {w m p : Word} :
    w &&& m = p ↔ ∀ i, i < 32 → (w.getLsbD i && m.getLsbD i) = p.getLsbD i := by
  constructor
  · rintro rfl i _; simp
  · intro h
    apply BitVec.eq_of_getLsbD_eq
    intro i hi
    rw [BitVec.getLsbD_and]; exact h i hi

/-! ### The rows of the table (rule R154) -/

theorem takes_multiply {w : Word} :
    DecodeEntry.takes ⟨.multiply, 0x0FC000F0, 0x00000090, false⟩ w = true ↔
      field w 22 6 = 0 ∧ field w 4 4 = 0b1001#4 := by
  have h : w &&& (0x0FC000F0 : Word) = (0x00000090 : Word) ↔ field w 22 6 = 0 ∧ field w 4 4 = 0b1001#4 := by
    rw [and_eq_iff, field_eq_iff, field_eq_iff]
    simp only [Nat.forall_lt_succ_right, Nat.not_lt_zero, false_implies, implies_true, true_and]
    simp
    try tauto
  simp only [DecodeEntry.takes, Bool.and_eq_true, beq_iff_eq]
  rw [h]
  simp

theorem takes_multiplyLong {w : Word} :
    DecodeEntry.takes ⟨.multiplyLong, 0x0F8000F0, 0x00800090, false⟩ w = true ↔
      field w 23 5 = 0b00001#5 ∧ field w 4 4 = 0b1001#4 := by
  have h : w &&& (0x0F8000F0 : Word) = (0x00800090 : Word) ↔ field w 23 5 = 0b00001#5 ∧ field w 4 4 = 0b1001#4 := by
    rw [and_eq_iff, field_eq_iff, field_eq_iff]
    simp only [Nat.forall_lt_succ_right, Nat.not_lt_zero, false_implies, implies_true, true_and]
    simp
    try tauto
  simp only [DecodeEntry.takes, Bool.and_eq_true, beq_iff_eq]
  rw [h]
  simp

theorem takes_halfword {w : Word} :
    DecodeEntry.takes ⟨.halfword, 0x0E000090, 0x00000090, true⟩ w = true ↔
      field w 25 3 = 0 ∧ w.getLsbD 7 = true ∧ w.getLsbD 4 = true ∧ field w 5 2 ≠ 0 := by
  have h : w &&& (0x0E000090 : Word) = (0x00000090 : Word) ↔ field w 25 3 = 0 ∧ w.getLsbD 7 = true ∧ w.getLsbD 4 = true := by
    rw [and_eq_iff, field_eq_iff]
    simp only [Nat.forall_lt_succ_right, Nat.not_lt_zero, false_implies, implies_true, true_and]
    simp
    try tauto
  simp only [DecodeEntry.takes, Bool.and_eq_true, beq_iff_eq]
  rw [h]
  simp [and_assoc]

theorem takes_swap {w : Word} :
    DecodeEntry.takes ⟨.swap, 0x0FB00FF0, 0x01000090, false⟩ w = true ↔
      field w 23 5 = 0b00010#5 ∧ field w 20 2 = 0 ∧ field w 4 8 = 0b00001001#8 := by
  have h : w &&& (0x0FB00FF0 : Word) = (0x01000090 : Word) ↔ field w 23 5 = 0b00010#5 ∧ field w 20 2 = 0 ∧ field w 4 8 = 0b00001001#8 := by
    rw [and_eq_iff, field_eq_iff, field_eq_iff, field_eq_iff]
    simp only [Nat.forall_lt_succ_right, Nat.not_lt_zero, false_implies, implies_true, true_and]
    simp
    try tauto
  simp only [DecodeEntry.takes, Bool.and_eq_true, beq_iff_eq]
  rw [h]
  simp

theorem takes_mrs {w : Word} :
    DecodeEntry.takes ⟨.mrs, 0x0FBF0FFF, 0x010F0000, false⟩ w = true ↔
      field w 23 5 = 0b00010#5 ∧ field w 16 6 = 0b001111#6 ∧ field w 0 12 = 0 := by
  have h : w &&& (0x0FBF0FFF : Word) = (0x010F0000 : Word) ↔ field w 23 5 = 0b00010#5 ∧ field w 16 6 = 0b001111#6 ∧ field w 0 12 = 0 := by
    rw [and_eq_iff, field_eq_iff, field_eq_iff, field_eq_iff]
    simp only [Nat.forall_lt_succ_right, Nat.not_lt_zero, false_implies, implies_true, true_and]
    simp
    try tauto
  simp only [DecodeEntry.takes, Bool.and_eq_true, beq_iff_eq]
  rw [h]
  simp

theorem takes_msrReg {w : Word} :
    DecodeEntry.takes ⟨.msrReg, 0x0FB0FFF0, 0x0120F000, false⟩ w = true ↔
      field w 23 5 = 0b00010#5 ∧ field w 20 2 = 0b10#2 ∧ field w 12 4 = 0b1111#4 ∧ field w 4 8 = 0 := by
  have h : w &&& (0x0FB0FFF0 : Word) = (0x0120F000 : Word) ↔ field w 23 5 = 0b00010#5 ∧ field w 20 2 = 0b10#2 ∧ field w 12 4 = 0b1111#4 ∧ field w 4 8 = 0 := by
    rw [and_eq_iff, field_eq_iff, field_eq_iff, field_eq_iff, field_eq_iff]
    simp only [Nat.forall_lt_succ_right, Nat.not_lt_zero, false_implies, implies_true, true_and]
    simp
    try tauto
  simp only [DecodeEntry.takes, Bool.and_eq_true, beq_iff_eq]
  rw [h]
  simp

theorem takes_msrImm {w : Word} :
    DecodeEntry.takes ⟨.msrImm, 0x0FB0F000, 0x0320F000, false⟩ w = true ↔
      field w 23 5 = 0b00110#5 ∧ field w 20 2 = 0b10#2 ∧ field w 12 4 = 0b1111#4 := by
  have h : w &&& (0x0FB0F000 : Word) = (0x0320F000 : Word) ↔ field w 23 5 = 0b00110#5 ∧ field w 20 2 = 0b10#2 ∧ field w 12 4 = 0b1111#4 := by
    rw [and_eq_iff, field_eq_iff, field_eq_iff, field_eq_iff]
    simp only [Nat.forall_lt_succ_right, Nat.not_lt_zero, false_implies, implies_true, true_and]
    simp
    try tauto
  simp only [DecodeEntry.takes, Bool.and_eq_true, beq_iff_eq]
  rw [h]
  simp

theorem takes_bx {w : Word} :
    DecodeEntry.takes ⟨.bx, 0x0FFFFFF0, 0x012FFF10, false⟩ w = true ↔
      field w 4 24 = 0x12FFF1#24 := by
  have h : w &&& (0x0FFFFFF0 : Word) = (0x012FFF10 : Word) ↔ field w 4 24 = 0x12FFF1#24 := by
    rw [and_eq_iff, field_eq_iff]
    simp only [Nat.forall_lt_succ_right, Nat.not_lt_zero, false_implies, implies_true, true_and]
    simp
    try tauto
  simp only [DecodeEntry.takes, Bool.and_eq_true, beq_iff_eq]
  rw [h]
  simp

theorem takes_dataProcessing {w : Word} :
    DecodeEntry.takes ⟨.dataProcessing, 0x0C000000, 0x00000000, false⟩ w = true ↔
      field w 26 2 = 0 := by
  have h : w &&& (0x0C000000 : Word) = (0x00000000 : Word) ↔ field w 26 2 = 0 := by
    rw [and_eq_iff, field_eq_iff]
    simp only [Nat.forall_lt_succ_right, Nat.not_lt_zero, false_implies, implies_true, true_and]
    simp
    try tauto
  simp only [DecodeEntry.takes, Bool.and_eq_true, beq_iff_eq]
  rw [h]
  simp

theorem takes_singleTransfer {w : Word} :
    DecodeEntry.takes ⟨.singleTransfer, 0x0C000000, 0x04000000, false⟩ w = true ↔
      field w 26 2 = 0b01#2 := by
  have h : w &&& (0x0C000000 : Word) = (0x04000000 : Word) ↔ field w 26 2 = 0b01#2 := by
    rw [and_eq_iff, field_eq_iff]
    simp only [Nat.forall_lt_succ_right, Nat.not_lt_zero, false_implies, implies_true, true_and]
    simp
    try tauto
  simp only [DecodeEntry.takes, Bool.and_eq_true, beq_iff_eq]
  rw [h]
  simp

theorem takes_blockTransfer {w : Word} :
    DecodeEntry.takes ⟨.blockTransfer, 0x0E000000, 0x08000000, false⟩ w = true ↔
      field w 25 3 = 0b100#3 := by
  have h : w &&& (0x0E000000 : Word) = (0x08000000 : Word) ↔ field w 25 3 = 0b100#3 := by
    rw [and_eq_iff, field_eq_iff]
    simp only [Nat.forall_lt_succ_right, Nat.not_lt_zero, false_implies, implies_true, true_and]
    simp
    try tauto
  simp only [DecodeEntry.takes, Bool.and_eq_true, beq_iff_eq]
  rw [h]
  simp

theorem takes_branch {w : Word} :
    DecodeEntry.takes ⟨.branch, 0x0E000000, 0x0A000000, false⟩ w = true ↔
      field w 25 3 = 0b101#3 := by
  have h : w &&& (0x0E000000 : Word) = (0x0A000000 : Word) ↔ field w 25 3 = 0b101#3 := by
    rw [and_eq_iff, field_eq_iff]
    simp only [Nat.forall_lt_succ_right, Nat.not_lt_zero, false_implies, implies_true, true_and]
    simp
    try tauto
  simp only [DecodeEntry.takes, Bool.and_eq_true, beq_iff_eq]
  rw [h]
  simp

theorem takes_softwareInterrupt {w : Word} :
    DecodeEntry.takes ⟨.softwareInterrupt, 0x0C000000, 0x0C000000, false⟩ w = true ↔
      field w 26 2 = 0b11#2 := by
  have h : w &&& (0x0C000000 : Word) = (0x0C000000 : Word) ↔ field w 26 2 = 0b11#2 := by
    rw [and_eq_iff, field_eq_iff]
    simp only [Nat.forall_lt_succ_right, Nat.not_lt_zero, false_implies, implies_true, true_and]
    simp
    try tauto
  simp only [DecodeEntry.takes, Bool.and_eq_true, beq_iff_eq]
  rw [h]
  simp

/-! ### The unit a word selects -/

theorem find?_ite {α : Type} (p : α → Bool) (a : α) (l : List α) :
    (a :: l).find? p = if p a then some a else l.find? p := by
  rw [List.find?_cons]; cases p a <;> rfl

/-- The ordered table as one chain of conditions on fields (rules R153, R154). -/
theorem selectUnit_eq (w : Word) : selectUnit w =
    if field w 22 6 = 0 ∧ field w 4 4 = 0b1001#4 then some .multiply else
    if field w 23 5 = 0b00001#5 ∧ field w 4 4 = 0b1001#4 then some .multiplyLong else
    if field w 25 3 = 0 ∧ w.getLsbD 7 = true ∧ w.getLsbD 4 = true ∧ field w 5 2 ≠ 0 then some .halfword else
    if field w 23 5 = 0b00010#5 ∧ field w 20 2 = 0 ∧ field w 4 8 = 0b00001001#8 then some .swap else
    if field w 23 5 = 0b00010#5 ∧ field w 16 6 = 0b001111#6 ∧ field w 0 12 = 0 then some .mrs else
    if field w 23 5 = 0b00010#5 ∧ field w 20 2 = 0b10#2 ∧ field w 12 4 = 0b1111#4 ∧ field w 4 8 = 0 then some .msrReg else
    if field w 23 5 = 0b00110#5 ∧ field w 20 2 = 0b10#2 ∧ field w 12 4 = 0b1111#4 then some .msrImm else
    if field w 4 24 = 0x12FFF1#24 then some .bx else
    if field w 26 2 = 0 then some .dataProcessing else
    if field w 26 2 = 0b01#2 then some .singleTransfer else
    if field w 25 3 = 0b100#3 then some .blockTransfer else
    if field w 25 3 = 0b101#3 then some .branch else
    if field w 26 2 = 0b11#2 then some .softwareInterrupt else
    none := by
  unfold selectUnit decodeTable
  rw [find?_ite]
  by_cases h : field w 22 6 = 0 ∧ field w 4 4 = 0b1001#4
  · rw [if_pos (takes_multiply.mpr h), if_pos h]; rfl
  rw [if_neg (mt takes_multiply.mp h), if_neg h]
  clear h
  rw [find?_ite]
  by_cases h : field w 23 5 = 0b00001#5 ∧ field w 4 4 = 0b1001#4
  · rw [if_pos (takes_multiplyLong.mpr h), if_pos h]; rfl
  rw [if_neg (mt takes_multiplyLong.mp h), if_neg h]
  clear h
  rw [find?_ite]
  by_cases h : field w 25 3 = 0 ∧ w.getLsbD 7 = true ∧ w.getLsbD 4 = true ∧ field w 5 2 ≠ 0
  · rw [if_pos (takes_halfword.mpr h), if_pos h]; rfl
  rw [if_neg (mt takes_halfword.mp h), if_neg h]
  clear h
  rw [find?_ite]
  by_cases h : field w 23 5 = 0b00010#5 ∧ field w 20 2 = 0 ∧ field w 4 8 = 0b00001001#8
  · rw [if_pos (takes_swap.mpr h), if_pos h]; rfl
  rw [if_neg (mt takes_swap.mp h), if_neg h]
  clear h
  rw [find?_ite]
  by_cases h : field w 23 5 = 0b00010#5 ∧ field w 16 6 = 0b001111#6 ∧ field w 0 12 = 0
  · rw [if_pos (takes_mrs.mpr h), if_pos h]; rfl
  rw [if_neg (mt takes_mrs.mp h), if_neg h]
  clear h
  rw [find?_ite]
  by_cases h : field w 23 5 = 0b00010#5 ∧ field w 20 2 = 0b10#2 ∧ field w 12 4 = 0b1111#4 ∧ field w 4 8 = 0
  · rw [if_pos (takes_msrReg.mpr h), if_pos h]; rfl
  rw [if_neg (mt takes_msrReg.mp h), if_neg h]
  clear h
  rw [find?_ite]
  by_cases h : field w 23 5 = 0b00110#5 ∧ field w 20 2 = 0b10#2 ∧ field w 12 4 = 0b1111#4
  · rw [if_pos (takes_msrImm.mpr h), if_pos h]; rfl
  rw [if_neg (mt takes_msrImm.mp h), if_neg h]
  clear h
  rw [find?_ite]
  by_cases h : field w 4 24 = 0x12FFF1#24
  · rw [if_pos (takes_bx.mpr h), if_pos h]; rfl
  rw [if_neg (mt takes_bx.mp h), if_neg h]
  clear h
  rw [find?_ite]
  by_cases h : field w 26 2 = 0
  · rw [if_pos (takes_dataProcessing.mpr h), if_pos h]; rfl
  rw [if_neg (mt takes_dataProcessing.mp h), if_neg h]
  clear h
  rw [find?_ite]
  by_cases h : field w 26 2 = 0b01#2
  · rw [if_pos (takes_singleTransfer.mpr h), if_pos h]; rfl
  rw [if_neg (mt takes_singleTransfer.mp h), if_neg h]
  clear h
  rw [find?_ite]
  by_cases h : field w 25 3 = 0b100#3
  · rw [if_pos (takes_blockTransfer.mpr h), if_pos h]; rfl
  rw [if_neg (mt takes_blockTransfer.mp h), if_neg h]
  clear h
  rw [find?_ite]
  by_cases h : field w 25 3 = 0b101#3
  · rw [if_pos (takes_branch.mpr h), if_pos h]; rfl
  rw [if_neg (mt takes_branch.mp h), if_neg h]
  clear h
  rw [find?_ite]
  by_cases h : field w 26 2 = 0b11#2
  · rw [if_pos (takes_softwareInterrupt.mpr h), if_pos h]; rfl
  rw [if_neg (mt takes_softwareInterrupt.mp h), if_neg h]
  clear h
  rfl

/-- Every word selects a unit (rule R155). -/
theorem selectUnit_isSome (w : Word) : ∃ u, selectUnit w = some u := by
  have split25 : field w 25 3 = 0b100#3 ∨ field w 25 3 = 0b101#3 ∨ field w 26 2 = 0 ∨ field w 26 2 = 0b01#2 ∨
      field w 26 2 = 0b11#2 := by
    simp only [field_eq_iff, Nat.forall_lt_succ_right, Nat.not_lt_zero, false_implies, implies_true, true_and]
    simp only [Nat.reduceAdd, Nat.add_zero]
    cases w.getLsbD 25 <;> cases w.getLsbD 26 <;> cases w.getLsbD 27 <;> decide
  rcases h : selectUnit w with - | u
  · exfalso
    unfold selectUnit at h
    rw [Option.map_eq_none_iff, List.find?_eq_none] at h
    rcases split25 with e | e | e | e | e
    · exact h _ (by simp only [decodeTable, List.mem_cons, true_or, or_true]) (takes_blockTransfer.mpr e)
    · exact h _ (by simp only [decodeTable, List.mem_cons, true_or, or_true]) (takes_branch.mpr e)
    · exact h _ (by simp only [decodeTable, List.mem_cons, true_or, or_true]) (takes_dataProcessing.mpr e)
    · exact h _ (by simp only [decodeTable, List.mem_cons, true_or, or_true]) (takes_singleTransfer.mpr e)
    · exact h _ (by simp only [decodeTable, List.mem_cons, true_or, or_true]) (takes_softwareInterrupt.mpr e)
  · exact ⟨u, rfl⟩

/-! ### The bits of every encoding (rules R132 to R145) -/

theorem bit_dp (c : Cond) (opcode : BitVec 4) (sf : Bool) (rn rd : Reg) (o : Operand2) (i : Nat) : (encodeDp c opcode sf rn rd o).getLsbD i =
    if i < 12 then o.bits.getLsbD i else if i - 12 < 4 then (regBits rd).getLsbD (i - 12) else
    if i - 12 - 4 < 4 then (regBits rn).getLsbD (i - 12 - 4) else
    if i - 12 - 4 - 4 < 1 then (BitVec.ofBool sf).getLsbD (i - 12 - 4 - 4) else
    if i - 12 - 4 - 4 - 1 < 4 then opcode.getLsbD (i - 12 - 4 - 4 - 1) else
    if i - 12 - 4 - 4 - 1 - 4 < 1 then (BitVec.ofBool o.iBit).getLsbD (i - 12 - 4 - 4 - 1 - 4) else
    if i - 12 - 4 - 4 - 1 - 4 - 1 < 2 then (0b00#2).getLsbD (i - 12 - 4 - 4 - 1 - 4 - 1) else
    c.bits.getLsbD (i - 12 - 4 - 4 - 1 - 4 - 1 - 2) := by
  show (c.bits ++ 0b00#2 ++ BitVec.ofBool o.iBit ++ opcode ++ BitVec.ofBool sf ++ regBits rn ++ regBits rd ++ o.bits :
    BitVec (4 + 2 + 1 + 4 + 1 + 4 + 4 + 12)).getLsbD i = _
  iterate 7 rw [BitVec.getLsbD_append]

theorem bit_mul (c : Cond) (a sf : Bool) (rd rn rs rm : Reg) (i : Nat) : (encodeMul c a sf rd rn rs rm).getLsbD i =
    if i < 4 then (regBits rm).getLsbD i else if i - 4 < 4 then (0b1001#4).getLsbD (i - 4) else
    if i - 4 - 4 < 4 then (regBits rs).getLsbD (i - 4 - 4) else
    if i - 4 - 4 - 4 < 4 then (regBits rn).getLsbD (i - 4 - 4 - 4) else
    if i - 4 - 4 - 4 - 4 < 4 then (regBits rd).getLsbD (i - 4 - 4 - 4 - 4) else
    if i - 4 - 4 - 4 - 4 - 4 < 1 then (BitVec.ofBool sf).getLsbD (i - 4 - 4 - 4 - 4 - 4) else
    if i - 4 - 4 - 4 - 4 - 4 - 1 < 1 then (BitVec.ofBool a).getLsbD (i - 4 - 4 - 4 - 4 - 4 - 1) else
    if i - 4 - 4 - 4 - 4 - 4 - 1 - 1 < 6 then (0b000000#6).getLsbD (i - 4 - 4 - 4 - 4 - 4 - 1 - 1) else
    c.bits.getLsbD (i - 4 - 4 - 4 - 4 - 4 - 1 - 1 - 6) := by
  show (c.bits ++ 0b000000#6 ++ BitVec.ofBool a ++ BitVec.ofBool sf ++ regBits rd ++ regBits rn ++ regBits rs ++ 0b1001#4 ++ regBits rm :
    BitVec (4 + 6 + 1 + 1 + 4 + 4 + 4 + 4 + 4)).getLsbD i = _
  iterate 8 rw [BitVec.getLsbD_append]

theorem bit_mull (c : Cond) (u a sf : Bool) (rdHi rdLo rs rm : Reg) (i : Nat) : (encodeMull c u a sf rdHi rdLo rs rm).getLsbD i =
    if i < 4 then (regBits rm).getLsbD i else if i - 4 < 4 then (0b1001#4).getLsbD (i - 4) else
    if i - 4 - 4 < 4 then (regBits rs).getLsbD (i - 4 - 4) else
    if i - 4 - 4 - 4 < 4 then (regBits rdLo).getLsbD (i - 4 - 4 - 4) else
    if i - 4 - 4 - 4 - 4 < 4 then (regBits rdHi).getLsbD (i - 4 - 4 - 4 - 4) else
    if i - 4 - 4 - 4 - 4 - 4 < 1 then (BitVec.ofBool sf).getLsbD (i - 4 - 4 - 4 - 4 - 4) else
    if i - 4 - 4 - 4 - 4 - 4 - 1 < 1 then (BitVec.ofBool a).getLsbD (i - 4 - 4 - 4 - 4 - 4 - 1) else
    if i - 4 - 4 - 4 - 4 - 4 - 1 - 1 < 1 then (BitVec.ofBool u).getLsbD (i - 4 - 4 - 4 - 4 - 4 - 1 - 1) else
    if i - 4 - 4 - 4 - 4 - 4 - 1 - 1 - 1 < 5 then (0b00001#5).getLsbD (i - 4 - 4 - 4 - 4 - 4 - 1 - 1 - 1) else
    c.bits.getLsbD (i - 4 - 4 - 4 - 4 - 4 - 1 - 1 - 1 - 5) := by
  show (c.bits ++ 0b00001#5 ++ BitVec.ofBool u ++ BitVec.ofBool a ++ BitVec.ofBool sf ++ regBits rdHi ++ regBits rdLo ++ regBits rs ++ 0b1001#4 ++ regBits rm :
    BitVec (4 + 5 + 1 + 1 + 1 + 4 + 4 + 4 + 4 + 4)).getLsbD i = _
  iterate 9 rw [BitVec.getLsbD_append]

theorem bit_sdt (c : Cond) (p up byte wb load : Bool) (rn rd : Reg) (off : Offset) (i : Nat) : (encodeSdt c p up byte wb load rn rd off).getLsbD i =
    if i < 12 then off.bits.getLsbD i else if i - 12 < 4 then (regBits rd).getLsbD (i - 12) else
    if i - 12 - 4 < 4 then (regBits rn).getLsbD (i - 12 - 4) else
    if i - 12 - 4 - 4 < 1 then (BitVec.ofBool load).getLsbD (i - 12 - 4 - 4) else
    if i - 12 - 4 - 4 - 1 < 1 then (BitVec.ofBool wb).getLsbD (i - 12 - 4 - 4 - 1) else
    if i - 12 - 4 - 4 - 1 - 1 < 1 then (BitVec.ofBool byte).getLsbD (i - 12 - 4 - 4 - 1 - 1) else
    if i - 12 - 4 - 4 - 1 - 1 - 1 < 1 then (BitVec.ofBool up).getLsbD (i - 12 - 4 - 4 - 1 - 1 - 1) else
    if i - 12 - 4 - 4 - 1 - 1 - 1 - 1 < 1 then (BitVec.ofBool p).getLsbD (i - 12 - 4 - 4 - 1 - 1 - 1 - 1) else
    if i - 12 - 4 - 4 - 1 - 1 - 1 - 1 - 1 < 1 then (BitVec.ofBool off.iBit).getLsbD (i - 12 - 4 - 4 - 1 - 1 - 1 - 1 - 1) else
    if i - 12 - 4 - 4 - 1 - 1 - 1 - 1 - 1 - 1 < 2 then (0b01#2).getLsbD (i - 12 - 4 - 4 - 1 - 1 - 1 - 1 - 1 - 1) else
    c.bits.getLsbD (i - 12 - 4 - 4 - 1 - 1 - 1 - 1 - 1 - 1 - 2) := by
  show (c.bits ++ 0b01#2 ++ BitVec.ofBool off.iBit ++ BitVec.ofBool p ++ BitVec.ofBool up ++ BitVec.ofBool byte ++ BitVec.ofBool wb ++ BitVec.ofBool load ++ regBits rn ++ regBits rd ++ off.bits :
    BitVec (4 + 2 + 1 + 1 + 1 + 1 + 1 + 1 + 4 + 4 + 12)).getLsbD i = _
  iterate 10 rw [BitVec.getLsbD_append]

theorem bit_hw (c : Cond) (ix : Indexing) (up load : Bool) (sh : BitVec 2) (rn rd : Reg) (off : HalfOffset) (i : Nat) : (encodeHw c ix up load sh rn rd off).getLsbD i =
    if i < 4 then off.low.getLsbD i else if i - 4 < 1 then (0b1#1).getLsbD (i - 4) else
    if i - 4 - 1 < 2 then sh.getLsbD (i - 4 - 1) else if i - 4 - 1 - 2 < 1 then (0b1#1).getLsbD (i - 4 - 1 - 2) else
    if i - 4 - 1 - 2 - 1 < 4 then off.high.getLsbD (i - 4 - 1 - 2 - 1) else
    if i - 4 - 1 - 2 - 1 - 4 < 4 then (regBits rd).getLsbD (i - 4 - 1 - 2 - 1 - 4) else
    if i - 4 - 1 - 2 - 1 - 4 - 4 < 4 then (regBits rn).getLsbD (i - 4 - 1 - 2 - 1 - 4 - 4) else
    if i - 4 - 1 - 2 - 1 - 4 - 4 - 4 < 1 then (BitVec.ofBool load).getLsbD (i - 4 - 1 - 2 - 1 - 4 - 4 - 4) else
    if i - 4 - 1 - 2 - 1 - 4 - 4 - 4 - 1 < 1 then (BitVec.ofBool ix.w).getLsbD (i - 4 - 1 - 2 - 1 - 4 - 4 - 4 - 1) else
    if i - 4 - 1 - 2 - 1 - 4 - 4 - 4 - 1 - 1 < 1 then (BitVec.ofBool off.iBit).getLsbD (i - 4 - 1 - 2 - 1 - 4 - 4 - 4 - 1 - 1) else
    if i - 4 - 1 - 2 - 1 - 4 - 4 - 4 - 1 - 1 - 1 < 1 then (BitVec.ofBool up).getLsbD (i - 4 - 1 - 2 - 1 - 4 - 4 - 4 - 1 - 1 - 1) else
    if i - 4 - 1 - 2 - 1 - 4 - 4 - 4 - 1 - 1 - 1 - 1 < 1 then (BitVec.ofBool ix.p).getLsbD (i - 4 - 1 - 2 - 1 - 4 - 4 - 4 - 1 - 1 - 1 - 1) else
    if i - 4 - 1 - 2 - 1 - 4 - 4 - 4 - 1 - 1 - 1 - 1 - 1 < 3 then (0b000#3).getLsbD (i - 4 - 1 - 2 - 1 - 4 - 4 - 4 - 1 - 1 - 1 - 1 - 1) else
    c.bits.getLsbD (i - 4 - 1 - 2 - 1 - 4 - 4 - 4 - 1 - 1 - 1 - 1 - 1 - 3) := by
  show (c.bits ++ 0b000#3 ++ BitVec.ofBool ix.p ++ BitVec.ofBool up ++ BitVec.ofBool off.iBit ++ BitVec.ofBool ix.w ++ BitVec.ofBool load ++ regBits rn ++ regBits rd ++ off.high ++ 0b1#1 ++ sh ++ 0b1#1 ++ off.low :
    BitVec (4 + 3 + 1 + 1 + 1 + 1 + 1 + 4 + 4 + 4 + 1 + 2 + 1 + 4)).getLsbD i = _
  iterate 13 rw [BitVec.getLsbD_append]

theorem bit_swap (c : Cond) (byte : Bool) (rn rd rm : Reg) (i : Nat) : (encodeSwap c byte rn rd rm).getLsbD i =
    if i < 4 then (regBits rm).getLsbD i else if i - 4 < 8 then (0b00001001#8).getLsbD (i - 4) else
    if i - 4 - 8 < 4 then (regBits rd).getLsbD (i - 4 - 8) else
    if i - 4 - 8 - 4 < 4 then (regBits rn).getLsbD (i - 4 - 8 - 4) else
    if i - 4 - 8 - 4 - 4 < 2 then (0b00#2).getLsbD (i - 4 - 8 - 4 - 4) else
    if i - 4 - 8 - 4 - 4 - 2 < 1 then (BitVec.ofBool byte).getLsbD (i - 4 - 8 - 4 - 4 - 2) else
    if i - 4 - 8 - 4 - 4 - 2 - 1 < 5 then (0b00010#5).getLsbD (i - 4 - 8 - 4 - 4 - 2 - 1) else
    c.bits.getLsbD (i - 4 - 8 - 4 - 4 - 2 - 1 - 5) := by
  show (c.bits ++ 0b00010#5 ++ BitVec.ofBool byte ++ 0b00#2 ++ regBits rn ++ regBits rd ++ 0b00001001#8 ++ regBits rm :
    BitVec (4 + 5 + 1 + 2 + 4 + 4 + 8 + 4)).getLsbD i = _
  iterate 7 rw [BitVec.getLsbD_append]

theorem bit_mrs (c : Cond) (psr : PsrSel) (rd : Reg) (i : Nat) : (encodeMrs c psr rd).getLsbD i =
    if i < 12 then (0#12).getLsbD i else if i - 12 < 4 then (regBits rd).getLsbD (i - 12) else
    if i - 12 - 4 < 6 then (0b001111#6).getLsbD (i - 12 - 4) else
    if i - 12 - 4 - 6 < 1 then (BitVec.ofBool psr.bit).getLsbD (i - 12 - 4 - 6) else
    if i - 12 - 4 - 6 - 1 < 5 then (0b00010#5).getLsbD (i - 12 - 4 - 6 - 1) else
    c.bits.getLsbD (i - 12 - 4 - 6 - 1 - 5) := by
  show (c.bits ++ 0b00010#5 ++ BitVec.ofBool psr.bit ++ 0b001111#6 ++ regBits rd ++ 0#12 :
    BitVec (4 + 5 + 1 + 6 + 4 + 12)).getLsbD i = _
  iterate 5 rw [BitVec.getLsbD_append]

theorem bit_msrReg (c : Cond) (psr : PsrSel) (mask : BitVec 4) (rm : Reg) (i : Nat) : (encode (.msrReg c psr mask rm)).getLsbD i =
    if i < 4 then (regBits rm).getLsbD i else if i - 4 < 8 then (0#8).getLsbD (i - 4) else
    if i - 4 - 8 < 4 then (0b1111#4).getLsbD (i - 4 - 8) else
    if i - 4 - 8 - 4 < 4 then mask.getLsbD (i - 4 - 8 - 4) else
    if i - 4 - 8 - 4 - 4 < 2 then (0b10#2).getLsbD (i - 4 - 8 - 4 - 4) else
    if i - 4 - 8 - 4 - 4 - 2 < 1 then (BitVec.ofBool psr.bit).getLsbD (i - 4 - 8 - 4 - 4 - 2) else
    if i - 4 - 8 - 4 - 4 - 2 - 1 < 5 then (0b00010#5).getLsbD (i - 4 - 8 - 4 - 4 - 2 - 1) else
    c.bits.getLsbD (i - 4 - 8 - 4 - 4 - 2 - 1 - 5) := by
  show (c.bits ++ 0b00010#5 ++ BitVec.ofBool psr.bit ++ 0b10#2 ++ mask ++ 0b1111#4 ++ 0#8 ++ regBits rm :
    BitVec (4 + 5 + 1 + 2 + 4 + 4 + 8 + 4)).getLsbD i = _
  iterate 7 rw [BitVec.getLsbD_append]

theorem bit_msrImm (c : Cond) (psr : PsrSel) (mask rot : BitVec 4) (imm8 : BitVec 8) (i : Nat) : (encode (.msrImm c psr mask rot imm8)).getLsbD i =
    if i < 8 then imm8.getLsbD i else if i - 8 < 4 then rot.getLsbD (i - 8) else
    if i - 8 - 4 < 4 then (0b1111#4).getLsbD (i - 8 - 4) else
    if i - 8 - 4 - 4 < 4 then mask.getLsbD (i - 8 - 4 - 4) else
    if i - 8 - 4 - 4 - 4 < 2 then (0b10#2).getLsbD (i - 8 - 4 - 4 - 4) else
    if i - 8 - 4 - 4 - 4 - 2 < 1 then (BitVec.ofBool psr.bit).getLsbD (i - 8 - 4 - 4 - 4 - 2) else
    if i - 8 - 4 - 4 - 4 - 2 - 1 < 5 then (0b00110#5).getLsbD (i - 8 - 4 - 4 - 4 - 2 - 1) else
    c.bits.getLsbD (i - 8 - 4 - 4 - 4 - 2 - 1 - 5) := by
  show (c.bits ++ 0b00110#5 ++ BitVec.ofBool psr.bit ++ 0b10#2 ++ mask ++ 0b1111#4 ++ rot ++ imm8 :
    BitVec (4 + 5 + 1 + 2 + 4 + 4 + 4 + 8)).getLsbD i = _
  iterate 7 rw [BitVec.getLsbD_append]

theorem bit_bx (c : Cond) (rm : Reg) (i : Nat) : (encode (.bx c rm)).getLsbD i =
    if i < 4 then (regBits rm).getLsbD i else if i - 4 < 24 then (0x12FFF1#24).getLsbD (i - 4) else
    c.bits.getLsbD (i - 4 - 24) := by
  show (c.bits ++ 0x12FFF1#24 ++ regBits rm :
    BitVec (4 + 24 + 4)).getLsbD i = _
  iterate 2 rw [BitVec.getLsbD_append]

theorem bit_block (c : Cond) (m : BlockMode) (sb wb load : Bool) (rn : Reg) (list : BitVec 16) (i : Nat) : (encodeBlock c m sb wb load rn list).getLsbD i =
    if i < 16 then list.getLsbD i else if i - 16 < 4 then (regBits rn).getLsbD (i - 16) else
    if i - 16 - 4 < 1 then (BitVec.ofBool load).getLsbD (i - 16 - 4) else
    if i - 16 - 4 - 1 < 1 then (BitVec.ofBool wb).getLsbD (i - 16 - 4 - 1) else
    if i - 16 - 4 - 1 - 1 < 1 then (BitVec.ofBool sb).getLsbD (i - 16 - 4 - 1 - 1) else
    if i - 16 - 4 - 1 - 1 - 1 < 2 then m.bits.getLsbD (i - 16 - 4 - 1 - 1 - 1) else
    if i - 16 - 4 - 1 - 1 - 1 - 2 < 3 then (0b100#3).getLsbD (i - 16 - 4 - 1 - 1 - 1 - 2) else
    c.bits.getLsbD (i - 16 - 4 - 1 - 1 - 1 - 2 - 3) := by
  show (c.bits ++ 0b100#3 ++ m.bits ++ BitVec.ofBool sb ++ BitVec.ofBool wb ++ BitVec.ofBool load ++ regBits rn ++ list :
    BitVec (4 + 3 + 2 + 1 + 1 + 1 + 4 + 16)).getLsbD i = _
  iterate 7 rw [BitVec.getLsbD_append]

theorem bit_b (c : Cond) (offset24 : BitVec 24) (i : Nat) : (encode (.b c offset24)).getLsbD i =
    if i < 24 then offset24.getLsbD i else if i - 24 < 4 then (0b1010#4).getLsbD (i - 24) else
    c.bits.getLsbD (i - 24 - 4) := by
  show (c.bits ++ 0b1010#4 ++ offset24 :
    BitVec (4 + 4 + 24)).getLsbD i = _
  iterate 2 rw [BitVec.getLsbD_append]

theorem bit_bl (c : Cond) (offset24 : BitVec 24) (i : Nat) : (encode (.bl c offset24)).getLsbD i =
    if i < 24 then offset24.getLsbD i else if i - 24 < 4 then (0b1011#4).getLsbD (i - 24) else
    c.bits.getLsbD (i - 24 - 4) := by
  show (c.bits ++ 0b1011#4 ++ offset24 :
    BitVec (4 + 4 + 24)).getLsbD i = _
  iterate 2 rw [BitVec.getLsbD_append]

theorem bit_swi (c : Cond) (op : BitVec 4) (call : BitVec 8) (i : Nat) : (encodeSwi c op call).getLsbD i =
    if i < 16 then (0#16).getLsbD i else if i - 16 < 8 then call.getLsbD (i - 16) else
    if i - 16 - 8 < 4 then op.getLsbD (i - 16 - 8) else c.bits.getLsbD (i - 16 - 8 - 4) := by
  show (c.bits ++ op ++ call ++ 0#16 :
    BitVec (4 + 4 + 8 + 16)).getLsbD i = _
  iterate 3 rw [BitVec.getLsbD_append]

/-! ### The fields of every encoding -/

theorem fields_dp (c : Cond) (opcode : BitVec 4) (sf : Bool) (rn rd : Reg) (o : Operand2) :
    field (encodeDp c opcode sf rn rd o) 28 4 = c.bits ∧
    (encodeDp c opcode sf rn rd o).getLsbD 25 = o.iBit ∧
    field (encodeDp c opcode sf rn rd o) 21 4 = opcode ∧
    (encodeDp c opcode sf rn rd o).getLsbD 20 = sf ∧
    field (encodeDp c opcode sf rn rd o) 16 4 = regBits rn ∧
    field (encodeDp c opcode sf rn rd o) 12 4 = regBits rd ∧
    field (encodeDp c opcode sf rn rd o) 0 12 = o.bits := by
  refine ⟨?_, ?_, ?_, ?_, ?_, ?_, ?_⟩
  all_goals first
    | (rw [bit_dp]; simp)
    | (refine field_eq_iff.mpr fun i hi => ?_; rw [bit_dp]; interval_cases i <;> simp)

theorem fields_mul (c : Cond) (a sf : Bool) (rd rn rs rm : Reg) :
    field (encodeMul c a sf rd rn rs rm) 28 4 = c.bits ∧
    (encodeMul c a sf rd rn rs rm).getLsbD 21 = a ∧
    (encodeMul c a sf rd rn rs rm).getLsbD 20 = sf ∧
    field (encodeMul c a sf rd rn rs rm) 16 4 = regBits rd ∧
    field (encodeMul c a sf rd rn rs rm) 12 4 = regBits rn ∧
    field (encodeMul c a sf rd rn rs rm) 8 4 = regBits rs ∧
    field (encodeMul c a sf rd rn rs rm) 0 4 = regBits rm := by
  refine ⟨?_, ?_, ?_, ?_, ?_, ?_, ?_⟩
  all_goals first
    | (rw [bit_mul]; simp)
    | (refine field_eq_iff.mpr fun i hi => ?_; rw [bit_mul]; interval_cases i <;> simp)

theorem fields_mull (c : Cond) (u a sf : Bool) (rdHi rdLo rs rm : Reg) :
    field (encodeMull c u a sf rdHi rdLo rs rm) 28 4 = c.bits ∧
    (encodeMull c u a sf rdHi rdLo rs rm).getLsbD 22 = u ∧
    (encodeMull c u a sf rdHi rdLo rs rm).getLsbD 21 = a ∧
    (encodeMull c u a sf rdHi rdLo rs rm).getLsbD 20 = sf ∧
    field (encodeMull c u a sf rdHi rdLo rs rm) 16 4 = regBits rdHi ∧
    field (encodeMull c u a sf rdHi rdLo rs rm) 12 4 = regBits rdLo ∧
    field (encodeMull c u a sf rdHi rdLo rs rm) 8 4 = regBits rs ∧
    field (encodeMull c u a sf rdHi rdLo rs rm) 0 4 = regBits rm := by
  refine ⟨?_, ?_, ?_, ?_, ?_, ?_, ?_, ?_⟩
  all_goals first
    | (rw [bit_mull]; simp)
    | (refine field_eq_iff.mpr fun i hi => ?_; rw [bit_mull]; interval_cases i <;> simp)

theorem fields_sdt (c : Cond) (p up byte wb load : Bool) (rn rd : Reg) (off : Offset) :
    field (encodeSdt c p up byte wb load rn rd off) 28 4 = c.bits ∧
    (encodeSdt c p up byte wb load rn rd off).getLsbD 25 = off.iBit ∧
    (encodeSdt c p up byte wb load rn rd off).getLsbD 24 = p ∧
    (encodeSdt c p up byte wb load rn rd off).getLsbD 23 = up ∧
    (encodeSdt c p up byte wb load rn rd off).getLsbD 22 = byte ∧
    (encodeSdt c p up byte wb load rn rd off).getLsbD 21 = wb ∧
    (encodeSdt c p up byte wb load rn rd off).getLsbD 20 = load ∧
    field (encodeSdt c p up byte wb load rn rd off) 16 4 = regBits rn ∧
    field (encodeSdt c p up byte wb load rn rd off) 12 4 = regBits rd ∧
    field (encodeSdt c p up byte wb load rn rd off) 0 12 = off.bits := by
  refine ⟨?_, ?_, ?_, ?_, ?_, ?_, ?_, ?_, ?_, ?_⟩
  all_goals first
    | (rw [bit_sdt]; simp)
    | (refine field_eq_iff.mpr fun i hi => ?_; rw [bit_sdt]; interval_cases i <;> simp)

theorem fields_hw (c : Cond) (ix : Indexing) (up load : Bool) (sh : BitVec 2) (rn rd : Reg) (off : HalfOffset) :
    field (encodeHw c ix up load sh rn rd off) 28 4 = c.bits ∧
    (encodeHw c ix up load sh rn rd off).getLsbD 24 = ix.p ∧
    (encodeHw c ix up load sh rn rd off).getLsbD 23 = up ∧
    (encodeHw c ix up load sh rn rd off).getLsbD 22 = off.iBit ∧
    (encodeHw c ix up load sh rn rd off).getLsbD 21 = ix.w ∧
    (encodeHw c ix up load sh rn rd off).getLsbD 20 = load ∧
    field (encodeHw c ix up load sh rn rd off) 16 4 = regBits rn ∧
    field (encodeHw c ix up load sh rn rd off) 12 4 = regBits rd ∧
    field (encodeHw c ix up load sh rn rd off) 8 4 = off.high ∧
    field (encodeHw c ix up load sh rn rd off) 5 2 = sh ∧
    field (encodeHw c ix up load sh rn rd off) 0 4 = off.low := by
  refine ⟨?_, ?_, ?_, ?_, ?_, ?_, ?_, ?_, ?_, ?_, ?_⟩
  all_goals first
    | (rw [bit_hw]; simp)
    | (refine field_eq_iff.mpr fun i hi => ?_; rw [bit_hw]; interval_cases i <;> simp)

theorem fields_swap (c : Cond) (byte : Bool) (rn rd rm : Reg) :
    field (encodeSwap c byte rn rd rm) 28 4 = c.bits ∧
    (encodeSwap c byte rn rd rm).getLsbD 22 = byte ∧
    field (encodeSwap c byte rn rd rm) 16 4 = regBits rn ∧
    field (encodeSwap c byte rn rd rm) 12 4 = regBits rd ∧
    field (encodeSwap c byte rn rd rm) 0 4 = regBits rm := by
  refine ⟨?_, ?_, ?_, ?_, ?_⟩
  all_goals first
    | (rw [bit_swap]; simp)
    | (refine field_eq_iff.mpr fun i hi => ?_; rw [bit_swap]; interval_cases i <;> simp)

theorem fields_mrs (c : Cond) (psr : PsrSel) (rd : Reg) :
    field (encodeMrs c psr rd) 28 4 = c.bits ∧
    (encodeMrs c psr rd).getLsbD 22 = psr.bit ∧
    field (encodeMrs c psr rd) 12 4 = regBits rd := by
  refine ⟨?_, ?_, ?_⟩
  all_goals first
    | (rw [bit_mrs]; simp)
    | (refine field_eq_iff.mpr fun i hi => ?_; rw [bit_mrs]; interval_cases i <;> simp)

theorem fields_msrReg (c : Cond) (psr : PsrSel) (mask : BitVec 4) (rm : Reg) :
    field (encode (.msrReg c psr mask rm)) 28 4 = c.bits ∧
    (encode (.msrReg c psr mask rm)).getLsbD 22 = psr.bit ∧
    field (encode (.msrReg c psr mask rm)) 16 4 = mask ∧
    field (encode (.msrReg c psr mask rm)) 0 4 = regBits rm := by
  refine ⟨?_, ?_, ?_, ?_⟩
  all_goals first
    | (rw [bit_msrReg]; simp)
    | (refine field_eq_iff.mpr fun i hi => ?_; rw [bit_msrReg]; interval_cases i <;> simp)

theorem fields_msrImm (c : Cond) (psr : PsrSel) (mask rot : BitVec 4) (imm8 : BitVec 8) :
    field (encode (.msrImm c psr mask rot imm8)) 28 4 = c.bits ∧
    (encode (.msrImm c psr mask rot imm8)).getLsbD 22 = psr.bit ∧
    field (encode (.msrImm c psr mask rot imm8)) 16 4 = mask ∧
    field (encode (.msrImm c psr mask rot imm8)) 8 4 = rot ∧
    field (encode (.msrImm c psr mask rot imm8)) 0 8 = imm8 := by
  refine ⟨?_, ?_, ?_, ?_, ?_⟩
  all_goals first
    | (rw [bit_msrImm]; simp)
    | (refine field_eq_iff.mpr fun i hi => ?_; rw [bit_msrImm]; interval_cases i <;> simp)

theorem fields_bx (c : Cond) (rm : Reg) :
    field (encode (.bx c rm)) 28 4 = c.bits ∧
    field (encode (.bx c rm)) 0 4 = regBits rm := by
  refine ⟨?_, ?_⟩
  all_goals refine field_eq_iff.mpr fun i hi => ?_; rw [bit_bx]; interval_cases i <;> simp

theorem fields_block (c : Cond) (m : BlockMode) (sb wb load : Bool) (rn : Reg) (list : BitVec 16) :
    field (encodeBlock c m sb wb load rn list) 28 4 = c.bits ∧
    field (encodeBlock c m sb wb load rn list) 23 2 = m.bits ∧
    (encodeBlock c m sb wb load rn list).getLsbD 22 = sb ∧
    (encodeBlock c m sb wb load rn list).getLsbD 21 = wb ∧
    (encodeBlock c m sb wb load rn list).getLsbD 20 = load ∧
    field (encodeBlock c m sb wb load rn list) 16 4 = regBits rn ∧
    field (encodeBlock c m sb wb load rn list) 0 16 = list := by
  refine ⟨?_, ?_, ?_, ?_, ?_, ?_, ?_⟩
  all_goals first
    | (rw [bit_block]; simp)
    | (refine field_eq_iff.mpr fun i hi => ?_; rw [bit_block]; interval_cases i <;> simp)

theorem fields_b (c : Cond) (offset24 : BitVec 24) :
    field (encode (.b c offset24)) 28 4 = c.bits ∧
    field (encode (.b c offset24)) 0 24 = offset24 := by
  refine ⟨?_, ?_⟩
  all_goals refine field_eq_iff.mpr fun i hi => ?_; rw [bit_b]; interval_cases i <;> simp

theorem fields_bl (c : Cond) (offset24 : BitVec 24) :
    field (encode (.bl c offset24)) 28 4 = c.bits ∧
    field (encode (.bl c offset24)) 0 24 = offset24 := by
  refine ⟨?_, ?_⟩
  all_goals refine field_eq_iff.mpr fun i hi => ?_; rw [bit_bl]; interval_cases i <;> simp

theorem fields_swi (c : Cond) (op : BitVec 4) (call : BitVec 8) :
    field (encodeSwi c op call) 28 4 = c.bits ∧
    field (encodeSwi c op call) 24 4 = op ∧
    field (encodeSwi c op call) 16 8 = call := by
  refine ⟨?_, ?_, ?_⟩
  all_goals refine field_eq_iff.mpr fun i hi => ?_; rw [bit_swi]; interval_cases i <;> simp

/-! ### The unit of every encoding -/

theorem unit_mul (c : Cond) (a sf : Bool) (rd rn rs rm : Reg) :
    selectUnit (encodeMul c a sf rd rn rs rm) = some .multiply := by
  rw [selectUnit_eq]
  rw [if_pos (by simp only [field_eq_iff, Nat.forall_lt_succ_right, Nat.not_lt_zero, false_implies, implies_true, true_and, bit_mul]; simp)]

theorem unit_mull (c : Cond) (u a sf : Bool) (rdHi rdLo rs rm : Reg) :
    selectUnit (encodeMull c u a sf rdHi rdLo rs rm) = some .multiplyLong := by
  rw [selectUnit_eq]
  iterate 1 rw [if_neg (by simp only [field_eq_iff, Nat.forall_lt_succ_right, Nat.not_lt_zero, false_implies, implies_true, true_and, bit_mull]; simp)]
  rw [if_pos (by simp only [field_eq_iff, Nat.forall_lt_succ_right, Nat.not_lt_zero, false_implies, implies_true, true_and, bit_mull]; simp)]

theorem unit_sdt (c : Cond) (p up byte wb load : Bool) (rn rd : Reg) (off : Offset) :
    selectUnit (encodeSdt c p up byte wb load rn rd off) = some .singleTransfer := by
  rw [selectUnit_eq]
  iterate 9 rw [if_neg (by simp only [field_eq_iff, Nat.forall_lt_succ_right, Nat.not_lt_zero, false_implies, implies_true, true_and, bit_sdt, ne_eq]; simp)]
  rw [if_pos (by simp only [field_eq_iff, Nat.forall_lt_succ_right, Nat.not_lt_zero, false_implies, implies_true, true_and, bit_sdt]; simp)]

theorem unit_swap (c : Cond) (byte : Bool) (rn rd rm : Reg) :
    selectUnit (encodeSwap c byte rn rd rm) = some .swap := by
  rw [selectUnit_eq]
  iterate 3 rw [if_neg (by simp only [field_eq_iff, Nat.forall_lt_succ_right, Nat.not_lt_zero, false_implies, implies_true, true_and, bit_swap, ne_eq]; simp)]
  rw [if_pos (by simp only [field_eq_iff, Nat.forall_lt_succ_right, Nat.not_lt_zero, false_implies, implies_true, true_and, bit_swap]; simp)]

theorem unit_mrs (c : Cond) (psr : PsrSel) (rd : Reg) :
    selectUnit (encodeMrs c psr rd) = some .mrs := by
  rw [selectUnit_eq]
  iterate 4 rw [if_neg (by simp only [field_eq_iff, Nat.forall_lt_succ_right, Nat.not_lt_zero, false_implies, implies_true, true_and, bit_mrs, ne_eq]; simp)]
  rw [if_pos (by simp only [field_eq_iff, Nat.forall_lt_succ_right, Nat.not_lt_zero, false_implies, implies_true, true_and, bit_mrs]; simp)]

theorem unit_msrReg (c : Cond) (psr : PsrSel) (mask : BitVec 4) (rm : Reg) :
    selectUnit (encode (.msrReg c psr mask rm)) = some .msrReg := by
  rw [selectUnit_eq]
  iterate 5 rw [if_neg (by simp only [field_eq_iff, Nat.forall_lt_succ_right, Nat.not_lt_zero, false_implies, implies_true, true_and, bit_msrReg, ne_eq]; simp)]
  rw [if_pos (by simp only [field_eq_iff, Nat.forall_lt_succ_right, Nat.not_lt_zero, false_implies, implies_true, true_and, bit_msrReg]; simp)]

theorem unit_msrImm (c : Cond) (psr : PsrSel) (mask rot : BitVec 4) (imm8 : BitVec 8) :
    selectUnit (encode (.msrImm c psr mask rot imm8)) = some .msrImm := by
  rw [selectUnit_eq]
  iterate 6 rw [if_neg (by simp only [field_eq_iff, Nat.forall_lt_succ_right, Nat.not_lt_zero, false_implies, implies_true, true_and, bit_msrImm, ne_eq]; simp)]
  rw [if_pos (by simp only [field_eq_iff, Nat.forall_lt_succ_right, Nat.not_lt_zero, false_implies, implies_true, true_and, bit_msrImm]; simp)]

theorem unit_bx (c : Cond) (rm : Reg) :
    selectUnit (encode (.bx c rm)) = some .bx := by
  rw [selectUnit_eq]
  iterate 7 rw [if_neg (by simp only [field_eq_iff, Nat.forall_lt_succ_right, Nat.not_lt_zero, false_implies, implies_true, true_and, bit_bx, ne_eq]; simp)]
  rw [if_pos (by simp only [field_eq_iff, Nat.forall_lt_succ_right, Nat.not_lt_zero, false_implies, implies_true, true_and, bit_bx]; simp)]

theorem unit_block (c : Cond) (m : BlockMode) (sb wb load : Bool) (rn : Reg) (list : BitVec 16) :
    selectUnit (encodeBlock c m sb wb load rn list) = some .blockTransfer := by
  rw [selectUnit_eq]
  iterate 10 rw [if_neg (by simp only [field_eq_iff, Nat.forall_lt_succ_right, Nat.not_lt_zero, false_implies, implies_true, true_and, bit_block, ne_eq]; simp)]
  rw [if_pos (by simp only [field_eq_iff, Nat.forall_lt_succ_right, Nat.not_lt_zero, false_implies, implies_true, true_and, bit_block]; simp)]

theorem unit_b (c : Cond) (offset24 : BitVec 24) :
    selectUnit (encode (.b c offset24)) = some .branch := by
  rw [selectUnit_eq]
  iterate 11 rw [if_neg (by simp only [field_eq_iff, Nat.forall_lt_succ_right, Nat.not_lt_zero, false_implies, implies_true, true_and, bit_b, ne_eq]; simp)]
  rw [if_pos (by simp only [field_eq_iff, Nat.forall_lt_succ_right, Nat.not_lt_zero, false_implies, implies_true, true_and, bit_b]; simp)]

theorem unit_bl (c : Cond) (offset24 : BitVec 24) :
    selectUnit (encode (.bl c offset24)) = some .branch := by
  rw [selectUnit_eq]
  iterate 11 rw [if_neg (by simp only [field_eq_iff, Nat.forall_lt_succ_right, Nat.not_lt_zero, false_implies, implies_true, true_and, bit_bl, ne_eq]; simp)]
  rw [if_pos (by simp only [field_eq_iff, Nat.forall_lt_succ_right, Nat.not_lt_zero, false_implies, implies_true, true_and, bit_bl]; simp)]

theorem unit_hw (c : Cond) (ix : Indexing) (up load : Bool) (sh : BitVec 2) (rn rd : Reg) (off : HalfOffset) (h : sh = 1 ∨ sh = 2 ∨ sh = 3) :
    selectUnit (encodeHw c ix up load sh rn rd off) = some .halfword := by
  rw [selectUnit_eq]
  rcases h with rfl | rfl | rfl <;>
  · iterate 2 rw [if_neg (by simp only [field_eq_iff, Nat.forall_lt_succ_right, Nat.not_lt_zero, false_implies, implies_true, true_and, bit_hw]; simp)]
    rw [if_pos (by simp only [field_eq_iff, Nat.forall_lt_succ_right, Nat.not_lt_zero, false_implies, implies_true, true_and, bit_hw, ne_eq]; simp)]

theorem unit_swi (c : Cond) (op : BitVec 4) (call : BitVec 8) (h : op = 0xC ∨ op = 0xD ∨ op = 0xE ∨ op = 0xF) :
    selectUnit (encodeSwi c op call) = some .softwareInterrupt := by
  rw [selectUnit_eq]
  rcases h with rfl | rfl | rfl | rfl <;>
  · iterate 12 rw [if_neg (by simp only [field_eq_iff, Nat.forall_lt_succ_right, Nat.not_lt_zero, false_implies, implies_true, true_and, bit_swi, ne_eq]; simp)]
    rw [if_pos (by simp only [field_eq_iff, Nat.forall_lt_succ_right, Nat.not_lt_zero, false_implies, implies_true, true_and, bit_swi]; simp)]

/-! ### Operand 2 and the offsets as bits -/

theorem bit_op2Imm (rot : BitVec 4) (imm8 : BitVec 8) (i : Nat) : (Operand2.imm rot imm8).bits.getLsbD i =
    if i < 8 then imm8.getLsbD i else rot.getLsbD (i - 8) := by
  show (rot ++ imm8 : BitVec (4 + 8)).getLsbD i = _
  rw [BitVec.getLsbD_append]

theorem bit_op2ShiftImm (rm : Reg) (ty : ShiftType) (n : BitVec 5) (i : Nat) :
    (Operand2.shiftImm rm ty n).bits.getLsbD i =
    if i < 4 then (regBits rm).getLsbD i else if i - 4 < 1 then (0b0#1).getLsbD (i - 4) else
    if i - 4 - 1 < 2 then ty.bits.getLsbD (i - 4 - 1) else n.getLsbD (i - 4 - 1 - 2) := by
  show (n ++ ty.bits ++ 0b0#1 ++ regBits rm : BitVec (5 + 2 + 1 + 4)).getLsbD i = _
  iterate 3 rw [BitVec.getLsbD_append]

theorem bit_op2ShiftReg (rm : Reg) (ty : ShiftType) (rs : Reg) (i : Nat) :
    (Operand2.shiftReg rm ty rs).bits.getLsbD i =
    if i < 4 then (regBits rm).getLsbD i else if i - 4 < 1 then (0b1#1).getLsbD (i - 4) else
    if i - 4 - 1 < 2 then ty.bits.getLsbD (i - 4 - 1) else if i - 4 - 1 - 2 < 1 then (0b0#1).getLsbD (i - 4 - 1 - 2) else
    (regBits rs).getLsbD (i - 4 - 1 - 2 - 1) := by
  show (regBits rs ++ 0b0#1 ++ ty.bits ++ 0b1#1 ++ regBits rm : BitVec (4 + 1 + 2 + 1 + 4)).getLsbD i = _
  iterate 4 rw [BitVec.getLsbD_append]

theorem bit_offsetReg (rm : Reg) (ty : ShiftType) (n : BitVec 5) (i : Nat) :
    (Offset.reg rm ty n).bits.getLsbD i =
    if i < 4 then (regBits rm).getLsbD i else if i - 4 < 1 then (0b0#1).getLsbD (i - 4) else
    if i - 4 - 1 < 2 then ty.bits.getLsbD (i - 4 - 1) else n.getLsbD (i - 4 - 1 - 2) := by
  show (n ++ ty.bits ++ 0b0#1 ++ regBits rm : BitVec (5 + 2 + 1 + 4)).getLsbD i = _
  iterate 3 rw [BitVec.getLsbD_append]

/-! ### Field values and their names -/

@[simp] theorem Cond.ofBits_bits (c : Cond) : Cond.ofBits c.bits = c := by cases c <;> rfl
@[simp] theorem Cond.bits_ofBits (b : BitVec 4) : (Cond.ofBits b).bits = b := by revert b; decide
@[simp] theorem ShiftType.ofBits_bits (t : ShiftType) : ShiftType.ofBits t.bits = t := by cases t <;> rfl
@[simp] theorem TestOp.ofBits_bits (t : TestOp) : TestOp.ofBits t.bits = t := by cases t <;> rfl
@[simp] theorem BlockMode.ofBits_bits (m : BlockMode) : BlockMode.ofBits m.bits = m := by cases m <;> rfl
@[simp] theorem PsrSel.ofBit_bit (p : PsrSel) : PsrSel.ofBit p.bit = p := by cases p <;> rfl
@[simp] theorem Indexing.ofBits_p_w (ix : Indexing) : Indexing.ofBits ix.p ix.w = ix := by cases ix <;> rfl

theorem regAt_of_field {w : Word} {lo : Nat} {r : Reg} (h : field w lo 4 = regBits r) : regAt w lo = r := by
  unfold regAt; rw [h]; rfl

/-! ### Data processing: the unit -/


/-- A data-processing word outside the tests with S = 0 is taken by no earlier row (rule R155). -/
theorem unit_dp (c : Cond) (opcode : BitVec 4) (sf : Bool) (rn rd : Reg) (o : Operand2)
    (h : sf = true ∨ opcode.getLsbD 3 = false ∨ opcode.getLsbD 2 = true) :
    selectUnit (encodeDp c opcode sf rn rd o) = some .dataProcessing := by
  have hb : ((encodeDp c opcode sf rn rd o).getLsbD 4 = true ∧ (encodeDp c opcode sf rn rd o).getLsbD 7 = true) → (encodeDp c opcode sf rn rd o).getLsbD 25 = true := by
    rw [bit_dp, bit_dp, bit_dp]
    cases o <;> simp only [Operand2.iBit, bit_op2Imm, bit_op2ShiftImm, bit_op2ShiftReg] <;> simp
  have h20 : (encodeDp c opcode sf rn rd o).getLsbD 20 = sf := by rw [bit_dp]; simp
  have h23 : (encodeDp c opcode sf rn rd o).getLsbD 23 = opcode.getLsbD 2 := by rw [bit_dp]; simp
  have h24 : (encodeDp c opcode sf rn rd o).getLsbD 24 = opcode.getLsbD 3 := by rw [bit_dp]; simp
  have h26 : (encodeDp c opcode sf rn rd o).getLsbD 26 = false := by rw [bit_dp]; simp
  have h27 : (encodeDp c opcode sf rn rd o).getLsbD 27 = false := by rw [bit_dp]; simp
  generalize encodeDp c opcode sf rn rd o = w at *
  rw [selectUnit_eq]
  iterate 8 rw [if_neg (by
    simp only [field_eq_iff, Nat.forall_lt_succ_right, Nat.not_lt_zero, false_implies, implies_true, true_and, ne_eq]
    simp only [Nat.reduceAdd, Nat.add_zero, h20, h23, h24]
    rintro hc
    simp_all)]
  rw [if_pos (by simp only [field_eq_iff, Nat.forall_lt_succ_right, Nat.not_lt_zero, false_implies, implies_true, true_and]; simp only [Nat.reduceAdd, Nat.add_zero, h26, h27]; simp)]

theorem bit_testOpcode (b : BitVec 2) (i : Nat) : (0b10#2 ++ b : BitVec 4).getLsbD i =
    if i < 2 then b.getLsbD i else (0b10#2).getLsbD (i - 2) := by
  show (0b10#2 ++ b : BitVec (2 + 2)).getLsbD i = _
  rw [BitVec.getLsbD_append]

theorem regBits_injective {r q : Reg} (h : regBits r = regBits q) : r = q := by
  have := congrArg BitVec.toFin h
  exact this

/-- The only operand whose bits and I bit are all 0. -/
theorem op2_of_bits_zero {o : Operand2} (hi : o.iBit = false) (hb : o.bits = 0) : o = .shiftImm 0 .lsl 0 := by
  have hbit : ∀ i, o.bits.getLsbD i = false := fun i => by rw [hb]; simp
  cases o with
  | imm => cases hi
  | shiftReg rm ty rs =>
    have := hbit 4
    rw [bit_op2ShiftReg] at this
    exact absurd this (by simp)
  | shiftImm rm ty n =>
    have hr : regBits rm = regBits 0 := by
      apply BitVec.eq_of_getLsbD_eq
      intro i hi
      have := hbit i
      rw [bit_op2ShiftImm, if_pos hi] at this
      rw [this]; simp [regBits]
    have ht : ty.bits = 0 := by
      apply BitVec.eq_of_getLsbD_eq
      intro i hi
      have := hbit (i + 5)
      rw [bit_op2ShiftImm, if_neg (by omega), if_neg (by omega), if_pos (by omega)] at this
      rw [show i + 5 - 4 - 1 = i by omega] at this
      rw [this]; simp
    have hn : n = 0 := by
      apply BitVec.eq_of_getLsbD_eq
      intro i hi
      have := hbit (i + 7)
      rw [bit_op2ShiftImm, if_neg (by omega), if_neg (by omega), if_neg (by omega)] at this
      rw [show i + 7 - 4 - 1 - 2 = i by omega] at this
      rw [this]; simp
    rw [regBits_injective hr, hn]
    cases ty <;> first | rfl | exact absurd ht (by decide)

/-- A test with S = 0 that does not have the shape of MRS is taken by no earlier row (rule R156). -/
theorem unit_dpTest (c : Cond) (op : TestOp) (rn : Reg) (o : Operand2) (h : isMrsShape op rn o = false) :
    selectUnit (encodeDp c (0b10#2 ++ op.bits) false rn 0 o) = some .dataProcessing := by
  have hb : ((encodeDp c (0b10#2 ++ op.bits) false rn 0 o).getLsbD 4 = true ∧ (encodeDp c (0b10#2 ++ op.bits) false rn 0 o).getLsbD 7 = true) → (encodeDp c (0b10#2 ++ op.bits) false rn 0 o).getLsbD 25 = true := by
    rw [bit_dp, bit_dp, bit_dp]
    cases o <;> simp only [Operand2.iBit, bit_op2Imm, bit_op2ShiftImm, bit_op2ShiftReg] <;> simp
  have h12 : (encodeDp c (0b10#2 ++ op.bits) false rn 0 o).getLsbD 12 = false := by rw [bit_dp]; simp [regBits]
  have h23 : (encodeDp c (0b10#2 ++ op.bits) false rn 0 o).getLsbD 23 = false := by rw [bit_dp]; simp only [bit_testOpcode]; simp
  have h24 : (encodeDp c (0b10#2 ++ op.bits) false rn 0 o).getLsbD 24 = true := by rw [bit_dp]; simp only [bit_testOpcode]; simp
  have h26 : (encodeDp c (0b10#2 ++ op.bits) false rn 0 o).getLsbD 26 = false := by rw [bit_dp]; simp
  have h27 : (encodeDp c (0b10#2 ++ op.bits) false rn 0 o).getLsbD 27 = false := by rw [bit_dp]; simp
  have hm : ¬ (field (encodeDp c (0b10#2 ++ op.bits) false rn 0 o) 23 5 = 0b00010#5 ∧ field (encodeDp c (0b10#2 ++ op.bits) false rn 0 o) 16 6 = 0b001111#6 ∧ field (encodeDp c (0b10#2 ++ op.bits) false rn 0 o) 0 12 = 0) := by
    rintro ⟨h1, h2, h3⟩
    rw [(fields_dp c _ false rn 0 o).2.2.2.2.2.2] at h3
    have hi : o.iBit = false := by
      have := field_eq_iff.mp h1 2 (by decide)
      rwa [(fields_dp c _ false rn 0 o).2.1] at this
    have ho := op2_of_bits_zero hi h3
    have hr : rn = 15 := regBits_injective (by
      rw [← (fields_dp c (0b10#2 ++ op.bits) false rn 0 o).2.2.2.2.1]
      exact field_eq_iff.mpr fun i hi => by
        rw [field_eq_iff.mp h2 i (by omega)]
        interval_cases i <;> rfl)
    have h21 : op.bits.getLsbD 0 = false := by
      have := field_eq_iff.mp h2 5 (by decide)
      rw [bit_dp] at this
      simp only [bit_testOpcode] at this
      simpa using this
    subst ho hr
    cases op <;> first | exact absurd h21 (by decide) | exact absurd h (by decide)
  generalize encodeDp c (0b10#2 ++ op.bits) false rn 0 o = w at *
  rw [selectUnit_eq]
  rw [if_neg (fun hc => absurd (h24.symm.trans (field_eq_iff.mp hc.1 2 (by decide))) (by decide)),
    if_neg (fun hc => absurd (h23.symm.trans (field_eq_iff.mp hc.1 0 (by decide))) (by decide)),
    if_neg (fun hc => absurd ((hb ⟨hc.2.2.1, hc.2.1⟩).symm.trans (field_eq_iff.mp hc.1 0 (by decide))) (by decide)),
    if_neg (fun hc => absurd ((hb ⟨(field_eq_iff.mp hc.2.2 0 (by decide)).trans (by decide),
      (field_eq_iff.mp hc.2.2 3 (by decide)).trans (by decide)⟩).symm.trans
      (field_eq_iff.mp hc.1 2 (by decide))) (by decide))]
  rw [if_neg hm]
  iterate 3 rw [if_neg (by
    simp only [field_eq_iff, Nat.forall_lt_succ_right, Nat.not_lt_zero, false_implies, implies_true, true_and]
    simp only [Nat.reduceAdd, Nat.add_zero, h12]
    simp)]
  rw [if_pos (by simp only [field_eq_iff, Nat.forall_lt_succ_right, Nat.not_lt_zero, false_implies, implies_true, true_and]; simp only [Nat.reduceAdd, Nat.add_zero, h26, h27]; simp)]

/-! ### Reading an encoding back -/

/-- Decoding reads the fields of the unit the word selects (rule R153). -/
theorem decode_of_unit {w : Word} {u : DecodeUnit} (h : selectUnit w = some u) : decode w = some (decodeUnit u w) := by
  unfold decode; rw [h]; rfl

/-- Operand 2 is read back from bit 25 and bits 11:0 (rules R132 to R134). -/
theorem decodeOperand2_of {w : Word} {o : Operand2} (hi : w.getLsbD 25 = o.iBit) (hb : field w 0 12 = o.bits) :
    decodeOperand2 w = o := by
  have hbit : ∀ i, i < 12 → w.getLsbD i = o.bits.getLsbD i := fun i h => by
    have := field_eq_iff.mp hb i h; rwa [Nat.zero_add] at this
  unfold decodeOperand2
  rw [hi]
  cases o with
  | imm rot imm8 =>
    simp only [Operand2.iBit, if_true]
    congr 1 <;> refine field_eq_iff.mpr fun i hi => ?_ <;> rw [hbit _ (by omega), bit_op2Imm]
    · rw [if_neg (by omega)]; congr 1; omega
    · rw [if_pos (by omega)]; congr 1; omega
  | shiftImm rm ty n =>
    have h4 : w.getLsbD 4 = false := by rw [hbit _ (by omega), bit_op2ShiftImm]; rfl
    have hr : field w 0 4 = regBits rm := field_eq_iff.mpr fun i hi => by
      rw [hbit _ (by omega), bit_op2ShiftImm, if_pos (by omega)]; congr 1; omega
    have ht : field w 5 2 = ty.bits := field_eq_iff.mpr fun i hi => by
      rw [hbit _ (by omega), bit_op2ShiftImm, if_neg (by omega), if_neg (by omega), if_pos (by omega)]; congr 1; omega
    have hn : field w 7 5 = n := field_eq_iff.mpr fun i hi => by
      rw [hbit _ (by omega), bit_op2ShiftImm, if_neg (by omega), if_neg (by omega), if_neg (by omega)]; congr 1; omega
    rw [h4, regAt_of_field hr, ht, hn]; simp [Operand2.iBit]
  | shiftReg rm ty rs =>
    have h4 : w.getLsbD 4 = true := by rw [hbit _ (by omega), bit_op2ShiftReg]; rfl
    have hr : field w 0 4 = regBits rm := field_eq_iff.mpr fun i hi => by
      rw [hbit _ (by omega), bit_op2ShiftReg, if_pos (by omega)]; congr 1; omega
    have ht : field w 5 2 = ty.bits := field_eq_iff.mpr fun i hi => by
      rw [hbit _ (by omega), bit_op2ShiftReg, if_neg (by omega), if_neg (by omega), if_pos (by omega)]; congr 1; omega
    have hn : field w 8 4 = regBits rs := field_eq_iff.mpr fun i hi => by
      rw [hbit _ (by omega), bit_op2ShiftReg, if_neg (by omega), if_neg (by omega), if_neg (by omega), if_neg (by omega)]
      congr 1; omega
    rw [h4, regAt_of_field hr, ht, regAt_of_field hn]; simp [Operand2.iBit]

/-- The offset of a word or byte transfer is read back from bit 25 and bits 11:0 (rule R138). -/
theorem decodeOffset_of {w : Word} {o : Offset} (hi : w.getLsbD 25 = o.iBit) (hb : field w 0 12 = o.bits) :
    decodeOffset w = o := by
  have hbit : ∀ i, i < 12 → w.getLsbD i = o.bits.getLsbD i := fun i h => by
    have := field_eq_iff.mp hb i h; rwa [Nat.zero_add] at this
  unfold decodeOffset
  rw [hi]
  cases o with
  | imm n => simp only [Offset.iBit, Bool.false_eq_true, if_false]; rw [hb]; rfl
  | reg rm ty n =>
    have hr : field w 0 4 = regBits rm := field_eq_iff.mpr fun i hi => by
      rw [hbit _ (by omega), bit_offsetReg, if_pos (by omega)]; congr 1; omega
    have ht : field w 5 2 = ty.bits := field_eq_iff.mpr fun i hi => by
      rw [hbit _ (by omega), bit_offsetReg, if_neg (by omega), if_neg (by omega), if_pos (by omega)]; congr 1; omega
    have hn : field w 7 5 = n := field_eq_iff.mpr fun i hi => by
      rw [hbit _ (by omega), bit_offsetReg, if_neg (by omega), if_neg (by omega), if_neg (by omega)]; congr 1; omega
    simp [Offset.iBit, regAt_of_field hr, ht, hn]

/-- The offset of a halfword transfer is read back from bit 22, bits 11:8 and bits 3:0 (rule R139). -/
theorem decodeHalfOffset_of {w : Word} {o : HalfOffset} (hi : w.getLsbD 22 = o.iBit) (hh : field w 8 4 = o.high)
    (hl : field w 0 4 = o.low) : decodeHalfOffset w = o := by
  unfold decodeHalfOffset
  rw [hi]
  cases o with
  | imm n =>
    simp only [HalfOffset.iBit, if_true]
    rw [hh, hl]
    congr 1
    apply BitVec.eq_of_getLsbD_eq
    intro i hi
    show (n.extractLsb' 4 4 ++ n.extractLsb' 0 4 : BitVec (4+4)).getLsbD i = _
    rw [BitVec.getLsbD_append]
    interval_cases i <;> simp
  | reg rm => simp [HalfOffset.iBit, regAt_of_field (r := rm) hl]

end Sys2Proof
end

