-- ==== Sys2Proof/Laws/Psr.lean ====
section
/-! SUPPORT. The fields of a status register after each way of building one (10_state.md rule R42). -/

namespace Sys2Proof.Machine

/-! ### Bits of the builders -/

theorem getLsbD_withNZCV (p : Word) (n z c v : Bool) (i : Nat) : (withNZCV p n z c v).getLsbD i =
    if i < 28 then p.getLsbD i else if i = 28 then v else if i = 29 then c else if i = 30 then z
    else if i = 31 then n else false := by
  by_cases h : i < 32
  · show (BitVec.ofBool n ++ BitVec.ofBool z ++ BitVec.ofBool c ++ BitVec.ofBool v ++ p.extractLsb' 0 28 :
      BitVec (1 + 1 + 1 + 1 + 28)).getLsbD i = _
    simp only [BitVec.getLsbD_append, BitVec.getLsbD_extractLsb', BitVec.getLsbD_ofBool]
    interval_cases i <;> simp
  · rw [BitVec.getLsbD_of_ge _ _ (by omega)]
    have hp := p.getLsbD_of_ge i (by omega)
    split_ifs <;> first | rfl | exact hp.symm | omega

theorem getLsbD_withNZ (p : Word) (n z : Bool) (i : Nat) : (withNZ p n z).getLsbD i =
    if i < 30 then p.getLsbD i else if i = 30 then z else if i = 31 then n else false := by
  by_cases h : i < 32
  · show (BitVec.ofBool n ++ BitVec.ofBool z ++ p.extractLsb' 0 30 : BitVec (1 + 1 + 30)).getLsbD i = _
    simp only [BitVec.getLsbD_append, BitVec.getLsbD_extractLsb', BitVec.getLsbD_ofBool]
    interval_cases i <;> simp
  · rw [BitVec.getLsbD_of_ge _ _ (by omega)]
    have hp := p.getLsbD_of_ge i (by omega)
    split_ifs <;> first | rfl | exact hp.symm | omega

theorem getLsbD_withT (p : Word) (t : Bool) (i : Nat) : (withT p t).getLsbD i =
    if i = 5 then t else p.getLsbD i := by
  by_cases h : i < 32
  · show (p.extractLsb' 6 26 ++ BitVec.ofBool t ++ p.extractLsb' 0 5 : BitVec (26 + 1 + 5)).getLsbD i = _
    simp only [BitVec.getLsbD_append, BitVec.getLsbD_extractLsb', BitVec.getLsbD_ofBool]
    interval_cases i <;> simp
  · rw [BitVec.getLsbD_of_ge _ _ (by omega)]
    have hp := p.getLsbD_of_ge i (by omega)
    split_ifs <;> first | rfl | exact hp.symm | omega

theorem getLsbD_exceptionPsr (p : Word) (m : Mode) (i : Nat) : (exceptionPsr p m).getLsbD i =
    if i < 5 then m.bits.getLsbD i else if i = 5 then false else if i = 7 then true else p.getLsbD i := by
  by_cases h : i < 32
  · show (p.extractLsb' 8 24 ++ 0b1#1 ++ p.extractLsb' 6 1 ++ 0b0#1 ++ m.bits : BitVec (24 + 1 + 1 + 1 + 5)).getLsbD i = _
    simp only [BitVec.getLsbD_append, BitVec.getLsbD_extractLsb', BitVec.getLsbD_ofBool]
    interval_cases i <;> simp
  · rw [BitVec.getLsbD_of_ge _ _ (by omega)]
    have hp := p.getLsbD_of_ge i (by omega)
    split_ifs <;> first | rfl | exact hp.symm | omega

/-- Fields are equal when their bits are. -/
theorem extractLsb'_congr {p q : Word} {lo n : Nat} (h : ∀ i, lo ≤ i → i < lo + n → p.getLsbD i = q.getLsbD i) :
    p.extractLsb' lo n = q.extractLsb' lo n := by
  ext i hi
  simp only [BitVec.getElem_extractLsb']
  exact h _ (by omega) (by omega)

/-! ### The fields -/

@[simp] theorem psrN_withNZCV (p : Word) (n z c v : Bool) : psrN (withNZCV p n z c v) = n := by simp only [psrN, getLsbD_withNZCV]; rfl
@[simp] theorem psrZ_withNZCV (p : Word) (n z c v : Bool) : psrZ (withNZCV p n z c v) = z := by simp only [psrZ, getLsbD_withNZCV]; rfl
@[simp] theorem psrC_withNZCV (p : Word) (n z c v : Bool) : psrC (withNZCV p n z c v) = c := by simp only [psrC, getLsbD_withNZCV]; rfl
@[simp] theorem psrV_withNZCV (p : Word) (n z c v : Bool) : psrV (withNZCV p n z c v) = v := by simp only [psrV, getLsbD_withNZCV]; rfl
@[simp] theorem low_withNZCV (p : Word) (n z c v : Bool) :
    (withNZCV p n z c v).extractLsb' 0 28 = p.extractLsb' 0 28 :=
  extractLsb'_congr fun i _ h => by rw [getLsbD_withNZCV, if_pos (by omega)]
@[simp] theorem psrMode_withNZCV (p : Word) (n z c v : Bool) : psrMode (withNZCV p n z c v) = psrMode p :=
  extractLsb'_congr fun i _ h => by rw [getLsbD_withNZCV, if_pos (by omega)]
@[simp] theorem psrT_withNZCV (p : Word) (n z c v : Bool) : psrT (withNZCV p n z c v) = psrT p := by
  simp only [psrT, getLsbD_withNZCV]; rfl

@[simp] theorem psrN_withNZ (p : Word) (n z : Bool) : psrN (withNZ p n z) = n := by simp only [psrN, getLsbD_withNZ]; rfl
@[simp] theorem psrZ_withNZ (p : Word) (n z : Bool) : psrZ (withNZ p n z) = z := by simp only [psrZ, getLsbD_withNZ]; rfl
@[simp] theorem psrC_withNZ (p : Word) (n z : Bool) : psrC (withNZ p n z) = psrC p := by simp only [psrC, getLsbD_withNZ]; rfl
@[simp] theorem psrV_withNZ (p : Word) (n z : Bool) : psrV (withNZ p n z) = psrV p := by simp only [psrV, getLsbD_withNZ]; rfl
@[simp] theorem low_withNZ (p : Word) (n z : Bool) : (withNZ p n z).extractLsb' 0 28 = p.extractLsb' 0 28 :=
  extractLsb'_congr fun i _ h => by rw [getLsbD_withNZ, if_pos (by omega)]
@[simp] theorem psrMode_withNZ (p : Word) (n z : Bool) : psrMode (withNZ p n z) = psrMode p :=
  extractLsb'_congr fun i _ h => by rw [getLsbD_withNZ, if_pos (by omega)]
@[simp] theorem psrT_withNZ (p : Word) (n z : Bool) : psrT (withNZ p n z) = psrT p := by simp only [psrT, getLsbD_withNZ]; rfl

@[simp] theorem psrT_withT (p : Word) (t : Bool) : psrT (withT p t) = t := by simp only [psrT, getLsbD_withT]; rfl
@[simp] theorem psrMode_withT (p : Word) (t : Bool) : psrMode (withT p t) = psrMode p :=
  extractLsb'_congr fun i _ h => by rw [getLsbD_withT, if_neg (by omega)]

@[simp] theorem psrMode_exceptionPsr (p : Word) (m : Mode) : psrMode (exceptionPsr p m) = m.bits := by
  unfold psrMode
  ext i hi
  simp [getLsbD_exceptionPsr, hi]
@[simp] theorem psrT_exceptionPsr (p : Word) (m : Mode) : psrT (exceptionPsr p m) = false := by
  simp only [psrT, getLsbD_exceptionPsr]; rfl
@[simp] theorem psrI_exceptionPsr (p : Word) (m : Mode) : psrI (exceptionPsr p m) = true := by
  simp only [psrI, getLsbD_exceptionPsr]; rfl
@[simp] theorem psrF_exceptionPsr (p : Word) (m : Mode) : psrF (exceptionPsr p m) = psrF p := by
  simp only [psrF, getLsbD_exceptionPsr]; rfl
@[simp] theorem high_exceptionPsr (p : Word) (m : Mode) :
    (exceptionPsr p m).extractLsb' 8 24 = p.extractLsb' 8 24 :=
  extractLsb'_congr fun i h _ => by
    rw [getLsbD_exceptionPsr, if_neg (by omega), if_neg (by omega), if_neg (by omega)]

/-! ### The mode field -/

theorem validPsr_congr {p q : Word} (h : psrMode p = psrMode q) : validPsr p = validPsr q := by
  unfold validPsr; rw [h]

@[simp] theorem validPsr_exceptionPsr (p : Word) (m : Mode) : validPsr (exceptionPsr p m) = true := by
  simp [validPsr]

theorem mode_of_ofBits {s : State} {m : Mode} (h : Mode.ofBits (psrMode s.cpsr) = some m) : s.mode = m := by
  simp [State.mode, State.mode?, h]

theorem ofBits_of_valid {s : State} (h : validPsr s.cpsr = true) : Mode.ofBits (psrMode s.cpsr) = some s.mode := by
  unfold validPsr at h
  obtain ⟨m, hm⟩ := Option.isSome_iff_exists.mp h
  rw [hm, mode_of_ofBits hm]

end Sys2Proof.Machine
end

