-- ==== Sys2Proof/Laws/Ops.lean ====
section
/-! SUPPORT. What each shared operation can do: operand reads, register writes, write-back, exception entry and return, and
the frame of an instruction. -/

namespace Sys2Proof.Machine

/-! ### Operand reads -/

theorem State.readR_of_ne (s : State) {i : Reg} (h : i ≠ 15) (b : Bool) : s.readR i b = s.reg s.mode i := by
  simp [State.readR, h]

theorem State.readR_fifteen (s : State) : s.readR 15 = s.pc + 8#32 := by simp [State.readR]

theorem State.readR_fifteen_plus12 (s : State) : s.readR 15 true = s.pc + 12#32 := by simp [State.readR]

theorem State.readR_congr {s t : State} (hr : t.regs = s.regs) (hp : t.pc = s.pc) (hc : t.cpsr = s.cpsr) (i : Reg) (b : Bool) :
    t.readR i b = s.readR i b := by
  unfold State.readR; rw [hp, State.mode_congr hc, State.reg_congr hr hp]

@[simp] theorem State.begin_readR (s : State) (i : Reg) (b : Bool) : s.begin.readR i b = s.readR i b := rfl
@[simp] theorem State.begin_mode (s : State) : s.begin.mode = s.mode := rfl
@[simp] theorem State.begin_reg (s : State) (m : Mode) (i : Reg) : s.begin.reg m i = s.reg m i := rfl
@[simp] theorem State.begin_spsrOf (s : State) (m : Mode) : s.begin.spsrOf m = s.spsrOf m := by cases m <;> rfl
@[simp] theorem State.begin_read8 (s : State) (a : Word) : s.begin.read8 a = s.read8 a := rfl
@[simp] theorem State.begin_read16 (s : State) (a : Word) : s.begin.read16 a = s.read16 a := rfl
@[simp] theorem State.begin_read32 (s : State) (a : Word) : s.begin.read32 a = s.read32 a := rfl

/-! The refill mark is not the bus's. -/

theorem State.begin_write8 (s : State) (a : Word) (v : Byte) : s.begin.write8 a v = (s.write8 a v).begin := by
  unfold State.write8; rw [State.begin_params]; cases regionOf s.params.regions a <;> dsimp only <;> repeat' split
  all_goals rfl

theorem State.begin_write16 (s : State) (a : Word) (v : Half) : s.begin.write16 a v = (s.write16 a v).begin := by
  unfold State.write16; simp only [State.begin_write8, State.begin_params]; split <;> rfl

theorem State.begin_write32 (s : State) (a v : Word) : s.begin.write32 a v = (s.write32 a v).begin := by
  unfold State.write32; simp only [State.begin_write8]

/-! ### Register writes -/

theorem State.writeR_fifteen (s : State) (v : Word) :
    s.writeR 15 v = { s with pc := v &&& 0xFFFFFFFC#32, refill := true } := by simp [State.writeR]

theorem State.writeR_of_ne (s : State) {i : Reg} (h : i ≠ 15) (v : Word) : s.writeR i v = s.setReg s.mode i v := by
  simp [State.writeR, h]

@[simp] theorem State.writeR_cpsr (s : State) (i : Reg) (v : Word) : (s.writeR i v).cpsr = s.cpsr := by
  unfold State.writeR; split <;> simp
@[simp] theorem State.writeR_spsrFiq (s : State) (i : Reg) (v : Word) : (s.writeR i v).spsrFiq = s.spsrFiq := by
  unfold State.writeR; split <;> simp
@[simp] theorem State.writeR_spsrIrq (s : State) (i : Reg) (v : Word) : (s.writeR i v).spsrIrq = s.spsrIrq := by
  unfold State.writeR; split <;> simp
@[simp] theorem State.writeR_spsrSvc (s : State) (i : Reg) (v : Word) : (s.writeR i v).spsrSvc = s.spsrSvc := by
  unfold State.writeR; split <;> simp
@[simp] theorem State.writeR_spsrAbt (s : State) (i : Reg) (v : Word) : (s.writeR i v).spsrAbt = s.spsrAbt := by
  unfold State.writeR; split <;> simp
@[simp] theorem State.writeR_spsrUnd (s : State) (i : Reg) (v : Word) : (s.writeR i v).spsrUnd = s.spsrUnd := by
  unfold State.writeR; split <;> simp
@[simp] theorem State.writeR_pending (s : State) (i : Reg) (v : Word) : (s.writeR i v).pending = s.pending := by
  unfold State.writeR; split <;> simp
@[simp] theorem State.writeR_mem (s : State) (i : Reg) (v : Word) : (s.writeR i v).mem = s.mem := by
  unfold State.writeR; split <;> simp
@[simp] theorem State.writeR_cycles (s : State) (i : Reg) (v : Word) : (s.writeR i v).cycles = s.cycles := by
  unfold State.writeR; split <;> simp
@[simp] theorem State.writeR_calls (s : State) (i : Reg) (v : Word) : (s.writeR i v).calls = s.calls := by
  unfold State.writeR; split <;> simp
@[simp] theorem State.writeR_params (s : State) (i : Reg) (v : Word) : (s.writeR i v).params = s.params := by
  unfold State.writeR; split <;> simp
@[simp] theorem State.writeR_irqLine (s : State) (i : Reg) (v : Word) : (s.writeR i v).irqLine = s.irqLine := by
  unfold State.writeR; split <;> simp
@[simp] theorem State.writeR_draws (s : State) (i : Reg) (v : Word) : (s.writeR i v).draws = s.draws := by
  unfold State.writeR; split <;> simp
@[simp] theorem State.writeR_mode (s : State) (i : Reg) (v : Word) : (s.writeR i v).mode = s.mode :=
  State.mode_congr (by simp)

@[simp] theorem State.writeR_refill (s : State) (i : Reg) (v : Word) : (s.writeR i v).refill = (s.refill || i == 15) := by
  unfold State.writeR; split <;> simp [*]

theorem State.writeR_pc (s : State) (i : Reg) (v : Word) :
    (s.writeR i v).pc = if i = 15 then v &&& 0xFFFFFFFC#32 else s.pc := by
  unfold State.writeR; split
  · rfl
  · next h => exact State.setReg_pc h s v

/-- A write leaves every physical register but its own (rule R35). -/
theorem State.get_writeR (s : State) (i : Reg) (v : Word) (p : PhysReg) :
    (s.writeR i v).regs.get p = if view s.mode i = some p then v else s.regs.get p := by
  unfold State.writeR; split
  · next h => subst h; simp [view_fifteen]
  · exact State.get_setReg s s.mode i v p

theorem State.reg_writeR_same (s : State) {i : Reg} (h : i ≠ 15) (v : Word) : (s.writeR i v).reg s.mode i = v := by
  rw [State.writeR_of_ne s h]; simp

/-- Reading a register of a view is reading its physical register. -/
theorem State.reg_eq_get {m : Mode} {i : Reg} (h : i ≠ 15) : ∃ p, view m i = some p ∧ ∀ t : State, t.reg m i = t.regs.get p := by
  obtain ⟨p, hp⟩ := view_isSome (m := m) h
  exact ⟨p, hp, fun t => State.reg_of_view hp⟩

/-- Registers of different numbers are different physical registers, whatever the views (rule R34). -/
theorem view_index {m n : Mode} {i j : Reg} {p : PhysReg} (hi : view m i = some p) (hj : view n j = some p) : i = j := by
  revert i j p
  cases m <;> cases n <;> intro i j p hi hj <;> revert hi hj <;> revert p <;> revert i j <;> decide

/-! ### Write-back -/

/-- The write-back of a transfer (rule R261). -/
theorem State.writeback_eq (s : State) (ix : Indexing) (rn rd : Reg) (ea : Word) :
    s.writeback ix rn rd ea = if ix = .post ∨ (ix = .preWriteback ∧ rn ≠ rd) then s.writeR rn ea else s := by
  cases ix <;> simp [State.writeback]

@[simp] theorem State.writeback_cpsr (s : State) (ix : Indexing) (rn rd : Reg) (ea : Word) :
    (s.writeback ix rn rd ea).cpsr = s.cpsr := by rw [State.writeback_eq]; split <;> simp
@[simp] theorem State.writeback_spsrFiq (s : State) (ix : Indexing) (rn rd : Reg) (ea : Word) :
    (s.writeback ix rn rd ea).spsrFiq = s.spsrFiq := by rw [State.writeback_eq]; split <;> simp
@[simp] theorem State.writeback_spsrIrq (s : State) (ix : Indexing) (rn rd : Reg) (ea : Word) :
    (s.writeback ix rn rd ea).spsrIrq = s.spsrIrq := by rw [State.writeback_eq]; split <;> simp
@[simp] theorem State.writeback_spsrSvc (s : State) (ix : Indexing) (rn rd : Reg) (ea : Word) :
    (s.writeback ix rn rd ea).spsrSvc = s.spsrSvc := by rw [State.writeback_eq]; split <;> simp
@[simp] theorem State.writeback_spsrAbt (s : State) (ix : Indexing) (rn rd : Reg) (ea : Word) :
    (s.writeback ix rn rd ea).spsrAbt = s.spsrAbt := by rw [State.writeback_eq]; split <;> simp
@[simp] theorem State.writeback_spsrUnd (s : State) (ix : Indexing) (rn rd : Reg) (ea : Word) :
    (s.writeback ix rn rd ea).spsrUnd = s.spsrUnd := by rw [State.writeback_eq]; split <;> simp
@[simp] theorem State.writeback_pending (s : State) (ix : Indexing) (rn rd : Reg) (ea : Word) :
    (s.writeback ix rn rd ea).pending = s.pending := by rw [State.writeback_eq]; split <;> simp
@[simp] theorem State.writeback_mem (s : State) (ix : Indexing) (rn rd : Reg) (ea : Word) :
    (s.writeback ix rn rd ea).mem = s.mem := by rw [State.writeback_eq]; split <;> simp
@[simp] theorem State.writeback_cycles (s : State) (ix : Indexing) (rn rd : Reg) (ea : Word) :
    (s.writeback ix rn rd ea).cycles = s.cycles := by rw [State.writeback_eq]; split <;> simp
@[simp] theorem State.writeback_calls (s : State) (ix : Indexing) (rn rd : Reg) (ea : Word) :
    (s.writeback ix rn rd ea).calls = s.calls := by rw [State.writeback_eq]; split <;> simp
@[simp] theorem State.writeback_params (s : State) (ix : Indexing) (rn rd : Reg) (ea : Word) :
    (s.writeback ix rn rd ea).params = s.params := by rw [State.writeback_eq]; split <;> simp
@[simp] theorem State.writeback_irqLine (s : State) (ix : Indexing) (rn rd : Reg) (ea : Word) :
    (s.writeback ix rn rd ea).irqLine = s.irqLine := by rw [State.writeback_eq]; split <;> simp
@[simp] theorem State.writeback_draws (s : State) (ix : Indexing) (rn rd : Reg) (ea : Word) :
    (s.writeback ix rn rd ea).draws = s.draws := by rw [State.writeback_eq]; split <;> simp
@[simp] theorem State.writeback_mode (s : State) (ix : Indexing) (rn rd : Reg) (ea : Word) :
    (s.writeback ix rn rd ea).mode = s.mode := by rw [State.writeback_eq]; split <;> simp

/-! ### Flags -/

@[simp] theorem State.setFlags_mode (s : State) (a : AluOut) : (s.setFlags a).mode = s.mode := by
  simp [State.mode, State.mode?]

@[simp] theorem State.setNZ_mode (s : State) (n z : Bool) : (s.setNZ n z).mode = s.mode := by
  simp [State.mode, State.mode?]

/-! ### Exception entry -/

@[simp] theorem State.enter_pending (s : State) (m : Mode) (v l : Word) : (s.enter m v l).pending = s.pending := by
  simp [State.enter]
@[simp] theorem State.enter_mem (s : State) (m : Mode) (v l : Word) : (s.enter m v l).mem = s.mem := by
  simp [State.enter]
@[simp] theorem State.enter_cycles (s : State) (m : Mode) (v l : Word) : (s.enter m v l).cycles = s.cycles := by
  simp [State.enter]
@[simp] theorem State.enter_calls (s : State) (m : Mode) (v l : Word) : (s.enter m v l).calls = s.calls := by
  simp [State.enter]
@[simp] theorem State.enter_params (s : State) (m : Mode) (v l : Word) : (s.enter m v l).params = s.params := by
  simp [State.enter]
@[simp] theorem State.enter_irqLine (s : State) (m : Mode) (v l : Word) : (s.enter m v l).irqLine = s.irqLine := by
  simp [State.enter]
@[simp] theorem State.enter_draws (s : State) (m : Mode) (v l : Word) : (s.enter m v l).draws = s.draws := by
  simp [State.enter]
@[simp] theorem State.enter_pc (s : State) (m : Mode) (v l : Word) : (s.enter m v l).pc = v := rfl
@[simp] theorem State.enter_refill (s : State) (m : Mode) (v l : Word) : (s.enter m v l).refill = true := rfl
@[simp] theorem State.enter_cpsr (s : State) (m : Mode) (v l : Word) : (s.enter m v l).cpsr = exceptionPsr s.cpsr m := by
  simp [State.enter]

theorem State.enter_spsrOf (s : State) (m n : Mode) (v l : Word) :
    (s.enter m v l).spsrOf n = if m = n ∧ m.hasSpsr then s.cpsr else s.spsrOf n := by
  rw [← State.spsrOf_setSpsr]
  exact State.spsrOf_congr (by simp [State.enter]) (by simp [State.enter]) (by simp [State.enter])
    (by simp [State.enter]) (by simp [State.enter]) n

theorem State.get_enter (s : State) (m : Mode) (v l : Word) (p : PhysReg) :
    (s.enter m v l).regs.get p = if view m 14 = some p then l else s.regs.get p := by
  simp only [State.enter]
  rw [State.get_setReg]
  simp

/-! ### Return from exception -/

/-- The three outcomes of the CPSR restore (rule R180). -/
theorem State.restoreCpsr_cases (s : State) :
    (s.mode.hasSpsr = false ∧ s.restoreCpsr = .next s) ∨
    (s.mode.hasSpsr = true ∧ validPsr (s.spsrOf s.mode) = true ∧
      s.restoreCpsr = .next { s with cpsr := s.spsrOf s.mode }) ∨
    (s.mode.hasSpsr = true ∧ validPsr (s.spsrOf s.mode) = false ∧ s.restoreCpsr = .refused .invalidMode) := by
  unfold State.restoreCpsr
  cases h : s.mode.hasSpsr <;> cases h' : validPsr (s.spsrOf s.mode) <;> simp

/-! ### The frame of an instruction -/

theorem conditionally_passed {c : Cond} {s : State} (h : condPassed c s.cpsr = true) (f : State → Result) :
    conditionally c s f = f s.begin := by simp [conditionally, h]

theorem conditionally_failed {c : Cond} {s : State} (h : condPassed c s.cpsr = false) (f : State → Result) :
    conditionally c s f =
      .next { s with pc := s.pc + 4#32, cycles := 1 + busCost s.params [⟨s.pc, .word⟩], refill := false } := by
  simp [conditionally, h, State.finish, State.begin]

/-- An instruction either fails its condition or does its work. -/
theorem conditionally_next {c : Cond} {s t : State} {f : State → Result} (h : conditionally c s f = .next t) :
    (condPassed c s.cpsr = false ∧
      t = { s with pc := s.pc + 4#32, cycles := 1 + busCost s.params [⟨s.pc, .word⟩], refill := false }) ∨
    (condPassed c s.cpsr = true ∧ f s.begin = .next t) := by
  cases hc : condPassed c s.cpsr
  · rw [conditionally_failed hc] at h
    exact .inl ⟨rfl, by injection h with h; exact h.symm⟩
  · rw [conditionally_passed hc] at h
    exact .inr ⟨rfl, h⟩

theorem conditionally_refused {c : Cond} {s : State} {f : State → Result} {r : Refusal}
    (h : conditionally c s f = .refused r) : condPassed c s.cpsr = true ∧ f s.begin = .refused r := by
  cases hc : condPassed c s.cpsr
  · rw [conditionally_failed hc] at h; cases h
  · rw [conditionally_passed hc] at h; exact ⟨rfl, h⟩

@[simp] theorem State.finish_readR_mode (start : State) (base : Nat) (xs : List Access) (s : State) :
    (start.finish base xs s).mode = s.mode := rfl

@[simp] theorem State.finish_spsrOf (start : State) (base : Nat) (xs : List Access) (s : State) (m : Mode) :
    (start.finish base xs s).spsrOf m = s.spsrOf m := by cases m <;> rfl

@[simp] theorem State.finish_read8 (start : State) (base : Nat) (xs : List Access) (s : State) (a : Word) :
    (start.finish base xs s).read8 a = s.read8 a := rfl

theorem mapNext_next {f : State → State} {r : Result} {t : State} :
    mapNext f r = .next t ↔ ∃ u, r = .next u ∧ t = f u := by
  cases r <;> simp [mapNext, eq_comm]

theorem mapNext_refused {f : State → State} {r : Result} {x : Refusal} :
    mapNext f r = .refused x ↔ r = .refused x := by
  cases r <;> simp [mapNext]

/-! ### The system-call handler -/

@[simp] theorem State.setView_cpsr (s : State) (m : Mode) (v : Vector Word 15) : (s.setView m v).cpsr = s.cpsr := by
  unfold State.setView
  generalize List.finRange 15 = l
  induction l generalizing s with
  | nil => rfl
  | cons i l ih => rw [List.foldl_cons, ih]; simp
@[simp] theorem State.setView_spsrFiq (s : State) (m : Mode) (v : Vector Word 15) : (s.setView m v).spsrFiq = s.spsrFiq := by
  unfold State.setView
  generalize List.finRange 15 = l
  induction l generalizing s with
  | nil => rfl
  | cons i l ih => rw [List.foldl_cons, ih]; simp
@[simp] theorem State.setView_spsrIrq (s : State) (m : Mode) (v : Vector Word 15) : (s.setView m v).spsrIrq = s.spsrIrq := by
  unfold State.setView
  generalize List.finRange 15 = l
  induction l generalizing s with
  | nil => rfl
  | cons i l ih => rw [List.foldl_cons, ih]; simp
@[simp] theorem State.setView_spsrSvc (s : State) (m : Mode) (v : Vector Word 15) : (s.setView m v).spsrSvc = s.spsrSvc := by
  unfold State.setView
  generalize List.finRange 15 = l
  induction l generalizing s with
  | nil => rfl
  | cons i l ih => rw [List.foldl_cons, ih]; simp
@[simp] theorem State.setView_spsrAbt (s : State) (m : Mode) (v : Vector Word 15) : (s.setView m v).spsrAbt = s.spsrAbt := by
  unfold State.setView
  generalize List.finRange 15 = l
  induction l generalizing s with
  | nil => rfl
  | cons i l ih => rw [List.foldl_cons, ih]; simp
@[simp] theorem State.setView_spsrUnd (s : State) (m : Mode) (v : Vector Word 15) : (s.setView m v).spsrUnd = s.spsrUnd := by
  unfold State.setView
  generalize List.finRange 15 = l
  induction l generalizing s with
  | nil => rfl
  | cons i l ih => rw [List.foldl_cons, ih]; simp
@[simp] theorem State.setView_pending (s : State) (m : Mode) (v : Vector Word 15) : (s.setView m v).pending = s.pending := by
  unfold State.setView
  generalize List.finRange 15 = l
  induction l generalizing s with
  | nil => rfl
  | cons i l ih => rw [List.foldl_cons, ih]; simp
@[simp] theorem State.setView_mem (s : State) (m : Mode) (v : Vector Word 15) : (s.setView m v).mem = s.mem := by
  unfold State.setView
  generalize List.finRange 15 = l
  induction l generalizing s with
  | nil => rfl
  | cons i l ih => rw [List.foldl_cons, ih]; simp
@[simp] theorem State.setView_refill (s : State) (m : Mode) (v : Vector Word 15) : (s.setView m v).refill = s.refill := by
  unfold State.setView
  generalize List.finRange 15 = l
  induction l generalizing s with
  | nil => rfl
  | cons i l ih => rw [List.foldl_cons, ih]; simp
@[simp] theorem State.setView_cycles (s : State) (m : Mode) (v : Vector Word 15) : (s.setView m v).cycles = s.cycles := by
  unfold State.setView
  generalize List.finRange 15 = l
  induction l generalizing s with
  | nil => rfl
  | cons i l ih => rw [List.foldl_cons, ih]; simp
@[simp] theorem State.setView_calls (s : State) (m : Mode) (v : Vector Word 15) : (s.setView m v).calls = s.calls := by
  unfold State.setView
  generalize List.finRange 15 = l
  induction l generalizing s with
  | nil => rfl
  | cons i l ih => rw [List.foldl_cons, ih]; simp
@[simp] theorem State.setView_params (s : State) (m : Mode) (v : Vector Word 15) : (s.setView m v).params = s.params := by
  unfold State.setView
  generalize List.finRange 15 = l
  induction l generalizing s with
  | nil => rfl
  | cons i l ih => rw [List.foldl_cons, ih]; simp
@[simp] theorem State.setView_irqLine (s : State) (m : Mode) (v : Vector Word 15) : (s.setView m v).irqLine = s.irqLine := by
  unfold State.setView
  generalize List.finRange 15 = l
  induction l generalizing s with
  | nil => rfl
  | cons i l ih => rw [List.foldl_cons, ih]; simp
@[simp] theorem State.setView_draws (s : State) (m : Mode) (v : Vector Word 15) : (s.setView m v).draws = s.draws := by
  unfold State.setView
  generalize List.finRange 15 = l
  induction l generalizing s with
  | nil => rfl
  | cons i l ih => rw [List.foldl_cons, ih]; simp

theorem State.foldl_setReg_get (m : Mode) (v : Vector Word 15) (p : PhysReg) (l : List (Fin 15)) : ∀ s : State,
    (∀ i ∈ l, view m i.castSucc ≠ some p) →
    (l.foldl (fun t i => t.setReg m i.castSucc v[i]) s).regs.get p = s.regs.get p := by
  induction l with
  | nil => exact fun _ _ => rfl
  | cons i l ih =>
    intro s h
    rw [List.foldl_cons, ih _ (fun j hj => h j (List.mem_cons_of_mem _ hj)), State.get_setReg,
      if_neg (h i List.mem_cons_self)]

/-- The registers outside the view are not the handler's. -/
theorem State.get_setView_ne (s : State) (m : Mode) (v : Vector Word 15) {p : PhysReg}
    (h : ∀ i : Reg, view m i ≠ some p) : (s.setView m v).regs.get p = s.regs.get p :=
  State.foldl_setReg_get m v p _ s fun i _ => h i.castSucc

/-- The registers of the view are what the handler left. -/
theorem State.get_setView_same (s : State) (m : Mode) (v : Vector Word 15) (k : Fin 15) {p : PhysReg}
    (h : view m k.castSucc = some p) : (s.setView m v).regs.get p = v[k] := by
  have key : ∀ (l : List (Fin 15)) (s : State), k ∈ l → l.Nodup →
      (l.foldl (fun t i => t.setReg m i.castSucc v[i]) s).regs.get p = v[k] := by
    intro l
    induction l with
    | nil => intro s hk; cases hk
    | cons i l ih =>
      intro s hk hn
      rw [List.foldl_cons]
      rw [List.nodup_cons] at hn
      rcases List.mem_cons.mp hk with e | hk
      · subst e
        rw [State.foldl_setReg_get, State.get_setReg, if_pos h]
        intro j hj e
        have := Fin.castSucc_injective _ (view_index e h)
        exact hn.1 (this ▸ hj)
      · exact ih _ hk hn.2
  exact key _ s (List.mem_finRange k) (List.nodup_finRange 15)

/-- The handler's stores keep everything a bus write keeps. -/
theorem foldl_write8 {P : State → Prop} (h : ∀ s a b, P s → P (s.write8 a b)) (l : List (Word × Byte)) :
    ∀ s, P s → P (l.foldl (fun t x => t.write8 x.1 x.2) s) := by
  induction l with
  | nil => exact fun _ hs => hs
  | cons x l ih => exact fun s hs => ih _ (h s x.1 x.2 hs)

end Sys2Proof.Machine
end

