-- ==== Sys2Proof/Laws/Exec.lean ====
section
/-! SUPPORT. What the walks of LDM and STM leave, and what a whole instruction or step can do to memory. -/

namespace Sys2Proof.Machine

/-! ### The walk of LDM (rule R294) -/

@[simp] theorem loadList_cpsr (user : Bool) (l : List Reg) : ∀ (a : Word) (s : State),
    (loadList user l a s).cpsr = s.cpsr := by
  induction l with
  | nil => exact fun _ _ => rfl
  | cons i l ih => intro a s; rw [loadList, ih]; split <;> simp
@[simp] theorem loadList_spsrFiq (user : Bool) (l : List Reg) : ∀ (a : Word) (s : State),
    (loadList user l a s).spsrFiq = s.spsrFiq := by
  induction l with
  | nil => exact fun _ _ => rfl
  | cons i l ih => intro a s; rw [loadList, ih]; split <;> simp
@[simp] theorem loadList_spsrIrq (user : Bool) (l : List Reg) : ∀ (a : Word) (s : State),
    (loadList user l a s).spsrIrq = s.spsrIrq := by
  induction l with
  | nil => exact fun _ _ => rfl
  | cons i l ih => intro a s; rw [loadList, ih]; split <;> simp
@[simp] theorem loadList_spsrSvc (user : Bool) (l : List Reg) : ∀ (a : Word) (s : State),
    (loadList user l a s).spsrSvc = s.spsrSvc := by
  induction l with
  | nil => exact fun _ _ => rfl
  | cons i l ih => intro a s; rw [loadList, ih]; split <;> simp
@[simp] theorem loadList_spsrAbt (user : Bool) (l : List Reg) : ∀ (a : Word) (s : State),
    (loadList user l a s).spsrAbt = s.spsrAbt := by
  induction l with
  | nil => exact fun _ _ => rfl
  | cons i l ih => intro a s; rw [loadList, ih]; split <;> simp
@[simp] theorem loadList_spsrUnd (user : Bool) (l : List Reg) : ∀ (a : Word) (s : State),
    (loadList user l a s).spsrUnd = s.spsrUnd := by
  induction l with
  | nil => exact fun _ _ => rfl
  | cons i l ih => intro a s; rw [loadList, ih]; split <;> simp
@[simp] theorem loadList_pending (user : Bool) (l : List Reg) : ∀ (a : Word) (s : State),
    (loadList user l a s).pending = s.pending := by
  induction l with
  | nil => exact fun _ _ => rfl
  | cons i l ih => intro a s; rw [loadList, ih]; split <;> simp
@[simp] theorem loadList_mem (user : Bool) (l : List Reg) : ∀ (a : Word) (s : State),
    (loadList user l a s).mem = s.mem := by
  induction l with
  | nil => exact fun _ _ => rfl
  | cons i l ih => intro a s; rw [loadList, ih]; split <;> simp
@[simp] theorem loadList_cycles (user : Bool) (l : List Reg) : ∀ (a : Word) (s : State),
    (loadList user l a s).cycles = s.cycles := by
  induction l with
  | nil => exact fun _ _ => rfl
  | cons i l ih => intro a s; rw [loadList, ih]; split <;> simp
@[simp] theorem loadList_calls (user : Bool) (l : List Reg) : ∀ (a : Word) (s : State),
    (loadList user l a s).calls = s.calls := by
  induction l with
  | nil => exact fun _ _ => rfl
  | cons i l ih => intro a s; rw [loadList, ih]; split <;> simp
@[simp] theorem loadList_params (user : Bool) (l : List Reg) : ∀ (a : Word) (s : State),
    (loadList user l a s).params = s.params := by
  induction l with
  | nil => exact fun _ _ => rfl
  | cons i l ih => intro a s; rw [loadList, ih]; split <;> simp
@[simp] theorem loadList_irqLine (user : Bool) (l : List Reg) : ∀ (a : Word) (s : State),
    (loadList user l a s).irqLine = s.irqLine := by
  induction l with
  | nil => exact fun _ _ => rfl
  | cons i l ih => intro a s; rw [loadList, ih]; split <;> simp
@[simp] theorem loadList_draws (user : Bool) (l : List Reg) : ∀ (a : Word) (s : State),
    (loadList user l a s).draws = s.draws := by
  induction l with
  | nil => exact fun _ _ => rfl
  | cons i l ih => intro a s; rw [loadList, ih]; split <;> simp
@[simp] theorem loadList_mode (user : Bool) (l : List Reg) (a : Word) (s : State) :
    (loadList user l a s).mode = s.mode := State.mode_congr (by simp)
@[simp] theorem loadList_spsrOf (user : Bool) (l : List Reg) (a : Word) (s : State) (m : Mode) :
    (loadList user l a s).spsrOf m = s.spsrOf m :=
  State.spsrOf_congr (by simp) (by simp) (by simp) (by simp) (by simp) m
@[simp] theorem loadList_read8 (user : Bool) (l : List Reg) (a : Word) (s : State) (b : Word) :
    (loadList user l a s).read8 b = s.read8 b := State.read8_congr (by simp) (by simp) (by simp) (by simp) b

/-- The walk writes R15 exactly when it is listed. -/
@[simp] theorem loadList_refill (user : Bool) (l : List Reg) : ∀ (a : Word) (s : State),
    (loadList user l a s).refill = (s.refill || l.contains 15) := by
  induction l with
  | nil => simp [loadList]
  | cons i l ih =>
    intro a s
    rw [loadList, ih, List.contains_cons]
    split
    · next h =>
      simp only [Bool.and_eq_true, bne_iff_ne] at h
      have e : (15 == i) = false := by simpa using Ne.symm h.2
      rw [e]; simp
    · have e : (15 == i) = (i == 15) := by rw [Bool.eq_iff_iff, beq_iff_eq, beq_iff_eq, eq_comm]
      rw [e, State.writeR_refill, Bool.or_assoc]

/-- The view the walk loads into (rule R296). -/
theorem loadList_cons_get (user : Bool) (i : Reg) (a : Word) (s : State) (p : PhysReg) :
    (if user && i != 15 then s.setReg .usr i (s.read32 a) else s.writeR i (s.read32 a)).regs.get p =
      if view (if user then .usr else s.mode) i = some p then s.read32 a else s.regs.get p := by
  by_cases h : i = 15
  · subst h; simp [State.get_writeR, view_fifteen]
  · cases user <;> simp [h, State.get_writeR, State.get_setReg]

/-- A register outside the list is as before. -/
theorem get_loadList_of_not_listed (user : Bool) (l : List Reg) : ∀ (a : Word) (s : State) (p : PhysReg),
    (∀ i ∈ l, view (if user then .usr else s.mode) i ≠ some p) → (loadList user l a s).regs.get p = s.regs.get p := by
  induction l with
  | nil => exact fun _ _ _ _ => rfl
  | cons i l ih =>
    intro a s p h
    have hm : ∀ v, (if user && i != 15 then s.setReg .usr i v else s.writeR i v).mode = s.mode := fun v => by
      split <;> exact State.mode_congr (by simp)
    rw [loadList, ih _ _ _ (by rw [hm]; exact fun j hj => h j (List.mem_cons_of_mem _ hj)), loadList_cons_get,
      if_neg (h i List.mem_cons_self)]

/-- The address of a listed register: 4 bytes on for every listed register below it (rule R290). -/
theorem listed_offset_cons {i j : Reg} {l : List Reg} (h : i < j) (a : Word) :
    a + 4#32 + BitVec.ofNat 32 (4 * (l.filter (· < j)).length) =
      a + BitVec.ofNat 32 (4 * ((i :: l).filter (· < j)).length) := by
  rw [List.filter_cons_of_pos (by simpa using h), List.length_cons]
  apply BitVec.eq_of_toNat_eq
  simp only [BitVec.toNat_add, BitVec.toNat_ofNat]
  omega

theorem listed_offset_head {i : Reg} {l : List Reg} (h : ∀ j ∈ l, i < j) (a : Word) :
    a + BitVec.ofNat 32 (4 * ((i :: l).filter (· < i)).length) = a := by
  have : (i :: l).filter (· < i) = [] := by
    rw [List.filter_eq_nil_iff]
    intro j hj
    rcases List.mem_cons.mp hj with rfl | hj
    · simp
    · simpa using le_of_lt (h j hj)
  rw [this]; simp

/-- A listed register holds the word of its place (rules R290, R294). -/
theorem get_loadList_of_listed (user : Bool) (l : List Reg) : ∀ (a : Word) (s : State) (i : Reg) (p : PhysReg),
    l.Pairwise (· < ·) → i ∈ l → view (if user then .usr else s.mode) i = some p →
    (loadList user l a s).regs.get p = s.read32 (a + BitVec.ofNat 32 (4 * (l.filter (· < i)).length)) := by
  induction l with
  | nil => intro _ _ _ _ _ h; cases h
  | cons j l ih =>
    intro a s i p hp hi hv
    rw [List.pairwise_cons] at hp
    have hm : ∀ v, (if user && j != 15 then s.setReg .usr j v else s.writeR j v).mode = s.mode := fun v => by
      split <;> exact State.mode_congr (by simp)
    have hr : ∀ v b, (if user && j != 15 then s.setReg .usr j v else s.writeR j v).read32 b = s.read32 b := fun v b =>
      State.read32_congr (State.read8_congr (by split <;> simp) (by split <;> simp) (by split <;> simp) (by split <;> simp)) b
    rw [loadList]
    rcases List.mem_cons.mp hi with rfl | hi
    · rw [get_loadList_of_not_listed, loadList_cons_get, if_pos hv, listed_offset_head hp.1]
      intro k hk e
      rw [hm] at e
      exact absurd (view_index e hv) (ne_of_gt (hp.1 k hk))
    · rw [ih _ _ i p hp.2 hi (by rw [hm]; exact hv), hr, listed_offset_cons (hp.1 i hi)]

/-- The pc after the walk (rules R178, R294). -/
theorem loadList_pc (user : Bool) (l : List Reg) : ∀ (a : Word) (s : State), l.Pairwise (· < ·) →
    (loadList user l a s).pc = if 15 ∈ l then
      s.read32 (a + BitVec.ofNat 32 (4 * (l.filter (· < 15)).length)) &&& 0xFFFFFFFC#32 else s.pc := by
  induction l with
  | nil => simp [loadList]
  | cons j l ih =>
    intro a s hp
    rw [List.pairwise_cons] at hp
    have hr : ∀ v b, (if user && j != 15 then s.setReg .usr j v else s.writeR j v).read32 b = s.read32 b := fun v b =>
      State.read32_congr (State.read8_congr (by split <;> simp) (by split <;> simp) (by split <;> simp) (by split <;> simp)) b
    rw [loadList, ih _ _ hp.2, hr]
    by_cases h : j = 15
    · subst h
      have hn : (15 : Reg) ∉ l := fun h => absurd (hp.1 _ h) (lt_irrefl _)
      rw [if_neg hn, if_pos List.mem_cons_self, listed_offset_head hp.1]
      simp [State.writeR_pc]
    · have hpc : ∀ v, (if user && j != 15 then s.setReg .usr j v else s.writeR j v).pc = s.pc := fun v => by
        split
        · exact State.setReg_pc h s v
        · rw [State.writeR_pc, if_neg h]
      rw [hpc]
      by_cases h15 : (15 : Reg) ∈ l
      · rw [if_pos h15, if_pos (List.mem_cons_of_mem _ h15), listed_offset_cons (hp.1 _ h15)]
      · rw [if_neg h15, if_neg (by simp [Ne.symm h, h15])]

/-- The listed registers rise (rule R290). -/
theorem listedRegs_pairwise (list : BitVec 16) : (listedRegs list).Pairwise (· < ·) :=
  List.Pairwise.filter _ (by decide)

theorem mem_listedRegs {list : BitVec 16} {i : Reg} : i ∈ listedRegs list ↔ list.getLsbD i.val = true := by
  have h : i ∈ allRegs := by revert i; decide
  simp [listedRegs, h]

theorem listedRegs_eq_nil {list : BitVec 16} : listedRegs list = [] ↔ list = 0#16 := by
  constructor
  · intro h
    apply BitVec.eq_of_getLsbD_eq
    intro i hi
    have : (⟨i, hi⟩ : Reg) ∉ listedRegs list := by simp [h]
    rw [mem_listedRegs] at this
    simpa using this
  · rintro rfl; rfl

/-! ### The walk of STM (rule R295) -/

@[simp] theorem storeList_regs (sb : Bool) (l : List Reg) : ∀ (a : Word) (s : State),
    (storeList sb l a s).regs = s.regs := by
  induction l with
  | nil => exact fun _ _ => rfl
  | cons i l ih => intro a s; rw [storeList, ih]; simp
@[simp] theorem storeList_pc (sb : Bool) (l : List Reg) : ∀ (a : Word) (s : State),
    (storeList sb l a s).pc = s.pc := by
  induction l with
  | nil => exact fun _ _ => rfl
  | cons i l ih => intro a s; rw [storeList, ih]; simp
@[simp] theorem storeList_cpsr (sb : Bool) (l : List Reg) : ∀ (a : Word) (s : State),
    (storeList sb l a s).cpsr = s.cpsr := by
  induction l with
  | nil => exact fun _ _ => rfl
  | cons i l ih => intro a s; rw [storeList, ih]; simp
@[simp] theorem storeList_spsrFiq (sb : Bool) (l : List Reg) : ∀ (a : Word) (s : State),
    (storeList sb l a s).spsrFiq = s.spsrFiq := by
  induction l with
  | nil => exact fun _ _ => rfl
  | cons i l ih => intro a s; rw [storeList, ih]; simp
@[simp] theorem storeList_spsrIrq (sb : Bool) (l : List Reg) : ∀ (a : Word) (s : State),
    (storeList sb l a s).spsrIrq = s.spsrIrq := by
  induction l with
  | nil => exact fun _ _ => rfl
  | cons i l ih => intro a s; rw [storeList, ih]; simp
@[simp] theorem storeList_spsrSvc (sb : Bool) (l : List Reg) : ∀ (a : Word) (s : State),
    (storeList sb l a s).spsrSvc = s.spsrSvc := by
  induction l with
  | nil => exact fun _ _ => rfl
  | cons i l ih => intro a s; rw [storeList, ih]; simp
@[simp] theorem storeList_spsrAbt (sb : Bool) (l : List Reg) : ∀ (a : Word) (s : State),
    (storeList sb l a s).spsrAbt = s.spsrAbt := by
  induction l with
  | nil => exact fun _ _ => rfl
  | cons i l ih => intro a s; rw [storeList, ih]; simp
@[simp] theorem storeList_spsrUnd (sb : Bool) (l : List Reg) : ∀ (a : Word) (s : State),
    (storeList sb l a s).spsrUnd = s.spsrUnd := by
  induction l with
  | nil => exact fun _ _ => rfl
  | cons i l ih => intro a s; rw [storeList, ih]; simp
@[simp] theorem storeList_refill (sb : Bool) (l : List Reg) : ∀ (a : Word) (s : State),
    (storeList sb l a s).refill = s.refill := by
  induction l with
  | nil => exact fun _ _ => rfl
  | cons i l ih => intro a s; rw [storeList, ih]; simp
@[simp] theorem storeList_cycles (sb : Bool) (l : List Reg) : ∀ (a : Word) (s : State),
    (storeList sb l a s).cycles = s.cycles := by
  induction l with
  | nil => exact fun _ _ => rfl
  | cons i l ih => intro a s; rw [storeList, ih]; simp
@[simp] theorem storeList_params (sb : Bool) (l : List Reg) : ∀ (a : Word) (s : State),
    (storeList sb l a s).params = s.params := by
  induction l with
  | nil => exact fun _ _ => rfl
  | cons i l ih => intro a s; rw [storeList, ih]; simp
@[simp] theorem storeList_irqLine (sb : Bool) (l : List Reg) : ∀ (a : Word) (s : State),
    (storeList sb l a s).irqLine = s.irqLine := by
  induction l with
  | nil => exact fun _ _ => rfl
  | cons i l ih => intro a s; rw [storeList, ih]; simp
@[simp] theorem storeList_draws (sb : Bool) (l : List Reg) : ∀ (a : Word) (s : State),
    (storeList sb l a s).draws = s.draws := by
  induction l with
  | nil => exact fun _ _ => rfl
  | cons i l ih => intro a s; rw [storeList, ih]; simp
@[simp] theorem storeList_mode (sb : Bool) (l : List Reg) (a : Word) (s : State) :
    (storeList sb l a s).mode = s.mode := State.mode_congr (by simp)

/-- The value the walk stores for a register (rules R295, R296). -/
theorem storeValue_congr {s t : State} (hr : t.regs = s.regs) (hp : t.pc = s.pc) (hc : t.cpsr = s.cpsr) (sb : Bool) (i : Reg) :
    (if sb && i != 15 then t.reg .usr i else t.readR i true) = if sb && i != 15 then s.reg .usr i else s.readR i true := by
  rw [State.readR_congr hr hp hc, State.reg_congr hr hp]

/-- The walk as one word write per listed register, each at its place with its value at the start (rules R290, R295). -/
theorem storeList_eq (sb : Bool) (l : List Reg) : ∀ (a : Word) (s : State), l.Pairwise (· < ·) →
    storeList sb l a s = l.foldl (fun u i => u.write32 (a + BitVec.ofNat 32 (4 * (l.filter (· < i)).length))
      (if sb && i != 15 then s.reg .usr i else s.readR i true)) s := by
  induction l with
  | nil => exact fun _ _ _ => rfl
  | cons j l ih =>
    intro a s hp
    rw [List.pairwise_cons] at hp
    rw [storeList, ih _ _ hp.2, List.foldl_cons, listed_offset_head hp.1]
    apply List.foldl_ext
    intro u i hi
    rw [storeValue_congr (s := s) (by simp) (by simp) (by simp), listed_offset_cons (hp.1 i hi)]

/-- The walk leaves every byte outside its words. -/
theorem foldl_write32_read8_ne {ι : Type} (f : ι → Word) (g : ι → Word) (b : Word) (l : List ι) : ∀ s : State,
    (∀ i ∈ l, ∀ k : Nat, k < 4 → physOf s.params.regions (alignWord (f i) + BitVec.ofNat 32 k) ≠ physOf s.params.regions b) →
    (l.foldl (fun u i => u.write32 (f i) (g i)) s).read8 b = s.read8 b := by
  induction l with
  | nil => exact fun _ _ => rfl
  | cons i l ih =>
    intro s h
    rw [List.foldl_cons, ih _ (fun j hj k hk => by simpa using h j (List.mem_cons_of_mem _ hj) k hk)]
    have := h i List.mem_cons_self
    exact State.read8_write32_ne s (by simpa using this 0 (by omega)) (this 1 (by omega)) (this 2 (by omega))
      (this 3 (by omega)) _

/-! ### A whole instruction -/

/-- Everything but the general registers, the pc, the status registers, the refill mark and the cycle count agrees. -/
def SameStore (s t : State) : Prop :=
  t.mem = s.mem ∧ t.pending = s.pending ∧ t.calls = s.calls ∧ t.params = s.params ∧ t.irqLine = s.irqLine ∧
    t.draws = s.draws

theorem SameStore.writeR (s : State) (i : Reg) (v : Word) : SameStore s (s.writeR i v) := by simp [SameStore]

theorem SameStore.trans {s t u : State} (h : SameStore s t) (g : SameStore t u) : SameStore s u := by
  obtain ⟨h1, h2, h3, h4, h5, h6⟩ := h
  obtain ⟨g1, g2, g3, g4, g5, g6⟩ := g
  exact ⟨g1.trans h1, g2.trans h2, g3.trans h3, g4.trans h4, g5.trans h5, g6.trans h6⟩

theorem SameStore.writeback (s : State) (ix : Indexing) (rn rd : Reg) (v : Word) :
    SameStore s (s.writeback ix rn rd v) := by
  rw [State.writeback_eq]; split
  · exact .writeR s rn v
  · simp [SameStore]

theorem SameStore.finish (s t u : State) (h : SameStore s u) (n : Nat) (xs : List Access) :
    SameStore s (t.finish n xs u) := h

theorem SameStore.restoreCpsr {s u : State} (h : s.restoreCpsr = .next u) : SameStore s u := by
  rcases s.restoreCpsr_cases with ⟨_, e⟩ | ⟨_, _, e⟩ | ⟨_, _, e⟩ <;> rw [e] at h <;> cases h <;> simp [SameStore]

theorem SameStore.dpWrite {s t : State} {sf : Bool} {rd : Reg} {o : Operand2} {a : AluOut}
    (h : dpWrite s sf rd o a = .next t) : SameStore s t := by
  unfold Machine.dpWrite at h
  dsimp only at h
  split at h
  · split at h
    · obtain ⟨u, hu, rfl⟩ := mapNext_next.mp h
      exact (SameStore.writeR s rd _).trans (SameStore.restoreCpsr hu : SameStore _ u)
    · cases h; exact .writeR s rd _
  · cases h; exact .writeR s rd _

theorem SameStore.setView (s : State) (m : Mode) (v : Vector Word 15) : SameStore s (s.setView m v) := by
  simp [SameStore]

/-- A software interrupt leaves the stores as they are, or as the handler's byte writes leave them (rules R352, R353). -/
theorem softwareInterrupt_cases {s t : State} {call : BitVec 8} (h : softwareInterrupt s call = .next t) :
    (∃ stores : List (Word × Byte), SameStore (stores.foldl (fun u x => u.write8 x.1 x.2) s) t) ∨ SameStore s t := by
  unfold softwareInterrupt at h
  split at h
  · unfold swiHandled at h
    dsimp only at h
    split at h
    · cases h
    · split at h
      · injection h with h
        rw [← h]
        refine .inl ⟨(Config.swiResult s.draws call).stores, ?_⟩
        simp [SameStore, State.applyHandler]
      · cases h
  · injection h with h
    rw [← h]
    exact .inr (by simp [SameStore])

/-- Memory is written by bus writes alone: what they keep, an instruction keeps. -/
theorem exec_keeps {P : State → Prop} (hc : ∀ s t, SameStore s t → P s → P t)
    (h8 : ∀ (s : State) (a : Word) (v : Byte), P s → P (s.write8 a v))
    (h16 : ∀ (s : State) (a : Word) (v : Half), P s → P (s.write16 a v)) {i : Instr} {s t : State}
    (h : exec i s = .next t) (hs : P s) : P t := by
  have h32 : ∀ (s : State) (a v : Word), P s → P (s.write32 a v) := fun s a v h =>
    h8 _ _ _ (h8 _ _ _ (h8 _ _ _ (h8 _ _ _ h)))
  have hb : P s.begin := hc s _ ⟨rfl, rfl, rfl, rfl, rfl, rfl⟩ hs
  have hf : ∀ {c f}, conditionally c s f = .next t → (f s.begin = .next t → P t) → P t := by
    intro c f h k
    rcases conditionally_next h with ⟨_, rfl⟩ | ⟨_, h⟩
    · exact hc s _ ⟨rfl, rfl, rfl, rfl, rfl, rfl⟩ hs
    · exact k h
  cases i
  case and | eor | sub | rsb | add | adc | sbc | rsc | orr | mov | bic | mvn =>
    dsimp only [exec, execAnd, execEor, execSub, execRsb, execAdd, execAdc, execSbc, execRsc, execOrr, execMov, execBic, execMvn] at h
    exact hf h fun h => hc _ _ (SameStore.dpWrite h) hb
  case tst | teq | cmp | cmn | dpTestS0 | strResSb | strResSh | b | bx =>
    dsimp only [exec, execTst, execTeq, execCmp, execCmn, execDpTestS0, execStrResSb, execStrResSh, execB, execBx] at h
    exact hf h fun h => by cases h; exact hc _ _ (by simp [SameStore, Machine.dpFinish]) hb
  case mul | mla | umull | umlal | smull | smlal =>
    dsimp only [exec, execMul, execMla, execUmull, execUmlal, execSmull, execSmlal] at h
    exact hf h fun h => by cases h; refine hc _ _ ?_ hb; simp only [SameStore]; split <;> simp
  case mrsCpsr | mrsSpsr =>
    dsimp only [exec, execMrsCpsr, execMrsSpsr] at h
    exact hf h fun h => by cases h; exact hc _ _ (.writeR _ _ _) hb
  case bl =>
    dsimp only [exec, execBl] at h
    exact hf h fun h => by cases h; exact hc _ _ (by simp [SameStore]) hb
  case ldr | ldrb | ldrt | ldrbt | ldrh | ldrsb | ldrsh =>
    dsimp only [exec, execLdr, execLdrb, execLdrt, execLdrbt, execLdrh, execLdrsb, execLdrsh] at h
    exact hf h fun h => by
      cases h; exact hc _ _ ((SameStore.writeR _ _ _).trans (SameStore.writeback _ _ _ _ _)) hb
  case str | strt =>
    dsimp only [exec, execStr, execStrt] at h
    exact hf h fun h => by cases h; exact hc _ _ (SameStore.writeback _ _ _ _ _) (h32 _ _ _ hb)
  case strb | strbt =>
    dsimp only [exec, execStrb, execStrbt] at h
    exact hf h fun h => by cases h; exact hc _ _ (SameStore.writeback _ _ _ _ _) (h8 _ _ _ hb)
  case strh =>
    dsimp only [exec, execStrh] at h
    exact hf h fun h => by cases h; exact hc _ _ (SameStore.writeback _ _ _ _ _) (h16 _ _ _ hb)
  case swp =>
    dsimp only [exec, execSwp] at h
    exact hf h fun h => by cases h; exact hc _ _ (SameStore.writeR _ _ _) (h32 _ _ _ hb)
  case swpb =>
    dsimp only [exec, execSwpb] at h
    exact hf h fun h => by cases h; exact hc _ _ (SameStore.writeR _ _ _) (h8 _ _ _ hb)
  case msrReg | msrImm =>
    dsimp only [exec, execMsrReg, execMsrImm] at h
    exact hf h fun h => by
      unfold msrWrite at h
      split at h
      · cases h; exact hc _ _ (by simp [SameStore]) hb
      · split at h <;> cases h
        exact hc s.begin _ ⟨rfl, rfl, rfl, rfl, rfl, rfl⟩ hb
  case stm c m sb wb rn list =>
    dsimp only [exec, execStm] at h
    have hst : ∀ (l : List Reg) (a : Word) (s : State), P s → P (storeList sb l a s) := by
      intro l
      induction l with
      | nil => exact fun _ _ h => h
      | cons i l ih => exact fun a s h => ih _ _ (h32 _ _ _ h)
    exact hf h fun h => by
      split at h <;> cases h
      · exact hc s.begin _ ⟨rfl, rfl, rfl, rfl, rfl, rfl⟩ hb
      · split
        · exact hc _ _ (SameStore.writeR _ _ _) (hst _ _ _ hb)
        · exact hc (storeList sb _ _ s.begin) _ ⟨rfl, rfl, rfl, rfl, rfl, rfl⟩ (hst _ _ _ hb)
  case ldm c m sb wb rn list =>
    dsimp only [exec, execLdm] at h
    exact hf h fun h => by
      have hl : ∀ user l a, SameStore s.begin (loadList user l a s.begin) := fun user l a => by simp [SameStore]
      have hb' : ∀ (b : Prop) [Decidable b] user l a v,
          SameStore s.begin (if b then (loadList user l a s.begin).writeR rn v else loadList user l a s.begin) := by
        intro b _ user l a v
        split
        · exact (hl user l a).trans (.writeR _ _ _)
        · exact hl user l a
      split at h
      · cases h; exact hc s.begin _ ⟨rfl, rfl, rfl, rfl, rfl, rfl⟩ hb
      · split at h
        · obtain ⟨u, hu, rfl⟩ := mapNext_next.mp h
          exact hc _ _ ((hb' _ _ _ _ _).trans (SameStore.restoreCpsr hu : SameStore _ u)) hb
        · cases h; exact hc _ _ (hb' _ _ _ _ _) hb
  case swi | swiCpC | swiCpD | swiCpE =>
    dsimp only [exec, execSwi, execSwiCpC, execSwiCpD, execSwiCpE] at h
    exact hf h fun h => by
      rcases softwareInterrupt_cases h with ⟨v, hv⟩ | hv
      · exact hc _ _ hv (foldl_write8 h8 _ _ hb)
      · exact hc _ _ hv hb

/-- What bus writes keep, a step keeps. -/
theorem step_keeps {P : State → Prop} (hc : ∀ s t, t.mem = s.mem → t.pending = s.pending → t.calls = s.calls →
      t.params = s.params → P s → P t)
    (h8 : ∀ (s : State) (a : Word) (v : Byte), P s → P (s.write8 a v))
    (h16 : ∀ (s : State) (a : Word) (v : Half), P s → P (s.write16 a v)) {s t : State}
    (h : step s = .next t) (hs : P s) : P t := by
  have hc' : ∀ s t, SameStore s t → P s → P t := fun s t ⟨h1, h2, h3, h4, _, _⟩ => hc s t h1 h2 h3 h4
  unfold step at h
  split at h
  · cases h
  · split at h
    · split at h
      · cases h
        exact hc s _ (by simp [State.takeIrq, State.endStep]) (by simp [State.takeIrq, State.endStep])
          (by simp [State.takeIrq, State.endStep]) (by simp [State.takeIrq, State.endStep]) hs
      · split at h
        · next i _ =>
          cases he : exec i s.afterFetch with
          | next u =>
            rw [he] at h; cases h
            exact hc u _ rfl rfl rfl rfl (exec_keeps hc' h8 h16 he (hc s _ rfl rfl rfl rfl hs))
          | fault f => cases f
          | refused r => rw [he] at h; cases h
        · cases h; exact hc s _ rfl rfl rfl rfl hs
    · cases h

end Sys2Proof.Machine
end

