-- ==== Sys2Proof/Laws/HostOps.lean ====
section
/-! SUPPORT. What the host's operations between steps keep (70_reset_and_hazards.md rules R400 to R410), and what restoring a
snapshot does. -/

namespace Sys2Proof.Machine

/-- A byte put in beside the bus keeps the canonical form. -/
theorem State.poke_wf {s : State} (h : s.mem.wf = true) (a : Word) (b : Byte) : (s.poke a b).mem.wf = true :=
  Memory.wf_put h _ _

theorem State.placeWord_wf {s : State} (h : s.mem.wf = true) (a w : Word) : (s.placeWord a w).mem.wf = true :=
  State.poke_wf (State.poke_wf (State.poke_wf (State.poke_wf h _ _) _ _) _ _) _ _

/-- Restoring a snapshot of a state in canonical form keeps the canonical form. -/
theorem State.restore_wf {s t : State} (hs : s.mem.wf = true) (ht : t.mem.wf = true) : (t.restore s.snapshot).mem.wf = true :=
  Memory.wf_restore (Memory.wfFrom_filter _ hs) ht

/-- Restoring sets exactly the snapshot's state: every core-owned byte is the snapshot's, every byte of a cartridge ROM image
the state's own (rule R408). -/
theorem State.restore_lookup (s t : State) (k : Nat) :
    (t.restore s.snapshot).mem.lookup k = if isCoreOwned k then s.mem.lookup k else t.mem.lookup k := by
  show (s.mem.coreOwned.coreOwned ++ t.mem.cartridge : Memory).lookup k = _
  rw [Memory.lookup_restore]
  unfold Memory.coreOwned
  rw [Memory.lookup_filter]
  split <;> rfl

@[simp] theorem State.restore_params (s : State) (x : Snapshot) : (s.restore x).params = s.params := rfl
@[simp] theorem State.restore_calls (s : State) (x : Snapshot) : (s.restore x).calls = s.calls := rfl
@[simp] theorem State.restore_irqLine (s : State) (x : Snapshot) : (s.restore x).irqLine = s.irqLine := rfl
@[simp] theorem State.restore_draws (s : State) (x : Snapshot) : (s.restore x).draws = s.draws := rfl

/-- The host's write through the bus keeps the canonical form. -/
theorem State.hostBusWrite_wf {s : State} (h : s.mem.wf = true) (a : Word) (b : Byte) : (s.hostBusWrite a b).mem.wf = true :=
  State.write8_wf h a b

end Sys2Proof.Machine
end

