-- ==== Sys2Proof/Laws/PerInstr.lean ====
section
/-! SUPPORT. Per instruction: the word of every instruction carries its condition in bits 31:28 (30_encoding.md rule R131). -/

namespace Sys2Proof.Laws.EncodeCond

/-- Bits 31:28 of the instruction's word are its condition. -/
def Statement (i : Instr) : Prop := field (encode i) 28 4 = i.cond.bits

theorem and (c : Cond) (sf : Bool) (rn rd : Reg) (op2 : Operand2) :
    Statement (.and c sf rn rd op2) := (fields_dp c _ sf rn rd op2).1

theorem eor (c : Cond) (sf : Bool) (rn rd : Reg) (op2 : Operand2) :
    Statement (.eor c sf rn rd op2) := (fields_dp c _ sf rn rd op2).1

theorem sub (c : Cond) (sf : Bool) (rn rd : Reg) (op2 : Operand2) :
    Statement (.sub c sf rn rd op2) := (fields_dp c _ sf rn rd op2).1

theorem rsb (c : Cond) (sf : Bool) (rn rd : Reg) (op2 : Operand2) :
    Statement (.rsb c sf rn rd op2) := (fields_dp c _ sf rn rd op2).1

theorem add (c : Cond) (sf : Bool) (rn rd : Reg) (op2 : Operand2) :
    Statement (.add c sf rn rd op2) := (fields_dp c _ sf rn rd op2).1

theorem adc (c : Cond) (sf : Bool) (rn rd : Reg) (op2 : Operand2) :
    Statement (.adc c sf rn rd op2) := (fields_dp c _ sf rn rd op2).1

theorem sbc (c : Cond) (sf : Bool) (rn rd : Reg) (op2 : Operand2) :
    Statement (.sbc c sf rn rd op2) := (fields_dp c _ sf rn rd op2).1

theorem rsc (c : Cond) (sf : Bool) (rn rd : Reg) (op2 : Operand2) :
    Statement (.rsc c sf rn rd op2) := (fields_dp c _ sf rn rd op2).1

theorem orr (c : Cond) (sf : Bool) (rn rd : Reg) (op2 : Operand2) :
    Statement (.orr c sf rn rd op2) := (fields_dp c _ sf rn rd op2).1

theorem bic (c : Cond) (sf : Bool) (rn rd : Reg) (op2 : Operand2) :
    Statement (.bic c sf rn rd op2) := (fields_dp c _ sf rn rd op2).1

theorem tst (c : Cond) (rn : Reg) (op2 : Operand2) :
    Statement (.tst c rn op2) := (fields_dp c _ true rn 0 op2).1

theorem teq (c : Cond) (rn : Reg) (op2 : Operand2) :
    Statement (.teq c rn op2) := (fields_dp c _ true rn 0 op2).1

theorem cmp (c : Cond) (rn : Reg) (op2 : Operand2) :
    Statement (.cmp c rn op2) := (fields_dp c _ true rn 0 op2).1

theorem cmn (c : Cond) (rn : Reg) (op2 : Operand2) :
    Statement (.cmn c rn op2) := (fields_dp c _ true rn 0 op2).1

theorem mov (c : Cond) (sf : Bool) (rd : Reg) (op2 : Operand2) :
    Statement (.mov c sf rd op2) := (fields_dp c _ sf 0 rd op2).1

theorem mvn (c : Cond) (sf : Bool) (rd : Reg) (op2 : Operand2) :
    Statement (.mvn c sf rd op2) := (fields_dp c _ sf 0 rd op2).1

theorem dpTestS0 (c : Cond) (op : TestOp) (rn : Reg) (op2 : Operand2) :
    Statement (.dpTestS0 c op rn op2) := (fields_dp c _ false rn 0 op2).1

theorem mul (c : Cond) (sf : Bool) (rd rm rs : Reg) :
    Statement (.mul c sf rd rm rs) := (fields_mul c false sf rd 0 rs rm).1

theorem mla (c : Cond) (sf : Bool) (rd rn rm rs : Reg) :
    Statement (.mla c sf rd rn rm rs) := (fields_mul c true sf rd rn rs rm).1

theorem umull (c : Cond) (sf : Bool) (rdHi rdLo rm rs : Reg) :
    Statement (.umull c sf rdHi rdLo rm rs) := (fields_mull c false false sf rdHi rdLo rs rm).1

theorem umlal (c : Cond) (sf : Bool) (rdHi rdLo rm rs : Reg) :
    Statement (.umlal c sf rdHi rdLo rm rs) := (fields_mull c false true sf rdHi rdLo rs rm).1

theorem smull (c : Cond) (sf : Bool) (rdHi rdLo rm rs : Reg) :
    Statement (.smull c sf rdHi rdLo rm rs) := (fields_mull c true false sf rdHi rdLo rs rm).1

theorem smlal (c : Cond) (sf : Bool) (rdHi rdLo rm rs : Reg) :
    Statement (.smlal c sf rdHi rdLo rm rs) := (fields_mull c true true sf rdHi rdLo rs rm).1

theorem str (c : Cond) (ix : Indexing) (up : Bool) (rn rd : Reg) (off : Offset) :
    Statement (.str c ix up rn rd off) := (fields_sdt c ix.p up false ix.w false rn rd off).1

theorem ldr (c : Cond) (ix : Indexing) (up : Bool) (rn rd : Reg) (off : Offset) :
    Statement (.ldr c ix up rn rd off) := (fields_sdt c ix.p up false ix.w true rn rd off).1

theorem strb (c : Cond) (ix : Indexing) (up : Bool) (rn rd : Reg) (off : Offset) :
    Statement (.strb c ix up rn rd off) := (fields_sdt c ix.p up true ix.w false rn rd off).1

theorem ldrb (c : Cond) (ix : Indexing) (up : Bool) (rn rd : Reg) (off : Offset) :
    Statement (.ldrb c ix up rn rd off) := (fields_sdt c ix.p up true ix.w true rn rd off).1

theorem strt (c : Cond) (up : Bool) (rn rd : Reg) (off : Offset) :
    Statement (.strt c up rn rd off) := (fields_sdt c false up false true false rn rd off).1

theorem ldrt (c : Cond) (up : Bool) (rn rd : Reg) (off : Offset) :
    Statement (.ldrt c up rn rd off) := (fields_sdt c false up false true true rn rd off).1

theorem strbt (c : Cond) (up : Bool) (rn rd : Reg) (off : Offset) :
    Statement (.strbt c up rn rd off) := (fields_sdt c false up true true false rn rd off).1

theorem ldrbt (c : Cond) (up : Bool) (rn rd : Reg) (off : Offset) :
    Statement (.ldrbt c up rn rd off) := (fields_sdt c false up true true true rn rd off).1

theorem strh (c : Cond) (ix : Indexing) (up : Bool) (rn rd : Reg) (off : HalfOffset) :
    Statement (.strh c ix up rn rd off) := (fields_hw c ix up false _ rn rd off).1

theorem ldrh (c : Cond) (ix : Indexing) (up : Bool) (rn rd : Reg) (off : HalfOffset) :
    Statement (.ldrh c ix up rn rd off) := (fields_hw c ix up true _ rn rd off).1

theorem ldrsb (c : Cond) (ix : Indexing) (up : Bool) (rn rd : Reg) (off : HalfOffset) :
    Statement (.ldrsb c ix up rn rd off) := (fields_hw c ix up true _ rn rd off).1

theorem ldrsh (c : Cond) (ix : Indexing) (up : Bool) (rn rd : Reg) (off : HalfOffset) :
    Statement (.ldrsh c ix up rn rd off) := (fields_hw c ix up true _ rn rd off).1

theorem strResSb (c : Cond) (ix : Indexing) (up : Bool) (rn rd : Reg) (off : HalfOffset) :
    Statement (.strResSb c ix up rn rd off) := (fields_hw c ix up false _ rn rd off).1

theorem strResSh (c : Cond) (ix : Indexing) (up : Bool) (rn rd : Reg) (off : HalfOffset) :
    Statement (.strResSh c ix up rn rd off) := (fields_hw c ix up false _ rn rd off).1

theorem swp (c : Cond) (rn rd rm : Reg) :
    Statement (.swp c rn rd rm) := (fields_swap c false rn rd rm).1

theorem swpb (c : Cond) (rn rd rm : Reg) :
    Statement (.swpb c rn rd rm) := (fields_swap c true rn rd rm).1

theorem mrsCpsr (c : Cond) (rd : Reg) :
    Statement (.mrsCpsr c rd) := (fields_mrs c .cpsr rd).1

theorem mrsSpsr (c : Cond) (rd : Reg) :
    Statement (.mrsSpsr c rd) := (fields_mrs c .spsr rd).1

theorem msrReg (c : Cond) (psr : PsrSel) (mask : BitVec 4) (rm : Reg) :
    Statement (.msrReg c psr mask rm) := (fields_msrReg c psr mask rm).1

theorem msrImm (c : Cond) (psr : PsrSel) (mask rot : BitVec 4) (imm8 : BitVec 8) :
    Statement (.msrImm c psr mask rot imm8) := (fields_msrImm c psr mask rot imm8).1

theorem bx (c : Cond) (rm : Reg) :
    Statement (.bx c rm) := (fields_bx c rm).1

theorem stm (c : Cond) (mode : BlockMode) (sb wb : Bool) (rn : Reg) (list : BitVec 16) :
    Statement (.stm c mode sb wb rn list) := (fields_block c mode sb wb false rn list).1

theorem ldm (c : Cond) (mode : BlockMode) (sb wb : Bool) (rn : Reg) (list : BitVec 16) :
    Statement (.ldm c mode sb wb rn list) := (fields_block c mode sb wb true rn list).1

theorem b (c : Cond) (offset24 : BitVec 24) :
    Statement (.b c offset24) := (fields_b c offset24).1

theorem bl (c : Cond) (offset24 : BitVec 24) :
    Statement (.bl c offset24) := (fields_bl c offset24).1

theorem swi (c : Cond) (call : BitVec 8) :
    Statement (.swi c call) := (fields_swi c _ call).1

theorem swiCpC (c : Cond) (call : BitVec 8) :
    Statement (.swiCpC c call) := (fields_swi c _ call).1

theorem swiCpD (c : Cond) (call : BitVec 8) :
    Statement (.swiCpD c call) := (fields_swi c _ call).1

theorem swiCpE (c : Cond) (call : BitVec 8) :
    Statement (.swiCpE c call) := (fields_swi c _ call).1

end Sys2Proof.Laws.EncodeCond
end

