-- ==== Sys2Proof/Laws/Step.lean ====
section
/-! SUPPORT. What a whole instruction can do to the status registers and the pc, and what a step is. -/

namespace Sys2Proof.Machine

open Sys2Proof.Cert

/-- What an instruction can do to the CPSR (rules R42, R45, R180, R316, R338, R352, R353). -/
inductive CpsrStep (i : Instr) (s t : State) : Prop where
  | flags : t.cpsr.extractLsb' 0 28 = s.cpsr.extractLsb' 0 28 → CpsrStep i s t
  | bx : IsBx i → t.cpsr = withT s.cpsr true → CpsrStep i s t
  | msr (mask v) : IsMsrCpsr i → t.cpsr = mergeBits s.cpsr v (cpsrMask s mask) → validPsr t.cpsr = true → CpsrStep i s t
  | restore : IsRestore i → s.mode.hasSpsr = true → t.cpsr = s.spsrOf s.mode → validPsr t.cpsr = true → CpsrStep i s t
  | handler : IsSwi i → s.params.swiHandler = true → validPsr t.cpsr = true → CpsrStep i s t
  | swi : IsSwi i → t.cpsr = exceptionPsr s.cpsr .svc → CpsrStep i s t

theorem CpsrStep.same {i s t} (h : t.cpsr = s.cpsr) : CpsrStep i s t := .flags (by rw [h])

/-- The CPSR after a restore that is not refused (rule R180). -/
theorem restored_cpsr (f : State → State) {s t : State} (hf : ∀ u, (f u).cpsr = u.cpsr) (h : mapNext f s.restoreCpsr = .next t) :
    t.cpsr = s.cpsr ∨ (s.mode.hasSpsr = true ∧ t.cpsr = s.spsrOf s.mode ∧ validPsr t.cpsr = true) := by
  obtain ⟨u, hu, rfl⟩ := mapNext_next.mp h
  rcases s.restoreCpsr_cases with ⟨_, e⟩ | ⟨a, b, e⟩ | ⟨_, _, e⟩ <;> rw [e] at hu <;> cases hu
  · left; rw [hf]
  · right; refine ⟨a, ?_, ?_⟩ <;> rw [hf]; exact b

theorem CpsrStep.dpWrite {s t : State} {sf : Bool} {rd : Reg} {o : Operand2} {a : AluOut} {i : Instr}
    (hi : sf = true → rd = 15 → IsRestore i) (h : dpWrite s sf rd o a = .next t) : CpsrStep i s t := by
  unfold Machine.dpWrite at h
  dsimp only at h
  split at h
  · next hsf =>
    split at h
    · next h2 =>
      rcases restored_cpsr _ (fun _ => by rfl) h with e | ⟨a1, a2, a3⟩
      · exact .same (by simpa using e)
      · refine .restore (hi hsf h2.1) (by simpa using a1) ?_ a3
        rw [a2, State.writeR_mode]
        apply State.spsrOf_congr (by simp) (by simp) (by simp) (by simp) (by simp) _
    · cases h; refine .flags ?_
      simp [dpFinish]
  · cases h; exact .same (by simp [dpFinish])

/-- Every instruction changes the CPSR in one of these ways. -/
theorem exec_cpsr {i : Instr} {s t : State} (h : exec i s = .next t) : CpsrStep i s t := by
  have hf : ∀ {c f}, conditionally c s f = .next t → (f s.begin = .next t → CpsrStep i s.begin t) → CpsrStep i s t := by
    intro c f h k
    rcases conditionally_next h with ⟨_, rfl⟩ | ⟨_, h⟩
    · exact .same rfl
    · rcases k h with h | h | h | ⟨h1, h2, h3, h4⟩ | h | h
      · exact .flags h
      · exact .bx h ‹_›
      · exact .msr _ _ ‹_› ‹_› ‹_›
      · refine .restore h1 h2 ?_ h4
        rw [h3, State.begin_spsrOf, State.begin_mode]
      · exact .handler ‹_› ‹_› ‹_›
      · exact .swi h ‹_›
  cases i <;> dsimp only [exec, execAnd, execEor, execSub, execRsb, execAdd, execAdc, execSbc, execRsc, execTst, execTeq, execCmp,
    execCmn, execOrr, execMov, execBic, execMvn, execDpTestS0, execMul, execMla, execUmull, execUmlal,
    execSmull, execSmlal, execStr, execLdr, execStrb, execLdrb, execStrt, execLdrt, execStrbt, execLdrbt,
    execStrh, execLdrh, execLdrsb, execLdrsh, execStrResSb, execStrResSh, execSwp, execSwpb, execMrsCpsr,
    execMrsSpsr, execMsrReg, execMsrImm, execBx, execStm, execLdm, execB, execBl, execSwi, execSwiCpC,
    execSwiCpD, execSwiCpE] at h
  case and c sf rn rd o | eor c sf rn rd o | sub c sf rn rd o | rsb c sf rn rd o | add c sf rn rd o | adc c sf rn rd o |
      sbc c sf rn rd o | rsc c sf rn rd o | orr c sf rn rd o | bic c sf rn rd o =>
    exact hf h fun h => CpsrStep.dpWrite (fun h1 h2 => .inl ⟨c, rn, o, by simp [h1, h2]⟩) h
  case mov c sf rd o | mvn c sf rd o =>
    exact hf h fun h => CpsrStep.dpWrite (fun h1 h2 => .inl ⟨c, 0, o, by simp [h1, h2]⟩) h
  case tst | teq | cmp | cmn  =>
    exact hf h fun h => by cases h; exact .flags (by simp [Machine.dpFinish])
  case dpTestS0 | strResSb | strResSh | b =>
    exact hf h fun h => by cases h; exact .same (by simp [Machine.dpFinish])
  case bx c rm =>
    exact hf h fun h => by
      cases h
      cases (s.begin.readR rm).getLsbD 0
      · exact .same (by simp)
      · exact .bx ⟨_, _, rfl⟩ (by simp)
  case mul | mla | umull | umlal | smull | smlal =>
    exact hf h fun h => by cases h; refine .flags ?_ ; split <;> simp
  case mrsCpsr | mrsSpsr | bl => exact hf h fun h => by cases h; exact .same (by simp)
  case ldr | ldrb | ldrt | ldrbt | ldrh | ldrsb | ldrsh | str | strt | strb | strbt | strh | swp | swpb =>
    exact hf h fun h => by
      cases h; refine .same ?_
      simp
  case msrReg | msrImm =>
    exact hf h fun h => by
      unfold msrWrite at h
      split at h
      · cases h; exact .same (by simp)
      · split at h
        · next hv => cases h; exact .msr _ _ (by first | exact .inl ⟨_, _, _, rfl⟩ | exact .inr ⟨_, _, _, _, rfl⟩) rfl hv
        · cases h
  case stm c m sb wb rn list =>
    exact hf h fun h => by
      split at h <;> cases h
      · exact .same rfl
      · refine .same ?_; split <;> simp
  case ldm c m sb wb rn list =>
    exact hf h fun h => by
      split at h
      · cases h; exact .same rfl
      · split at h
        · next hb =>
          simp only [Bool.and_eq_true] at hb
          rcases restored_cpsr _ (fun _ => by rfl) h with e | ⟨a1, a2, a3⟩
          · refine .same (e.trans ?_); split <;> simp
          · refine .restore ?_ ?_ ?_ a3
            · exact .inr ⟨c, m, wb, rn, list, by rw [hb.1], hb.2⟩
            · rw [State.mode_congr (s := s.begin)] at a1; exact a1
              split <;> simp
            · rw [a2, State.mode_congr (s := s.begin)]
              · apply State.spsrOf_congr <;> split <;> simp
              · split <;> simp
        · cases h; refine .same ?_; simp only [State.finish_cpsr]; split <;> simp
  case swi c n | swiCpC c n | swiCpD c n | swiCpE c n =>
    exact hf h fun h => by
      unfold softwareInterrupt at h
      split at h
      · next hs =>
        unfold swiHandled at h
        dsimp only at h
        split at h
        · cases h
        · split at h
          · next hv => injection h with h; rw [← h]; exact .handler ⟨c, n, by simp⟩ hs hv
          · cases h
      · injection h with h; rw [← h]; exact .swi ⟨c, n, by simp⟩ (by simp)

/-- The pc is even. -/
def EvenPc (s : State) : Prop := s.pc.getLsbD 0 = false
theorem evenPc_add {a : Word} (h : a.getLsbD 0 = false) : (a + 4#32).getLsbD 0 = false := by
  have e : ∀ x : Word, x.getLsbD 0 = decide (x.toNat % 2 = 1) := fun x => by
    rw [← BitVec.testBit_toNat, Nat.testBit_zero]
  rw [e] at *
  simp only [BitVec.toNat_add, decide_eq_false_iff_not, BitVec.toNat_ofNat] at *
  omega
theorem evenPc_finish {s u : State} {n xs} (hs : EvenPc s) (hu : EvenPc u) : EvenPc (s.finish n xs u) := by
  unfold EvenPc at *
  simp only [State.finish_pc]
  split
  · exact hu
  · exact evenPc_add hs
theorem evenPc_writeR {s : State} (hs : EvenPc s) (i v) : EvenPc (s.writeR i v) := by
  unfold EvenPc at *
  rw [State.writeR_pc]; split
  · simp
  · exact hs
theorem evenPc_writeback {s : State} (hs : EvenPc s) (ix rn rd v) : EvenPc (s.writeback ix rn rd v) := by
  rw [State.writeback_eq]; split
  · exact evenPc_writeR hs _ _
  · exact hs
theorem evenPc_restore {s u : State} (hs : EvenPc s) (h : s.restoreCpsr = .next u) : EvenPc u := by
  rcases s.restoreCpsr_cases with ⟨_, e⟩ | ⟨a, b, e⟩ | ⟨_, _, e⟩ <;> rw [e] at h <;> cases h <;> exact hs
theorem evenPc_dpWrite {s t : State} {sf rd o a} (hs : EvenPc s) (h : dpWrite s sf rd o a = .next t) : EvenPc t := by
  unfold dpWrite at h
  dsimp only at h
  split at h
  · split at h
    · obtain ⟨u, hu, rfl⟩ := mapNext_next.mp h
      exact evenPc_finish hs (evenPc_restore (evenPc_writeR hs _ _) hu)
    · cases h; exact evenPc_finish hs (evenPc_writeR hs _ _)
  · cases h; exact evenPc_finish hs (evenPc_writeR hs _ _)
theorem evenPc_congr {s t : State} (h : t.pc = s.pc) (hs : EvenPc s) : EvenPc t := by unfold EvenPc at *; rw [h]; exact hs
theorem evenPc_loadList {s : State} (user l a) (hs : EvenPc s) : EvenPc (loadList user l a s) := by
  induction l generalizing s a with
  | nil => exact hs
  | cons i l ih =>
    rw [loadList]; apply ih
    split
    · next h =>
      simp only [Bool.and_eq_true, bne_iff_ne] at h
      exact evenPc_congr (State.setReg_pc h.2 _ _) hs
    · exact evenPc_writeR hs _ _

/-- Every instruction keeps the pc even (rules R40, R178, R316). -/
theorem exec_evenPc {i : Instr} {s t : State} (h : exec i s = .next t) (hs : EvenPc s) : EvenPc t := by
  have hb : EvenPc s.begin := hs
  have hf : ∀ {c f}, conditionally c s f = .next t → (f s.begin = .next t → EvenPc t) → EvenPc t := by
    intro c f h k
    rcases conditionally_next h with ⟨_, rfl⟩ | ⟨_, h⟩
    · exact evenPc_add hs
    · exact k h
  cases i <;> dsimp only [exec, execAnd, execEor, execSub, execRsb, execAdd, execAdc, execSbc, execRsc, execTst, execTeq, execCmp,
    execCmn, execOrr, execMov, execBic, execMvn, execDpTestS0, execMul, execMla, execUmull, execUmlal,
    execSmull, execSmlal, execStr, execLdr, execStrb, execLdrb, execStrt, execLdrt, execStrbt, execLdrbt,
    execStrh, execLdrh, execLdrsb, execLdrsh, execStrResSb, execStrResSh, execSwp, execSwpb, execMrsCpsr,
    execMrsSpsr, execMsrReg, execMsrImm, execBx, execStm, execLdm, execB, execBl, execSwi, execSwiCpC,
    execSwiCpD, execSwiCpE] at h
  case and | eor | sub | rsb | add | adc | sbc | rsc | orr | mov | bic | mvn =>
    exact hf h fun h => evenPc_dpWrite hb h
  case tst | teq | cmp | cmn | dpTestS0 | strResSb | strResSh =>
    exact hf h fun h => by cases h; exact evenPc_finish hb hb
  case b => exact hf h fun h => by cases h; exact evenPc_finish hb (evenPc_writeR hb _ _)
  case bl => exact hf h fun h => by cases h; exact evenPc_finish hb (evenPc_writeR (evenPc_congr (State.setReg_pc (by decide) _ _) hb) _ _)
  case bx => exact hf h fun h => by injection h with h; rw [← h]; exact evenPc_finish hb (by simp [EvenPc])
  case mul | mla =>
    exact hf h fun h => by
      unfold mulWrite at h; injection h with h; rw [← h]
      apply evenPc_finish hb
      split
      · unfold EvenPc; rw [State.setNZ_pc]; exact evenPc_writeR hb _ _
      · exact evenPc_writeR hb _ _
  case umull | umlal | smull | smlal =>
    exact hf h fun h => by
      unfold mullWrite at h; injection h with h; rw [← h]
      apply evenPc_finish hb
      split
      · unfold EvenPc; rw [State.setNZ_pc]; exact evenPc_writeR (evenPc_writeR hb _ _) _ _
      · exact evenPc_writeR (evenPc_writeR hb _ _) _ _
  case mrsCpsr | mrsSpsr => exact hf h fun h => by cases h; exact evenPc_finish hb (evenPc_writeR hb _ _)
  case ldr | ldrb | ldrt | ldrbt | ldrh | ldrsb | ldrsh =>
    exact hf h fun h => by cases h; exact evenPc_finish hb (evenPc_writeback (evenPc_writeR hb _ _) _ _ _ _)
  case str | strt | strb | strbt | strh  =>
    exact hf h fun h => by cases h; exact evenPc_finish hb (evenPc_writeback (evenPc_congr (by simp) hb) _ _ _ _)
  case swp | swpb =>
    exact hf h fun h => by cases h; exact evenPc_finish hb (evenPc_writeR (evenPc_congr (by simp) hb) _ _)
  case msrReg | msrImm =>
    exact hf h fun h => by
      unfold msrWrite at h
      split at h
      · cases h; exact evenPc_finish hb (evenPc_congr (by simp) hb)
      · split at h <;> cases h
        exact evenPc_finish hb (evenPc_congr rfl hb)
  case stm c m sb wb rn list =>
    exact hf h fun h => by
      split at h <;> cases h
      · exact evenPc_finish hb hb
      · refine evenPc_finish hb ?_
        split
        · exact evenPc_writeR (evenPc_congr (by simp) hb) _ _
        · exact (evenPc_congr (by simp) hb)
  case ldm c m sb wb rn list =>
    exact hf h fun h => by
      have key : ∀ (x : Bool) u l a v, EvenPc (if x then (loadList u l a s.begin).writeR rn v else loadList u l a s.begin) := by
          intro x u l a v
          split
          · exact evenPc_writeR (evenPc_loadList _ _ _ hb) _ _
          · exact (evenPc_loadList _ _ _ hb)
      split at h
      · cases h; exact evenPc_finish hb hb
      · split at h
        · obtain ⟨u, hu, rfl⟩ := mapNext_next.mp h
          exact evenPc_finish hb (evenPc_restore (key _ _ _ _ _) hu)
        · cases h; exact evenPc_finish hb (key _ _ _ _ _)
  case swi c n | swiCpC c n | swiCpD c n | swiCpE c n =>
    exact hf h fun h => by
      unfold softwareInterrupt at h
      split at h
      · unfold swiHandled at h
        dsimp only at h
        split at h
        · cases h
        · split at h
          · injection h with h
            have : t.pc = s.pc + 4#32 := by rw [← h]; rfl
            unfold EvenPc; rw [this]; exact evenPc_add hs
          · cases h
      · injection h with h; rw [← h]; exact evenPc_finish hb (by simp [EvenPc, ExceptionKind.vector])

/-- What a step is, when it is not refused: an IRQ entry, or the instruction its word decodes to (rules R170, R380). -/
theorem step_cases {s t : State} (h : step s = .next t) :
    psrT s.cpsr = false ∧ validPsr s.cpsr = true ∧
    ((psrI s.cpsr = false ∧ s.irqLine = true ∧ t = s.takeIrq.endStep) ∨
     (∃ i u, decode (s.read32 s.pc) = some i ∧ exec i s.afterFetch = .next u ∧ t = u.endStep)) := by
  unfold step at h
  split at h
  · cases h
  · next hT =>
    split at h
    · next hv =>
      refine ⟨by simpa using hT, hv, ?_⟩
      split at h
      · next hi =>
        unfold State.irqTaken at hi
        simp only [Bool.and_eq_true, Bool.not_eq_true'] at hi
        injection h with h
        exact .inl ⟨hi.1, hi.2, h.symm⟩
      · split at h
        · next i hd =>
          cases he : exec i s.afterFetch with
          | next u => rw [he] at h; injection h with h; exact .inr ⟨i, u, hd, he, h.symm⟩
          | fault f => cases f
          | refused r => rw [he] at h; cases h
        · next hd =>
          obtain ⟨u, hu⟩ := selectUnit_isSome s.fetch
          rw [decode_of_unit hu] at hd; cases hd
    · cases h

/-- The SPSRs change in a software interrupt, or in a mode that owns one (rules R341, R352, R372). -/
theorem exec_spsr {i : Instr} {s t : State} (h : exec i s = .next t) : (∀ m, t.spsrOf m = s.spsrOf m) ∨ IsSwi i ∨ s.mode.hasSpsr = true := by
  have hf : ∀ {c f}, conditionally c s f = .next t → (f s.begin = .next t → (∀ m, t.spsrOf m = s.begin.spsrOf m) ∨ IsSwi i ∨ s.mode.hasSpsr = true) →  (∀ m, t.spsrOf m = s.spsrOf m) ∨ IsSwi i ∨ s.mode.hasSpsr = true := by
    intro c f h k
    rcases conditionally_next h with ⟨_, rfl⟩ | ⟨_, h⟩
    · exact .inl fun m => by cases m <;> rfl
    · rcases k h with h | h
      · left; intro m; rw [h m, State.begin_spsrOf]
      · exact .inr h
  cases i <;> dsimp only [exec, execAnd, execEor, execSub, execRsb, execAdd, execAdc, execSbc, execRsc, execTst, execTeq, execCmp,
    execCmn, execOrr, execMov, execBic, execMvn, execDpTestS0, execMul, execMla, execUmull, execUmlal,
    execSmull, execSmlal, execStr, execLdr, execStrb, execLdrb, execStrt, execLdrt, execStrbt, execLdrbt,
    execStrh, execLdrh, execLdrsb, execLdrsh, execStrResSb, execStrResSh, execSwp, execSwpb, execMrsCpsr,
    execMrsSpsr, execMsrReg, execMsrImm, execBx, execStm, execLdm, execB, execBl, execSwi, execSwiCpC,
    execSwiCpD, execSwiCpE] at h
  case and | eor | sub | rsb | add | adc | sbc | rsc | orr | mov | bic | mvn =>
    exact hf h fun h => by
      unfold dpWrite at h
      split at h
      · split at h
        · next h2 => exact .inr (.inr h2.2)
        · cases h; exact .inl fun m => State.spsrOf_congr (by simp [dpFinish]) (by simp [dpFinish]) (by simp [dpFinish]) (by simp [dpFinish]) (by simp [dpFinish]) m
      · cases h; exact .inl fun m => State.spsrOf_congr (by simp [dpFinish]) (by simp [dpFinish]) (by simp [dpFinish]) (by simp [dpFinish]) (by simp [dpFinish]) m
  case swi c n | swiCpC c n | swiCpD c n | swiCpE c n => exact .inr (.inl ⟨c, n, by simp⟩)
  case ldm =>
    exact hf h fun h => by
      split at h
      · cases h; exact .inl fun m => State.spsrOf_congr rfl rfl rfl rfl rfl m
      · split at h
        · obtain ⟨u, hu, rfl⟩ := mapNext_next.mp h
          rcases State.restoreCpsr_cases _ with ⟨a, e⟩ | ⟨a, b, e⟩ | ⟨_, _, e⟩ <;> rw [hu] at e <;> cases e
          · refine .inl fun m => ?_
            apply State.spsrOf_congr <;> simp only [State.finish_spsrFiq, State.finish_spsrIrq, State.finish_spsrSvc, State.finish_spsrAbt, State.finish_spsrUnd] <;> split <;> simp
          · right; right
            rw [State.mode_congr (s := s.begin)] at a
            · exact a
            · split <;> simp
        · cases h
          refine .inl fun m => ?_
          apply State.spsrOf_congr <;> simp only [State.finish_spsrFiq, State.finish_spsrIrq, State.finish_spsrSvc, State.finish_spsrAbt, State.finish_spsrUnd] <;> split <;> simp
  case stm =>
    exact hf h fun h => by
      split at h <;> cases h
      · exact .inl fun m => State.spsrOf_congr rfl rfl rfl rfl rfl m
      · refine .inl fun m => ?_
        apply State.spsrOf_congr <;> simp only [State.finish_spsrFiq, State.finish_spsrIrq, State.finish_spsrSvc, State.finish_spsrAbt, State.finish_spsrUnd] <;> split <;> simp
  case msrReg | msrImm =>
    exact hf h fun h => by
      unfold msrWrite at h
      split at h
      · cases h
        cases hm : s.mode.hasSpsr
        · left; intro m
          rw [State.finish_spsrOf, State.setSpsr_of_no_spsr]
          exact hm
        · simp
      · split at h <;> cases h
        exact .inl fun m => State.spsrOf_congr rfl rfl rfl rfl rfl m
  case mul | mla =>
    exact hf h fun h => by
      unfold mulWrite at h; injection h with h; rw [← h]
      refine .inl fun m => ?_
      rw [State.finish_spsrOf]
      apply State.spsrOf_congr <;> split <;> simp
  case umull | umlal | smull | smlal =>
    exact hf h fun h => by
      unfold mullWrite at h; injection h with h; rw [← h]
      refine .inl fun m => ?_
      rw [State.finish_spsrOf]
      apply State.spsrOf_congr <;> split <;> simp
  all_goals
    exact hf h fun h => by cases h; refine .inl fun m => ?_; apply State.spsrOf_congr <;> simp [dpFinish]

end Sys2Proof.Machine
end

