-- ==== Sys2Proof/Tests/Slice0.lean ====
section
/-! SUPPORT. Tests: the well-formedness check, one word per constructor written out from the spec's encodings, one-step runs of
the spec's worked examples, and a witness for the hypotheses of every statement. -/

namespace Sys2Proof.Tests

open Sys2Proof.Machine Sys2Proof.Cert

/-! ### Well-formedness (30_encoding.md rule R154: these words are MRS) -/

theorem test_illFormed_tst : Instr.wf (.dpTestS0 .al .tst 15 (.shiftImm 0 .lsl 0)) = false := by decide
theorem test_illFormed_cmp : Instr.wf (.dpTestS0 .al .cmp 15 (.shiftImm 0 .lsl 0)) = false := by decide
theorem test_wellFormed_teq : Instr.wf (.dpTestS0 .al .teq 15 (.shiftImm 0 .lsl 0)) = true := by decide

/-! ### Decoding: one word per constructor, its fields written out from the spec's encoding -/

/-- Rules R132 to R135. -/
theorem test_decode_data_processing :
    decode 0b1110_00_1_0000_1_0001_0000_0000_11111111#32 = some (.and .al true 1 0 (.imm 0 0xFF)) ∧
    decode 0b1110_00_1_0001_0_0010_0011_1111_00000001#32 = some (.eor .al false 2 3 (.imm 15 1)) ∧
    decode 0b1110_00_1_0010_1_1110_1111_0000_00000100#32 = some (.sub .al true 14 15 (.imm 0 4)) ∧
    decode 0b1110_00_0_0011_0_1001_1010_00101_00_0_1011#32 = some (.rsb .al false 9 10 (.shiftImm 11 .lsl 5)) ∧
    decode 0b1110_00_0_0100_0_1111_0000_0001_0_00_1_1111#32 = some (.add .al false 15 0 (.shiftReg 15 .lsl 1)) ∧
    decode 0b1110_00_0_0101_1_1000_0111_11111_01_0_0110#32 = some (.adc .al true 8 7 (.shiftImm 6 .lsr 31)) ∧
    decode 0b1110_00_0_0110_0_0101_0100_00000_10_0_0011#32 = some (.sbc .al false 5 4 (.shiftImm 3 .asr 0)) ∧
    decode 0b1110_00_0_0111_1_1100_1101_0010_0_11_1_0100#32 = some (.rsc .al true 12 13 (.shiftReg 4 .ror 2)) ∧
    decode 0b0000_00_1_1100_0_0001_0010_0100_11110000#32 = some (.orr .eq false 1 2 (.imm 4 0xF0)) ∧
    decode 0b1110_00_0_1101_1_0000_1111_00000_00_0_1110#32 = some (.mov .al true 15 (.shiftImm 14 .lsl 0)) ∧
    decode 0b1110_00_1_1110_0_0000_0000_0000_11111111#32 = some (.bic .al false 0 0 (.imm 0 0xFF)) ∧
    decode 0b1111_00_1_1111_1_0000_0110_0000_00000000#32 = some (.mvn .nv true 6 (.imm 0 0)) := by decide

/-- Rules R135, R156. -/
theorem test_decode_data_processing_tests :
    decode 0b1110_00_0_1000_1_0001_0000_00000_00_0_0010#32 = some (.tst .al 1 (.shiftImm 2 .lsl 0)) ∧
    decode 0b1110_00_0_1001_1_0001_0000_00000_00_0_0010#32 = some (.teq .al 1 (.shiftImm 2 .lsl 0)) ∧
    decode 0b1110_00_0_1010_1_0001_0000_00000_00_0_0010#32 = some (.cmp .al 1 (.shiftImm 2 .lsl 0)) ∧
    decode 0b1110_00_0_1011_1_0001_0000_00000_00_0_0010#32 = some (.cmn .al 1 (.shiftImm 2 .lsl 0)) ∧
    decode 0b1110_00_0_1001_0_1111_1111_1110_0_00_1_1110#32 = some (.dpTestS0 .al .teq 15 (.shiftReg 14 .lsl 14)) ∧
    decode 0b1110_00_1_1000_0_0001_0000_0000_00000001#32 = some (.dpTestS0 .al .tst 1 (.imm 0 1)) := by decide

/-- Rules R136, R137. -/
theorem test_decode_multiply :
    decode 0b1110_000000_0_1_0011_0000_0010_1001_0001#32 = some (.mul .al true 3 1 2) ∧
    decode 0b1110_000000_1_0_0011_0100_0010_1001_0001#32 = some (.mla .al false 3 4 1 2) ∧
    decode 0b1110_00001_0_0_0_0001_0000_0011_1001_0010#32 = some (.umull .al false 1 0 2 3) ∧
    decode 0b1110_00001_0_1_1_0001_0000_0010_1001_0011#32 = some (.umlal .al true 1 0 3 2) ∧
    decode 0b1110_00001_1_0_0_0001_0000_0011_1001_0010#32 = some (.smull .al false 1 0 2 3) ∧
    decode 0b1110_00001_1_1_1_0001_0000_0010_1001_0011#32 = some (.smlal .al true 1 0 3 2) := by decide

/-- Rules R138, R267. -/
theorem test_decode_single_transfer :
    decode 0b1110_01_0_1_1_0_0_0_0001_0000_000000000000#32 = some (.str .al .pre true 1 0 (.imm 0)) ∧
    decode 0b1110_01_1_1_0_0_0_1_0001_0000_00010_00_0_0010#32 = some (.ldr .al .pre false 1 0 (.reg 2 .lsl 2)) ∧
    decode 0b1110_01_0_0_1_1_0_0_0001_0000_000000000001#32 = some (.strb .al .post true 1 0 (.imm 1)) ∧
    decode 0b1110_01_0_1_1_1_1_1_0001_0000_111111111111#32 = some (.ldrb .al .preWriteback true 1 0 (.imm 0xFFF)) ∧
    decode 0b1110_01_0_0_1_0_1_0_0001_0000_000000000100#32 = some (.strt .al true 1 0 (.imm 4)) ∧
    decode 0b1110_01_0_0_1_0_1_1_0001_0000_000000000100#32 = some (.ldrt .al true 1 0 (.imm 4)) ∧
    decode 0b1110_01_0_0_0_1_1_0_0010_0011_000000001000#32 = some (.strbt .al false 2 3 (.imm 8)) ∧
    decode 0b1110_01_1_0_0_1_1_1_0010_0011_00011_11_1_0100#32 = some (.ldrbt .al false 2 3 (.reg 4 .ror 3)) := by decide

/-- Rules R139, R279. -/
theorem test_decode_halfword_transfer :
    decode 0b1110_000_1_1_1_1_0_0001_0000_0010_1_01_1_0100#32 = some (.strh .al .preWriteback true 1 0 (.imm 0x24)) ∧
    decode 0b1110_000_0_1_0_0_1_0001_0000_0000_1_01_1_0010#32 = some (.ldrh .al .post true 1 0 (.reg 2)) ∧
    decode 0b1110_000_1_0_1_0_1_0001_0000_1111_1_10_1_0001#32 = some (.ldrsb .al .pre false 1 0 (.imm 0xF1)) ∧
    decode 0b1110_000_1_1_1_0_1_0001_0000_0000_1_11_1_0010#32 = some (.ldrsh .al .pre true 1 0 (.imm 2)) ∧
    decode 0b1110_000_1_1_1_1_0_0001_0000_0000_1_10_1_0100#32 = some (.strResSb .al .preWriteback true 1 0 (.imm 4)) ∧
    decode 0b1110_000_0_1_1_0_0_0001_0000_0000_1_11_1_0100#32 = some (.strResSh .al .post true 1 0 (.imm 4)) := by decide

/-- Rule R143. -/
theorem test_decode_swap :
    decode 0b1110_00010_0_00_0010_0000_00001001_0001#32 = some (.swp .al 2 0 1) ∧
    decode 0b1110_00010_1_00_0010_0000_00001001_0001#32 = some (.swpb .al 2 0 1) := by decide

/-- Rule R144. -/
theorem test_decode_psr_transfer :
    decode 0b1110_00010_0_001111_0000_000000000000#32 = some (.mrsCpsr .al 0) ∧
    decode 0b1110_00010_1_001111_0111_000000000000#32 = some (.mrsSpsr .al 7) ∧
    decode 0b1110_00010_1_10_1001_1111_00000000_0011#32 = some (.msrReg .al .spsr 0b1001 3) ∧
    decode 0b1110_00110_0_10_1000_1111_0100_11110000#32 = some (.msrImm .al .cpsr 0b1000 4 0xF0) := by decide

/-- Rules R141, R142. -/
theorem test_decode_branch :
    decode 0b1110_101_0_111111111111111111111010#32 = some (.b .al 0xFFFFFA) ∧
    decode 0b0001_101_1_000000000000001111111110#32 = some (.bl .ne 0x0003FE) ∧
    decode 0b1110_0001001011111111111100_01_1110#32 = some (.bx .al 14) := by decide

/-- Rule R140. -/
theorem test_decode_block_transfer :
    decode 0b1110_100_1_0_0_1_0_1101_0100000000000011#32 = some (.stm .al .db false true 13 0x4003) ∧
    decode 0b1110_100_0_1_1_0_1_0000_1000000000000000#32 = some (.ldm .al .ia true false 0 0x8000) := by decide

/-- Rules R145, R158. -/
theorem test_decode_software_interrupt :
    decode 0b1110_1111_00000101_0000000000000000#32 = some (.swi .al 5) ∧
    decode 0b1110_1100_00000110_0000000000000001#32 = some (.swiCpC .al 6) ∧
    decode 0b1110_1101_11111111_0000000000000000#32 = some (.swiCpD .al 0xFF) ∧
    decode 0b1110_1110_00000000_1111111111111111#32 = some (.swiCpE .al 0) := by decide

/-- Bytes are little-endian, and fewer than four are refused by name (rules R100, R130). -/
theorem test_decodeBytes :
    (decodeBytes [0xFF, 0x00, 0x11, 0xE2, 0xAA]).toOption = some (.and .al true 1 0 (.imm 0 0xFF), [0xAA]) ∧
    decodeBytes [0xFF, 0x00, 0x11] = .error .truncated := by decide

/-- The table's word of a row runs as the first instruction after reset: MOV R0, #5. -/
theorem test_withFetchWord :
    decodeTableWord 32 0xE3A00005 = some (.mov .al false 0 (.imm 0 5)) ∧
    (match step (State.reset.withFetchWord 32 0xE3A00005) with
      | .next t => t.reg t.mode 0 == 5#32 && t.pc == 4#32
      | _ => false) = true := by decide

/-! ### One step of the spec's worked examples (95_test_vectors.md)

`ready` is a state at pc 0x03000000 in System mode with the word there; `Gives` says what one step leaves. -/

def ready (w : Word) (regs : List (Reg × Word)) (mem : List (Word × Word) := []) (cpsr : Word := 0x1F#32) : State :=
  let s : State := { State.reset with cpsr := cpsr, pc := 0x03000000#32, irqLine := false }
  let s := regs.foldl (fun s x => s.setReg s.mode x.1 x.2) s
  let s := mem.foldl (fun s x => s.placeWord x.1 x.2) s
  s.placeWord s.pc w

/-- Whether an outcome is a next state with a property. -/
def After (r : Result) (p : State → Bool) : Bool :=
  match r with
  | .next t => p t
  | _ => false

/-- Registers, CPSR, cycles, pc and memory words after one step. -/
def Gives (s : State) (regs : List (Reg × Word)) (cpsr : Word := 0x1F#32) (cycles : Nat := 1)
    (pc : Word := 0x03000004#32) (mem : List (Word × Word) := []) : Bool :=
  After (step s) fun t =>
    regs.all (fun x => t.reg t.mode x.1 == x.2) && t.cpsr == cpsr && t.cycles == cycles && t.pc == pc &&
      mem.all (fun x => t.read32 x.1 == x.2)

theorem test_adds_overflow :
    Gives (ready 0xE0910002 [(1, 0x7FFFFFFF), (2, 0x1)]) [(0, 0x80000000)] 0x9000001F = true := by decide
theorem test_subs_borrow :
    Gives (ready 0xE0510002 [(1, 0x5), (2, 0xA)]) [(0, 0xFFFFFFFB)] 0x8000001F = true := by decide
theorem test_subs_overflow :
    Gives (ready 0xE0510002 [(1, 0x80000000), (2, 0x1)]) [(0, 0x7FFFFFFF)] 0x3000001F = true := by decide
theorem test_cmp_equal : Gives (ready 0xE1510002 [(1, 0x7), (2, 0x7)]) [] 0x6000001F = true := by decide
theorem test_adcs_carry :
    Gives (ready 0xE0B10002 [(1, 0xFFFFFFFF), (2, 0x0)] [] 0x2000001F) [(0, 0x0)] 0x6000001F = true := by decide
theorem test_sbcs_borrow :
    Gives (ready 0xE0D10002 [(1, 0x5), (2, 0x5)]) [(0, 0xFFFFFFFF)] 0x8000001F = true := by decide
theorem test_rsbs : Gives (ready 0xE2710000 [(1, 0x1)]) [(0, 0xFFFFFFFF)] 0x8000001F = true := by decide
theorem test_rscs : Gives (ready 0xE0F10002 [(1, 0x1), (2, 0x3)]) [(0, 0x1)] 0x2000001F = true := by decide
theorem test_cmn_overflow :
    Gives (ready 0xE1710002 [(1, 0x80000000), (2, 0x80000000)]) [] 0x7000001F = true := by decide
theorem test_ands_shift : Gives (ready 0xE01100A2 [(1, 0xFF), (2, 0x3)]) [(0, 0x1)] 0x2000001F = true := by decide
theorem test_eors_zero : Gives (ready 0xE0310002 [(1, 0x1234), (2, 0x1234)]) [(0, 0x0)] 0x4000001F = true := by decide
theorem test_teq_zero : Gives (ready 0xE1310002 [(1, 0x1234), (2, 0x1234)]) [] 0x4000001F = true := by decide
theorem test_tst_zero : Gives (ready 0xE1110002 [(1, 0x1), (2, 0x2)]) [] 0x4000001F = true := by decide
theorem test_orr : Gives (ready 0xE1810002 [(1, 0xF), (2, 0xF0)]) [(0, 0xFF)] = true := by decide
theorem test_bic : Gives (ready 0xE1C10002 [(1, 0xFF), (2, 0xF)]) [(0, 0xF0)] = true := by decide
theorem test_mvns : Gives (ready 0xE3F00000 []) [(0, 0xFFFFFFFF)] 0x8000001F = true := by decide
theorem test_movs_asr_register :
    Gives (ready 0xE1B00251 [(1, 0x80000000), (2, 0xC8)]) [(0, 0xFFFFFFFF)] 0xA000001F 2 = true := by decide
theorem test_movs_ror_zero_is_nop :
    Gives (ready 0xE1B00061 [(1, 0x80000001)]) [(0, 0x80000001)] 0x8000001F = true := by decide
theorem test_add_pc_register_shift : Gives (ready 0xE08F011F []) [(0, 0x6000018)] 0x1F 2 = true := by decide
theorem test_dpTestS0_writes_nothing : Gives (ready 0xE12FFE1E [(14, 0x3000201)]) [] 0x1F 2 = true := by decide
theorem test_muls_keeps_cv :
    Gives (ready 0xE0100291 [(1, 0x10000), (2, 0x10000)] [] 0x3000001F) [(0, 0x0)] 0x7000001F 2 = true := by decide
theorem test_mla : Gives (ready 0xE0203291 [(1, 0x5), (2, 0x7), (3, 0x64)]) [(0, 0x87)] 0x1F 3 = true := by decide
theorem test_umull :
    Gives (ready 0xE0810392 [(2, 0xFFFFFFFF), (3, 0x2)]) [(0, 0xFFFFFFFE), (1, 0x1)] 0x1F 3 = true := by decide
theorem test_umlals :
    Gives (ready 0xE0B10293 [(0, 0x1), (1, 0x0), (2, 0xFFFFFFFF), (3, 0xFFFFFFFF)]) [(0, 0x2), (1, 0xFFFFFFFE)] 0x8000001F 4 = true := by decide
theorem test_smull :
    Gives (ready 0xE0C10392 [(2, 0xFFFFFFFB), (3, 0x3)]) [(0, 0xFFFFFFF1), (1, 0xFFFFFFFF)] 0x1F 3 = true := by decide
theorem test_smlals_zero :
    Gives (ready 0xE0F10293 [(0, 0x5), (1, 0x0), (2, 0xFFFFFFFF), (3, 0x5)]) [(0, 0x0), (1, 0x0)] 0x4000001F 4 = true := by decide
theorem test_ldr_aligns_down :
    Gives (ready 0xE5910001 [(1, 0x3000100)] [(0x3000100, 0x11223344)]) [(0, 0x11223344)] 0x1F 3 = true := by decide
theorem test_ldr_base_is_destination :
    Gives (ready 0xE5B11004 [(1, 0x3000100)] [(0x3000104, 0x77)]) [(1, 0x77)] 0x1F 3 = true := by decide
theorem test_str_pc :
    Gives (ready 0xE581F000 [(1, 0x3000100)]) [] 0x1F 2 0x3000004 [(0x3000100, 0x300000C)] = true := by decide
theorem test_str_rom_dropped :
    Gives (ready 0xE5810000 [(0, 0x5), (1, 0x100)]) [] 0x1F 2 0x3000004 [(0x100, 0x0)] = true := by decide
theorem test_ldrb :
    Gives (ready 0xE5D10001 [(1, 0x3000100)] [(0x3000100, 0x11223344)]) [(0, 0x33)] 0x1F 3 = true := by decide
theorem test_strb :
    Gives (ready 0xE5C10003 [(0, 0xABCD), (1, 0x3000100)] [(0x3000100, 0x11223344)]) [] 0x1F 2 0x3000004 [(0x3000100, 0xCD223344)] = true := by decide
theorem test_ldrt_post :
    Gives (ready 0xE4B10004 [(1, 0x3000100)] [(0x3000100, 0x66)]) [(0, 0x66), (1, 0x3000104)] 0x1F 3 = true := by decide
theorem test_ldrsh_odd :
    Gives (ready 0xE1D100F1 [(1, 0x3000100)] [(0x3000100, 0x12348002)]) [(0, 0xFFFF8002)] 0x1F 3 = true := by decide
theorem test_ldrsb :
    Gives (ready 0xE1D100D0 [(1, 0x3000100)] [(0x3000100, 0x80)]) [(0, 0xFFFFFF80)] 0x1F 3 = true := by decide
theorem test_ldrh_post_register :
    Gives (ready 0xE09100B2 [(1, 0x3000100), (2, 0x6)] [(0x3000100, 0xBEEF)]) [(0, 0xBEEF), (1, 0x3000106)] 0x1F 3 = true := by decide
theorem test_strh_writeback :
    Gives (ready 0xE1E102B4 [(0, 0x1234), (1, 0x3000100)]) [(1, 0x3000124)] 0x1F 2 0x3000004 [(0x3000124, 0x1234)] = true := by decide
theorem test_strResSb_nothing : Gives (ready 0xE1E100D4 [(1, 0x3000100)]) [(1, 0x3000100)] = true := by decide
theorem test_stmdb_writeback :
    Gives (ready 0xE92D4003 [(0, 0xA), (1, 0xB), (14, 0x300ABCD), (13, 0x3007F00)]) [(13, 0x3007EF4)] 0x1F 4 0x3000004 [(0x3007EF4, 0xA), (0x3007EF8, 0xB), (0x3007EFC, 0x300ABCD)] = true := by decide
theorem test_ldmia_pc :
    Gives (ready 0xE8BD8003 [(13, 0x3007EF4)] [(0x3007EF4, 0xA), (0x3007EF8, 0xB), (0x3007EFC, 0x3000200)]) [(0, 0xA), (1, 0xB), (13, 0x3007F00)] 0x1F 7 0x3000200 = true := by decide
theorem test_ldm_empty : Gives (ready 0xE8B00000 [(0, 0x3000100)]) [(0, 0x3000100)] = true := by decide
theorem test_b_backward : Gives (ready 0xEAFFFFFC []) [] 0x1F 3 0x2FFFFF8 = true := by decide
theorem test_bl : Gives (ready 0xEB0003FE []) [(14, 0x3000004)] 0x1F 3 0x3001000 = true := by decide
theorem test_bx_odd : Gives (ready 0xE12FFF1E [(14, 0x3000201)]) [] 0x3F 3 0x3000200 = true := by decide
theorem test_bx_keeps_bit_one : Gives (ready 0xE12FFF1E [(14, 0x3000202)]) [] 0x1F 3 0x3000202 = true := by decide
theorem test_swp :
    Gives (ready 0xE1010090 [(0, 0x55), (1, 0x3000100)] [(0x3000100, 0x66)]) [(0, 0x66)] 0x1F 4 0x3000004 [(0x3000100, 0x55)] = true := by decide
theorem test_swpb :
    Gives (ready 0xE1420091 [(1, 0xAB), (2, 0x3000101)] [(0x3000100, 0x11223344)]) [(0, 0x33)] 0x1F 4 0x3000004 [(0x3000100, 0x1122AB44)] = true := by decide
theorem test_mrs : Gives (ready 0xE10F0000 [] [] 0x6000001F) [(0, 0x6000001F)] 0x6000001F = true := by decide
theorem test_msrImm_mode : Gives (ready 0xE321F01F [] [] 0xD3) [] = true := by decide
theorem test_msrReg_user :
    Gives (ready 0xE12FF000 [(0, 0xF00000D3)] [] 0x10) [(0, 0xF00000D3)] 0xF0000010 = true := by decide
theorem test_swi_fallback :
    Gives (ready 0xEF050000 [] [] 0x6000001F) [(14, 0x3000004)] 0x60000093 3 0x8 = true := by decide
theorem test_swiCpE_fallback :
    Gives (ready 0xEE050000 [] [] 0x6000001F) [(14, 0x3000004)] 0x60000093 3 0x8 = true := by decide
theorem test_condition_failed : Gives (ready 0x3A00001 []) [(0, 0x0)] = true := by decide

/-- MOVS PC, LR in Supervisor mode restores the CPSR (rules R180, R211). -/
theorem test_movs_pc_return :
    Gives { ready 0xE1B0F00E [(14, 0x08000100)] [] 0x93 with spsrSvc := 0x6000001F } [] 0x6000001F 3 0x08000100 = true := by
  decide

/-- The IRQ entry (rule R369). -/
theorem test_irq_entry :
    Gives { ready 0xE1A00000 [] [] 0x2000001F with irqLine := true } [(14, 0x03000004)] 0x20000092 3 0x18 = true := by decide

/-- STRH to IF acknowledges the sources whose bits are 1 (rule R97). -/
theorem test_if_acknowledge :
    After (step { ready 0xE1C100B0 [(0, 5), (1, 0x04000202)] with pending := 0xF }) (fun t => t.pending == 0xA) = true := by
  decide

/-- The bus cost of a slow fetch and a slow access is added when it is enabled (rules R420, R421). -/
theorem test_bus_cost :
    After (step { State.reset with
        pc := 0x02000000, cpsr := 0x1F, irqLine := false, params := { Params.default with addBusCost := true },
        mem := (State.reset.placeWord 0x02000000 0xE5910000).mem }) (fun t => t.cycles == 7) = true := by decide

/-- A launch with another region table: IWRAM at selectors 0x40 and 0x41, 64 KiB, mirrored; its default window is unmapped
(rules R7, R83, R84). -/
theorem test_other_region_map :
    let s := { State.reset with params := { Params.default with regions := [⟨0x40, 0x41, .iwram, 0x10000 / 4, true⟩] } }
    (s.write32 0x40000100 0x11223344).read32 0x41FF0100 = 0x11223344#32 ∧
    (s.write32 0x03000100 0x11223344).read32 0x03000100 = 0xFFFFFFFF#32 ∧ isSlow s.params.regions 0x40000000 = true := by
  decide

/-- Restoring a snapshot sets the core-owned stores and leaves a cartridge ROM image (rule R408). -/
theorem test_restore :
    let s := ((State.reset.hostPoke 0x03000000 0xAA).hostPoke 0x08000000 0xBB)
    let t := ((State.reset.hostPoke 0x03000001 0xCC).hostPoke 0x08000000 0xDD).restore s.snapshot
    s.snapshot.mem = [(0x300000000, 0xAA)] ∧ t.mem = [(0x300000000, 0xAA), (0x800000000, 0xDD)] := by decide

/-- The host's write through the bus acknowledges IF and is dropped in the BIOS; beside the bus it fills the BIOS (rules R87,
R97, R410). -/
theorem test_host_access :
    ({ State.reset with pending := 0xF }.hostBusWrite 0x04000202 0x5).pending = 0xA#16 ∧
    (State.reset.hostBusWrite 0x18 0x12).hostPeek 0x18 = some 0x00 ∧
    (State.reset.hostPoke 0x18 0x12).hostPeek 0x18 = some 0x12 ∧ State.reset.hostPeek 0x08000000 = none := by decide

/-! ### Witnesses: the hypotheses of every statement are met, clause by clause -/

/-- User mode, the flags clear, at the start of IWRAM; `user` registers are 0. -/
def userState : State := { State.reset with cpsr := 0x10, pc := 0x03000000, irqLine := false }

/-- IRQ mode with a saved status register. -/
def irqState (saved : Word) : State := { State.reset with cpsr := 0x92, pc := 0x03000000, spsrIrq := saved, irqLine := false }

theorem test_witness_DecodeEncodeRoundTrip :
    Instr.wf (.dpTestS0 .al .tst 14 (.shiftImm 0 .lsl 0)) = true ∧ Instr.wf (.dpTestS0 .al .cmp 15 (.shiftImm 0 .lsl 1)) = true ∧
    Instr.wf (.swiCpC .nv 0xFF) = true := by decide

theorem test_witness_CategoryOneIsSingleTransfer :
    field 0xE5910000#32 26 2 = 0b01#2 ∧ field 0xE7910102#32 26 2 = 0b01#2 ∧ (0xE7910102#32).getLsbD 25 = true := by decide

theorem test_witness_CategoryThreeIsSoftwareInterrupt :
    field 0xEC000000#32 26 2 = 0b11#2 ∧ field 0xFFFFFFFF#32 26 2 = 0b11#2 := by decide

/-- An instruction that runs with the line low, one that runs with the line high and masked, and one that is refused. -/
theorem test_witness_StepRunsDecoded :
    (let s := ready 0xE3A00001 []
     psrT s.cpsr = false ∧ validPsr s.cpsr = true ∧ s.irqLine = false ∧
       decode (s.read32 s.pc) = some (.mov .al false 0 (.imm 0 1)) ∧
       After (exec (.mov .al false 0 (.imm 0 1)) { s with draws := s.draws + 1 }) (fun _ => true) = true) ∧
    (let s := { ready 0xE3A00001 [] [] 0x9F with irqLine := true }
     psrT s.cpsr = false ∧ validPsr s.cpsr = true ∧ psrI s.cpsr = true ∧
       decode (s.read32 s.pc) = some (.mov .al false 0 (.imm 0 1))) ∧
    (let s := ready 0xE121F000 []
     decode (s.read32 s.pc) = some (.msrReg .al .cpsr 0b0001 0) ∧
       exec (.msrReg .al .cpsr 0b0001 0) { s with draws := s.draws + 1 } = .refused .invalidMode) := by
  refine ⟨by decide, by decide, by decide, rfl⟩

theorem test_witness_ThumbStateRefused : psrT ({ State.reset with cpsr := 0xF3 } : State).cpsr = true := by decide

theorem test_witness_FailedConditionIsNoOp :
    condPassed (Instr.cond (.ldm .eq .ia true true 0 0xFFFF)) State.reset.cpsr = false := by decide

/-- An MSR and an SPSR restore are refused; a handler's answer is a free value, so whether it is refused has no witness. -/
theorem test_witness_OnlySpecRefusals :
    exec (.msrImm .al .cpsr 0b0001 0 0) State.reset = .refused .invalidMode ∧
    exec (.mov .al true 15 (.imm 0 0)) State.reset = .refused .invalidMode ∧
    exec (.ldm .al .ia true false 0 0x8000) State.reset = .refused .invalidMode := ⟨rfl, rfl, rfl⟩

theorem test_witness_StepKeepsInvariant :
    State.reset.Inv ∧ After (step State.reset) (fun _ => true) = true := by decide

/-- A step of each of the three kinds from User mode. -/
theorem test_witness_UserModeKeepsControlBits :
    userState.mode? = some .usr ∧ After (step userState) (fun _ => true) = true ∧
    After (step { userState with irqLine := true }) (fun t => t.cpsr == 0x92) = true ∧
    After (step (ready 0xEF000000 [] [] 0x10)) (fun t => t.cpsr == 0x93) = true := by decide

/-- BX, a privileged MSR and an SPSR restore set T; that a handler does is a free value. -/
theorem test_witness_ThumbEntryOnlyByFour :
    After (step (ready 0xE12FFF10 [(0, 1)])) (fun t => psrT t.cpsr) = true ∧
    After (step (ready 0xE121F000 [(0, 0x3F)])) (fun t => psrT t.cpsr) = true ∧
    After (step { ready 0xE1B0F00E [] [] 0x92 with spsrIrq := 0x3F }) (fun t => psrT t.cpsr) = true := by decide

/-- The first and the last BIOS byte, and a listed byte of a ROM image. -/
theorem test_witness_StepKeepsReadOnly :
    After (step userState) (fun _ => true) = true ∧ regionOf RegionMap.default 0 = .bios ∧ regionOf RegionMap.default 0x00003FFF = .bios ∧
    isCoreOwned 0x800000000 = false ∧ (userState.mem.put 0x800000000 0xAB).lookup 0x800000000 = some 0xAB := by decide

theorem test_witness_ViewTable :
    State.reset.mode? = some .svc ∧ view .svc 0 = some (.low 0) ∧ view .svc 14 = some (.svc 1) := by decide

theorem test_witness_BanksAreIndependent :
    view .usr 8 = some (.usr 0) ∧ view .fiq 8 = some (.fiq 0) ∧ view .und 14 = some (.und 1) := by decide

/-- Both ends of every region. -/
theorem test_witness_RegionMap :
    [0x00000000#32, 0x00FFFFFF, 0x02000000, 0x02FFFFFF, 0x03000000, 0x03FFFFFF, 0x04000000, 0x04FFFFFF, 0x05000000,
      0x05FFFFFF, 0x06000000, 0x06FFFFFF, 0x07000000, 0x07FFFFFF, 0x08000000, 0x0DFFFFFF, 0x0E000000, 0x0FFFFFFF].map (regionOf RegionMap.default) =
    [.bios, .bios, .ewram, .ewram, .iwram, .iwram, .io, .io, .pal, .pal, .vram, .vram, .oam, .oam, .cartRom, .cartRom,
      .cartSram, .cartSram] := by decide

/-- A row that covers the selector and one that does not. -/
theorem test_witness_RegionMap_row :
    (0x03 ≤ ((0x03000000#32).extractLsb' 24 8).toNat ∧ ((0x03000000#32).extractLsb' 24 8).toNat ≤ 0x03) ∧
    ¬ (0x03 ≤ ((0x04000000#32).extractLsb' 24 8).toNat ∧ ((0x04000000#32).extractLsb' 24 8).toNat ≤ 0x03) := by decide

theorem test_witness_MirrorsAlias :
    rowOf RegionMap.default 0x08000000 = some ⟨0x08, 0x0D, .cartRom, 0x2000000 / 4, true⟩ ∧
    regionOf RegionMap.default 0x03000100 = regionOf RegionMap.default 0x03FF8100 ∧ offsetOf RegionMap.default 0x03000100 = offsetOf RegionMap.default 0x03FF8100 := by decide

theorem test_witness_UnmappedAccess :
    [0x01000000#32, 0x01FFFFFF, 0x10000000, 0xFFFFFFFF].map (regionOf RegionMap.default) = [.unmapped, .unmapped, .unmapped, .unmapped] := by decide

theorem test_witness_PlainByteStore :
    State.reset.mem.wf = true ∧ regionOf RegionMap.default 0x02000000 ∈ [Region.ewram, .iwram, .pal, .vram, .oam] ∧
    regionOf RegionMap.default 0x07FFFFFF ∈ [Region.ewram, .iwram, .pal, .vram, .oam] ∧ physOf RegionMap.default 0x02000001 ≠ physOf RegionMap.default 0x02000000 := by
  decide

/-- The offsets beside the DMA windows and beside IF. -/
theorem test_witness_PlainByteStore_io :
    [0x040000AF#32, 0x040000E0, 0x04000201, 0x04000204, 0x040007FF].all (fun a =>
      regionOf RegionMap.default a == .io && (offsetOf RegionMap.default a < 0x0B0 || 0x0DF < offsetOf RegionMap.default a) &&
        offsetOf RegionMap.default a != 0x202 && offsetOf RegionMap.default a != 0x203) = true := by decide

/-- Both ends of the two cartridge windows. -/
theorem test_witness_CartridgeWindowForwards :
    [0x08000000#32, 0x0DFFFFFF].all (fun a => regionOf RegionMap.default a == .cartRom) = true ∧
    [0x0E000000#32, 0x0FFFFFFF].all (fun a => regionOf RegionMap.default a == .cartSram) = true := by decide

theorem test_witness_DmaWindowForwards :
    regionOf RegionMap.default 0x040000B0 = .io ∧ offsetOf RegionMap.default 0x040000B0 = 0x0B0 ∧ regionOf RegionMap.default 0x040004DF = .io ∧ offsetOf RegionMap.default 0x040004DF = 0x0DF := by
  decide

theorem test_witness_InterruptAcknowledge :
    (regionOf RegionMap.default (0x04000203#32 &&& 0xFFFFFFFE#32) = .io ∧ offsetOf RegionMap.default (0x04000203#32 &&& 0xFFFFFFFE#32) = 0x202) ∧
    (regionOf RegionMap.default 0x04000602 = .io ∧ offsetOf RegionMap.default 0x04000602 = 0x202) ∧ (regionOf RegionMap.default 0x04000203 = .io ∧ offsetOf RegionMap.default 0x04000203 = 0x203) ∧
    InterruptSource.gamePak ≠ .vblank := by decide

/-- An address whose halfword is IF, and one whose is not. -/
theorem test_witness_WideAccessIsBytes :
    (regionOf RegionMap.default (0x04000202#32 &&& 0xFFFFFFFE#32) = .io ∧ offsetOf RegionMap.default (0x04000202#32 &&& 0xFFFFFFFE#32) = 0x202) ∧
    ¬ offsetOf RegionMap.default (0x04000204#32 &&& 0xFFFFFFFE#32) = 0x202 := by decide

theorem test_witness_MixedWidthReads :
    State.reset.mem.wf = true ∧ regionOf RegionMap.default 0x0203FFFF ∈ [Region.ewram, .iwram, .pal, .vram, .oam] ∧
    regionOf RegionMap.default 0x06017FFE ∈ [Region.ewram, .iwram, .pal, .vram, .oam] := by decide

theorem test_witness_ExceptionEntry :
    [Mode.fiq, .irq, .svc, .abt, .und].map Mode.hasSpsr = [true, true, true, true, true] ∧ Mode.svc ≠ .irq := by decide

/-- The line high and unmasked, and high and masked. -/
theorem test_witness_IrqIsTaken :
    (let s := { userState with irqLine := true }
     psrT s.cpsr = false ∧ validPsr s.cpsr = true ∧ s.irqLine = true ∧ psrI s.cpsr = false) ∧
    (let s := { ready 0xE3A00001 [] [] 0x9F with irqLine := true }
     psrT s.cpsr = false ∧ validPsr s.cpsr = true ∧ s.irqLine = true ∧ psrI s.cpsr = true ∧
       decode (s.read32 s.pc) = some (.mov .al false 0 (.imm 0 1)) ∧
       After (exec (.mov .al false 0 (.imm 0 1)) { s with draws := s.draws + 1 }) (fun _ => true) = true) := by decide

theorem test_witness_ExceptionReturnRoundTrip :
    validPsr userState.cpsr = true ∧ userState.params.swiHandler = false ∧
    After (exec (.sub .al true 14 15 (.imm 0 4)) userState.takeIrq) (fun t => t.cpsr == 0x10 && t.pc == 0x03000000) = true := by
  decide

theorem test_witness_InvalidRestoreRefused :
    let s := irqState 0
    condPassed .al s.cpsr = true ∧ s.mode.hasSpsr = true ∧ validPsr (s.spsrOf s.mode) = false ∧
      (0x8000#16).getLsbD 15 = true := by decide

/-- Amounts on both sides of 32, and the multiples of 32. -/
theorem test_witness_ShifterResult : [1, 31, 32, 33, 64, 255].all (fun n => 1 ≤ n) = true ∧ 32 % 32 = 0 ∧ 33 % 32 ≠ 0 := by decide

/-- S with Rd below 15, R15 without S, and S with R15 in a mode that owns no SPSR. -/
theorem test_witness_LogicalResult :
    (condPassed .al (irqState 0x10).cpsr = true ∧ ¬ Returns (irqState 0x10) true 14) ∧
    (condPassed .al (irqState 0x10).cpsr = true ∧ ¬ Returns (irqState 0x10) false 15) ∧
    (condPassed .al userState.cpsr = true ∧ ¬ Returns userState true 15) := by unfold Returns; decide

theorem test_witness_AdditionResult :
    condPassed .ne userState.cpsr = true ∧ ¬ Returns userState true 15 ∧
    (Instr.adc .ne true 0 15 (.imm 0 1), 0) ∈ addForms userState .ne true 0 15 (.imm 0 1) ∧
    (condPassed .al (irqState 0x10).cpsr = true ∧ ¬ Returns (irqState 0x10) true 14) := by unfold Returns; decide

theorem test_witness_SubtractionResult :
    condPassed .cc userState.cpsr = true ∧ ¬ Returns userState true 2 ∧
    (Instr.sbc .cc true 1 2 (.shiftReg 3 .ror 4), 0#32, 0#32, 1) ∈ subtractForms userState .cc true 1 2 (.shiftReg 3 .ror 4) ∧
    (condPassed .al (irqState 0x10).cpsr = true ∧ ¬ Returns (irqState 0x10) false 15) := by unfold Returns; decide

theorem test_witness_TestResult : condPassed .al userState.cpsr = true ∧ condPassed .nv userState.cpsr = true := by decide

theorem test_witness_TestWithoutFlagsWritesNothing :
    selectUnit 0xE12FFE1E#32 = some .dataProcessing ∧ (0xE12FFE1E#32).extractLsb' 23 2 = 0b10#2 ∧
    (0xE12FFE1E#32).getLsbD 20 = false ∧ condPassed .al State.reset.cpsr = true := by decide

theorem test_witness_ReturnRestoresCpsr :
    let s := irqState 0x6000001F
    condPassed .al s.cpsr = true ∧ s.mode.hasSpsr = true ∧ validPsr (s.spsrOf s.mode) = true := by decide

theorem test_witness_MultiplyResult : condPassed .al userState.cpsr = true ∧ condPassed .pl userState.cpsr = true := by decide

theorem test_witness_LongMultiplyResult : condPassed .al userState.cpsr = true ∧ (14 : Reg) ≠ 15 ∧ (13 : Reg) ≠ 14 := by decide

/-- Forms that write the base back, and forms that do not. -/
theorem test_witness_LoadResult :
    condPassed .al userState.cpsr = true ∧ WritesBack .post 1 1 ∧ WritesBack .preWriteback 1 2 ∧
    ¬ WritesBack .preWriteback 1 1 ∧ ¬ WritesBack .pre 1 2 := by unfold WritesBack; decide

theorem test_witness_StoreResult :
    condPassed .al userState.cpsr = true ∧ WritesBack .post 15 15 ∧ ¬ WritesBack .preWriteback 15 15 ∧
    physOf RegionMap.default 0x03000004 ∉ (wordBytes 0x03000003).map (physOf RegionMap.default) ∧ physOf RegionMap.default 0x03000002 ∉ (halfBytes 0x03000001).map (physOf RegionMap.default) := by
  unfold WritesBack; decide

theorem test_witness_ReservedStoreDoesNothing :
    selectUnit 0xE1E100D4#32 = some .halfword ∧ (0xE1E100D4#32).getLsbD 20 = false ∧ (0xE1E100D4#32).getLsbD 6 = true ∧
    selectUnit 0xE0C100F4#32 = some .halfword ∧ condPassed .al State.reset.cpsr = true := by decide

theorem test_witness_BlockAddressing : 0 ≤ 16 ∧ 16 ≤ 16 := by decide

/-- R15 listed with S in a mode that owns an SPSR, and in one that owns none; the base listed and not. -/
theorem test_witness_LoadMultipleResult :
    condPassed .al userState.cpsr = true ∧ (0x8001#16) ≠ 0#16 ∧ (0x8001#16).getLsbD 15 = true ∧
    userState.mode.hasSpsr = false ∧ (irqState 0x1F).mode.hasSpsr = true ∧
    validPsr ((irqState 0x1F).spsrOf (irqState 0x1F).mode) = true ∧ (0x8001#16).getLsbD 0 = true ∧
    (0x8001#16).getLsbD 1 = false := by decide

theorem test_witness_StoreMultipleResult :
    condPassed .al userState.cpsr = true ∧ (0xFFFF#16) ≠ 0#16 ∧ listedRegs 0xFFFF = allRegs := by decide

theorem test_witness_EmptyListDoesNothing : condPassed .al userState.cpsr = true ∧ listedRegs 0 = [] := by decide

theorem test_witness_BranchResult : condPassed .al State.reset.cpsr = true := by decide
theorem test_witness_BranchExchangeResult : condPassed .nv State.reset.cpsr = true := by decide
theorem test_witness_SwapResult : condPassed .al userState.cpsr = true ∧ physOf RegionMap.default 0x03000101 ≠ physOf RegionMap.default 0x03000100 := by decide

/-- A mode that owns an SPSR and the two that do not. -/
theorem test_witness_MrsResult :
    condPassed .al (irqState 0x10).cpsr = true ∧ (irqState 0x10).mode = .irq ∧ userState.mode = .usr ∧
    (ready 0 []).mode = .sys := by decide

/-- In a privileged mode a new value with a legal mode and one without; in User mode the top byte alone. -/
theorem test_witness_MsrCpsrResult :
    condPassed .al State.reset.cpsr = true ∧ State.reset.mode = .svc ∧ userState.mode = .usr ∧
    MsrMerges State.reset 0b0001 (rotatedValue 0 0x1F) 0x0000001F ∧ validPsr 0x0000001F = true ∧
    MsrMerges State.reset 0b0001 (rotatedValue 0 0) 0x00000000 ∧ validPsr 0x00000000 = false ∧
    MsrMerges userState 0b1111 (rotatedValue 4 0xF0) 0xF0000010 ∧ validPsr 0xF0000010 = true := by unfold MsrMerges; decide

theorem test_witness_MsrSpsrResult :
    condPassed .al (irqState 0x10).cpsr = true ∧ ¬ ((irqState 0x10).mode = .usr ∨ (irqState 0x10).mode = .sys) ∧
    userState.mode = .usr ∧ Mode.svc ≠ (irqState 0x10).mode := by decide

theorem test_witness_SoftwareInterruptEntry :
    condPassed .al userState.cpsr = true ∧ userState.params.swiHandler = false := by decide

/-- A state with a handler; which of the three outcomes its answer has is a free value. -/
theorem test_witness_SoftwareInterruptHandled :
    let s := { userState with params := { Params.default with swiHandler := true } }
    condPassed .al s.cpsr = true ∧ s.params.swiHandler = true := by decide

end Sys2Proof.Tests
end

section
/-! PROOF. What no bus write reaches: the BIOS store, the listed cartridge image and the parameters (20_memory.md rules R87,
R93; 00_scope.md rule R7). -/

namespace Sys2Proof.Machine

/-- Whether a store address belongs to the BIOS or lies beyond the core-owned stores: no bus write stores there. -/
def ReadOnlyAddr (k : Nat) : Prop := k < Region.ewram.block ∨ isCoreOwned k = false

/-- The read-only bytes and the parameters agree. -/
def ReadOnlyKept (s t : State) : Prop :=
  t.params = s.params ∧ ∀ k, ReadOnlyAddr k → t.mem.lookup k = s.mem.lookup k

/-- The regions a byte write can store in: the plain ones and IO (rules R88, R89). -/
theorem not_readOnlyAddr_physOf {m : RegionMap} {a : Word} (h : (regionOf m a).plain = true ∨ regionOf m a = .io) :
    ¬ ReadOnlyAddr (physOf m a) := by
  have ho := offsetOf_lt m a
  unfold ReadOnlyAddr
  rw [← Bool.not_eq_true, isCoreOwned_iff]
  unfold physOf
  cases hr : regionOf m a <;> rw [hr] at h
  case bios | cartRom | cartSram | unmapped => simp [Region.plain] at h
  all_goals simp only [Region.block, Region.number]; omega

/-- What a byte write does to memory: nothing, or one byte put outside the read-only stores (rule R96). -/
theorem State.write8_mem_cases (s : State) (a : Word) (b : Byte) :
    (s.write8 a b).mem = s.mem ∨ ∃ k, ¬ ReadOnlyAddr k ∧ (s.write8 a b).mem = s.mem.put k b := by
  cases hr : regionOf s.params.regions a
  case ewram | iwram | pal | vram | oam =>
    have hp : (regionOf s.params.regions a).plain = true := by rw [hr]; rfl
    exact .inr ⟨_, not_readOnlyAddr_physOf (.inl hp), by rw [State.write8_plain hp, State.store_mem]⟩
  case io =>
    unfold State.write8
    simp only [hr]
    split_ifs
    · exact .inl rfl
    · exact .inl rfl
    · exact .inl rfl
    · exact .inr ⟨_, not_readOnlyAddr_physOf (.inr hr), rfl⟩
  case bios | cartRom | cartSram | unmapped => exact .inl (by simp [State.write8, hr])

theorem ReadOnlyKept.write8 {s t : State} (h : ReadOnlyKept s t) (a : Word) (b : Byte) : ReadOnlyKept s (t.write8 a b) := by
  obtain ⟨hp, hm⟩ := h
  refine ⟨by rw [State.write8_params, hp], fun k hk => ?_⟩
  rcases t.write8_mem_cases a b with e | ⟨j, hj, e⟩ <;> rw [e]
  · exact hm k hk
  · have hne : j ≠ k := fun e => hj (e ▸ hk)
    rw [Memory.lookup_put_ne _ hne, hm k hk]

theorem ReadOnlyKept.write16 {s t : State} (h : ReadOnlyKept s t) (a : Word) (v : Half) : ReadOnlyKept s (t.write16 a v) := by
  unfold State.write16
  dsimp only
  split
  · exact h
  · exact (h.write8 _ _).write8 _ _

/-- A step reaches memory through bus writes alone, and these keep every read-only byte. -/
theorem step_readOnlyKept {s t : State} (h : step s = .next t) : ReadOnlyKept s t :=
  step_keeps (P := ReadOnlyKept s) (fun _ _ hm _ _ hp hk => ⟨hp.trans hk.1, fun k hr => by rw [hm, hk.2 k hr]⟩)
    (fun _ a v hk => hk.write8 a v) (fun _ a v hk => hk.write16 a v) h ⟨rfl, fun _ _ => rfl⟩

theorem readOnlyAddr_physOf_of_bios {m : RegionMap} {a : Word} (h : regionOf m a = .bios) : ReadOnlyAddr (physOf m a) := by
  have ho := offsetOf_lt m a
  refine .inl ?_
  simp only [physOf, h, Region.block, Region.number]
  omega

/-- A BIOS byte is the listed one, or 0: no free value is in it (rules R56, R86). -/
theorem State.read8_bios {s : State} {a : Word} (h : regionOf s.params.regions a = .bios) :
    s.read8 a = (s.mem.lookup (physOf s.params.regions a)).getD 0 := by
  have ho := offsetOf_lt s.params.regions a
  have hc : isCoreOwned (physOf s.params.regions a) = true := by
    rw [isCoreOwned_iff]
    simp only [physOf, h, Region.block, Region.number]
    omega
  simp only [State.read8, h, State.storedByte, resting, hc, if_true, Option.getD_some]
  cases s.mem.lookup (physOf s.params.regions a) <;> rfl

theorem ReadOnlyKept.read8_bios {s t : State} (h : ReadOnlyKept s t) {a : Word} (ha : regionOf s.params.regions a = .bios) :
    t.read8 a = s.read8 a := by
  obtain ⟨hp, hm⟩ := h
  rw [State.read8_bios ha, State.read8_bios (by rw [hp]; exact ha), hp, hm _ (readOnlyAddr_physOf_of_bios ha)]

/-- Settles O15: a step keeps the read-only addresses, and a BIOS read is a function of the byte listed at one of them. -/
theorem stepKeepsReadOnly : Obligations.StepKeepsReadOnly := by
  unfold Obligations.StepKeepsReadOnly
  intro s t h
  have hk := step_readOnlyKept h
  exact ⟨fun _ ha => hk.read8_bios ha, fun k hr => hk.2 k (.inr hr), hk.1⟩

end Sys2Proof.Machine
end

section
/-! PROOF. How a table of regions selects, row by row, and what the default table selects (20_memory.md rules R82 to R84). -/

namespace Sys2Proof.Machine

/-- Bits 31:24 of an address, the region selector (rule R82). -/
theorem selector_toNat (a : Word) : (a.extractLsb' 24 8).toNat = a.toNat / 0x1000000 := by
  have := a.isLt
  simp only [BitVec.extractLsb'_toNat, Nat.shiftRight_eq_div_pow]
  omega

/-! ### What a row found says -/

theorem regionOf_of_row {m : RegionMap} {a : Word} {r : RegionRow} (h : rowOf m a = some r) : regionOf m a = r.region := by
  simp [regionOf, h]

theorem offsetOf_of_row {m : RegionMap} {a : Word} {r : RegionRow} (h : rowOf m a = some r) :
    offsetOf m a = (a.toNat - r.base) % r.size := by
  simp [offsetOf, h]

theorem isSlow_of_row {m : RegionMap} {a : Word} {r : RegionRow} (h : rowOf m a = some r) : isSlow m a = r.slow := by
  simp [isSlow, h]

theorem regionOf_of_no_row {m : RegionMap} {a : Word} (h : rowOf m a = none) : regionOf m a = .unmapped := by
  simp [regionOf, h]

theorem isSlow_of_no_row {m : RegionMap} {a : Word} (h : rowOf m a = none) : isSlow m a = false := by
  simp [isSlow, h]

/-! ### The first row decides, or leaves the choice to the rest (log 3) -/

theorem rowOf_cons_covered {r : RegionRow} {a : Word} (m : RegionMap)
    (h : r.first ≤ a.toNat / 0x1000000 ∧ a.toNat / 0x1000000 ≤ r.last) : rowOf (r :: m) a = some r :=
  List.find?_cons_of_pos (by simpa using h)

theorem rowOf_cons_not_covered {r : RegionRow} {a : Word} (m : RegionMap)
    (h : ¬ (r.first ≤ a.toNat / 0x1000000 ∧ a.toNat / 0x1000000 ≤ r.last)) : rowOf (r :: m) a = rowOf m a :=
  List.find?_cons_of_neg (by simpa using h)

/-! ### The default table (rule R84) -/

/-- A row found stands in the table and covers the selector. -/
theorem rowOf_some {m : RegionMap} {a : Word} {r : RegionRow} (h : rowOf m a = some r) :
    r ∈ m ∧ r.first ≤ a.toNat / 0x1000000 ∧ a.toNat / 0x1000000 ≤ r.last :=
  ⟨List.mem_of_find?_eq_some h, by simpa using List.find?_some h⟩

/-- The selectors the default table leaves out: 1, and 16 up. -/
theorem selector_of_default_none {a : Word} (h : rowOf RegionMap.default a = none) :
    a.toNat / 0x1000000 = 1 ∨ 16 ≤ a.toNat / 0x1000000 := by
  simp only [rowOf, List.find?_eq_none, RegionMap.default, List.forall_mem_cons, Bool.and_eq_true, decide_eq_true_eq] at h
  omega

/-- The region of each selector under 16 (rule R84). -/
def defaultRegions : List Region :=
  [.bios, .unmapped, .ewram, .iwram, .io, .pal, .vram, .oam, .cartRom, .cartRom, .cartRom, .cartRom, .cartRom,
    .cartRom, .cartSram, .cartSram]

/-- Each row of the default table gives the selectors it covers their region and their class. -/
theorem default_row_selects : ∀ r ∈ RegionMap.default, ∀ sel < 16, r.first ≤ sel → sel ≤ r.last →
    r.region = defaultRegions.getD sel .unmapped ∧ r.slow = (sel == 2 || (8 ≤ sel && sel ≤ 15)) := by
  decide

theorem default_row_last : ∀ r ∈ RegionMap.default, r.last < 16 := by decide

theorem regionOf_default (a : Word) : regionOf RegionMap.default a =
    if a.toNat / 0x1000000 < 16 then defaultRegions.getD (a.toNat / 0x1000000) .unmapped else .unmapped := by
  cases h : rowOf RegionMap.default a with
  | none =>
    rw [regionOf_of_no_row h]
    rcases selector_of_default_none h with e | e
    · rw [e]; rfl
    · rw [if_neg (by omega)]
  | some r =>
    obtain ⟨hr, hf, hl⟩ := rowOf_some h
    have hlt := hl.trans_lt (default_row_last r hr)
    rw [regionOf_of_row h, if_pos hlt, (default_row_selects r hr _ hlt hf hl).1]

theorem isSlow_default (a : Word) : isSlow RegionMap.default a =
    (a.toNat / 0x1000000 == 2 || (8 ≤ a.toNat / 0x1000000 && a.toNat / 0x1000000 ≤ 15)) := by
  cases h : rowOf RegionMap.default a with
  | none =>
    rw [isSlow_of_no_row h]
    rcases selector_of_default_none h with e | e
    · rw [e]; rfl
    · simp; omega
  | some r =>
    obtain ⟨hr, hf, hl⟩ := rowOf_some h
    rw [isSlow_of_row h, (default_row_selects r hr _ (hl.trans_lt (default_row_last r hr)) hf hl).2]

/-- The low bits that are the offset in each region of the default table (rules R83, R84). -/
def defaultOffset (a : Word) : Region → Nat
  | .bios => (a.extractLsb' 0 24).toNat % 0x4000
  | .ewram => (a.extractLsb' 0 24).toNat % 0x40000
  | .iwram => (a.extractLsb' 0 24).toNat % 0x8000
  | .io | .pal | .oam => (a.extractLsb' 0 24).toNat % 0x400
  | .vram => (a.extractLsb' 0 24).toNat % 0x18000
  | .cartRom => (a.extractLsb' 0 25).toNat
  | .cartSram => (a.extractLsb' 0 16).toNat
  | .unmapped => 0

/-- Every base is a multiple of 2^24, and those of the cartridge windows of their sizes, so the offset is in the low bits. -/
theorem offsetOf_default {a : Word} (h : regionOf RegionMap.default a ≠ .unmapped) :
    offsetOf RegionMap.default a = defaultOffset a (regionOf RegionMap.default a) := by
  cases hr : rowOf RegionMap.default a with
  | none => exact absurd (regionOf_of_no_row hr) h
  | some r =>
    obtain ⟨hm, hf, hl⟩ := rowOf_some hr
    rw [offsetOf_of_row hr, regionOf_of_row hr]
    simp only [RegionMap.default, List.mem_cons, List.not_mem_nil, or_false] at hm
    rcases hm with rfl | rfl | rfl | rfl | rfl | rfl | rfl | rfl | rfl <;>
      simp only [RegionRow.base, RegionRow.size, defaultOffset, BitVec.extractLsb'_toNat, Nat.shiftRight_zero] at hf hl ⊢ <;>
      omega

/-- Settles O21: the rows are tried in order, and the default table is read off row by row. -/
theorem regionMap : Obligations.RegionMap := by
  unfold Obligations.RegionMap
  refine ⟨fun _ => ⟨rfl, rfl⟩, fun r m a => ?_, fun a => ?_⟩
  · rw [selector_toNat]
    dsimp only
    split
    · next h =>
      have hr := rowOf_cons_covered m h
      exact ⟨regionOf_of_row hr, offsetOf_of_row hr, isSlow_of_row hr⟩
    · next h =>
      have hr := rowOf_cons_not_covered m h
      simp only [regionOf, offsetOf, isSlow, hr, and_self]
  · rw [selector_toNat]
    refine ⟨regionOf_default a, isSlow_default a, fun h => ?_⟩
    rw [offsetOf_default h]
    cases regionOf RegionMap.default a <;> rfl

end Sys2Proof.Machine
end

section
/-! PROOF. The invariant holds at reset and every step keeps it (10_state.md rules R33, R40; 60_exceptions.md rule R366). -/

namespace Sys2Proof.Machine

open Sys2Proof.Cert

/-! ### Low bits of a status register -/

/-- Words with the same low bits have the same bit below. -/
theorem getLsbD_congr_of_low {p q : Word} {k i : Nat} (h : p.extractLsb' 0 k = q.extractLsb' 0 k) (hi : i < k) :
    p.getLsbD i = q.getLsbD i := by
  simpa [hi] using congrArg (·.getLsbD i) h

/-- Words with the same low bits have the same fields in them. -/
theorem extractLsb'_congr_of_low {p q : Word} {k lo n : Nat} (h : p.extractLsb' 0 k = q.extractLsb' 0 k) (hk : lo + n ≤ k) :
    p.extractLsb' lo n = q.extractLsb' lo n :=
  extractLsb'_congr fun _ _ hi => getLsbD_congr_of_low h (by omega)

/-! ### The legal mode (rule R33) -/

/-- Whichever way an instruction changes the CPSR, the mode stays a legal one. -/
theorem CpsrStep.validPsr {i : Instr} {s t : State} (h : CpsrStep i s t) (hv : validPsr s.cpsr = true) :
    validPsr t.cpsr = true := by
  cases h with
  | flags e => rwa [validPsr_congr (extractLsb'_congr_of_low e (by decide))]
  | bx _ e => rwa [e, validPsr_congr (psrMode_withT _ _)]
  | msr _ _ _ _ h => exact h
  | restore _ _ _ h => exact h
  | handler _ _ h => exact h
  | swi _ e => rw [e]; exact validPsr_exceptionPsr _ _

theorem step_validPsr {s t : State} (h : step s = .next t) : validPsr t.cpsr = true := by
  obtain ⟨-, hv, ⟨-, -, rfl⟩ | ⟨i, u, -, hu, rfl⟩⟩ := step_cases h
  · simp [State.takeIrq]
  · exact (exec_cpsr hu).validPsr hv

/-! ### The even pc (rule R40) -/

theorem step_evenPc {s t : State} (h : step s = .next t) (hs : EvenPc s) : EvenPc t := by
  obtain ⟨-, -, ⟨-, -, rfl⟩ | ⟨i, u, -, hu, rfl⟩⟩ := step_cases h
  · simp [EvenPc, State.takeIrq, ExceptionKind.vector]
  · exact (exec_evenPc hu hs : EvenPc u)

/-! ### The memory list and the pending set -/

/-- A byte write can only clear bits of IF (rule R97). -/
theorem State.write8_pending_le (s : State) (a : Word) (b : Byte) : ∃ v, (s.write8 a b).pending = s.pending &&& v := by
  have keep : ∃ v, s.pending = s.pending &&& v := ⟨BitVec.allOnes 16, BitVec.and_allOnes.symm⟩
  unfold State.write8
  cases regionOf s.params.regions a
  case io =>
    dsimp only
    split_ifs
    · exact keep
    · exact ⟨_, State.acknowledge_pending _ _⟩
    · exact ⟨_, State.acknowledge_pending _ _⟩
    · exact keep
  all_goals exact keep

/-- The part of the invariant that bus writes alone can touch: the canonical form, and IF bits 15:14 zero. -/
def BusInv (s : State) : Prop := s.mem.wf = true ∧ s.pending.extractLsb' 14 2 = 0#2

theorem BusInv.acknowledge {s : State} (h : BusInv s) (v : BitVec 16) : BusInv (s.acknowledge v) :=
  ⟨h.1, by rw [State.acknowledge_pending, BitVec.extractLsb'_and, h.2, BitVec.zero_and]⟩

theorem BusInv.write8 {s : State} (h : BusInv s) (a : Word) (b : Byte) : BusInv (s.write8 a b) := by
  obtain ⟨v, e⟩ := s.write8_pending_le a b
  exact ⟨State.write8_wf h.1 a b, by rw [e, BitVec.extractLsb'_and, h.2, BitVec.zero_and]⟩

theorem BusInv.write16 {s : State} (h : BusInv s) (a : Word) (v : Half) : BusInv (s.write16 a v) := by
  unfold State.write16
  dsimp only
  split
  · exact h.acknowledge v
  · exact (h.write8 _ _).write8 _ _

theorem step_busInv {s t : State} (h : step s = .next t) (hs : BusInv s) : BusInv t :=
  step_keeps (P := BusInv) (fun _ _ hm hp _ _ hk => by unfold BusInv at *; rwa [hm, hp])
    (fun _ a v hk => hk.write8 a v) (fun _ a v hk => hk.write16 a v) h hs

/-- Settles O12, part by part: the status register's, the pc's and the bus's share of the invariant. -/
theorem stepKeepsInvariant : Obligations.StepKeepsInvariant := by
  unfold Obligations.StepKeepsInvariant
  rintro s t ⟨hm, -, hpc, hp⟩ h
  obtain ⟨hm', hp'⟩ := step_busInv h ⟨hm, hp⟩
  exact ⟨hm', step_validPsr h, step_evenPc h hpc, hp'⟩

/-- Settles O11, by evaluating the reset state. -/
theorem resetMeetsInvariant : Obligations.ResetMeetsInvariant := by
  unfold Obligations.ResetMeetsInvariant
  exact ⟨Memory.wf_nil, by decide, by decide, by decide⟩

end Sys2Proof.Machine
end

section
/-! PROOF. Who may change the control bits: the MSR mask in User mode, and the ways into Thumb state (10_state.md rules R45,
R48; 47_psr_transfer.md rule R338; 60_exceptions.md rule R383). -/

namespace Sys2Proof.Machine

open Sys2Proof.Cert

/-! ### The bits an MSR merges (rules R338, R339, R341) -/

theorem getLsbD_byteMask (mask : BitVec 4) {k : Nat} (hk : k < 32) : (byteMask mask).getLsbD k = mask.getLsbD (k / 8) := by
  revert mask
  interval_cases k <;> decide

/-- In User mode the mask lets through bits 31:24 only. -/
theorem getLsbD_cpsrMask (s : State) (mask : BitVec 4) {k : Nat} (hk : k < 32) :
    (cpsrMask s mask).getLsbD k = decide (mask.getLsbD (k / 8) = true ∧ (s.mode = .usr → 24 ≤ k)) := by
  have top : ∀ j < 32, (0xFF000000#32).getLsbD j = decide (24 ≤ j) := by decide
  unfold cpsrMask
  split
  · next hu => simp [getLsbD_byteMask mask hk, top k hk, hu]
  · next hu => simp [getLsbD_byteMask mask hk, hu]

theorem getLsbD_mergeBits (old v bm : Word) {k : Nat} (hk : k < 32) :
    (mergeBits old v bm).getLsbD k = if bm.getLsbD k = true then v.getLsbD k else old.getLsbD k := by
  unfold mergeBits
  rw [BitVec.getLsbD_or, BitVec.getLsbD_and, BitVec.getLsbD_and, BitVec.getLsbD_not]
  cases bm.getLsbD k <;> simp [hk]

/-- The word an MSR merges is the one the statements describe. -/
theorem msrMerges_mergeBits (s : State) (mask : BitVec 4) (v : Word) :
    MsrMerges s mask v (mergeBits s.cpsr v (cpsrMask s mask)) := by
  intro k hk
  simp only [getLsbD_mergeBits _ _ _ hk, getLsbD_cpsrMask s mask hk, decide_eq_true_eq]

/-- In User mode an MSR leaves bits 23:0 as they were (rule R338). -/
theorem low_mergeBits_of_usr {s : State} (hu : s.mode = .usr) (mask : BitVec 4) (v : Word) :
    (mergeBits s.cpsr v (cpsrMask s mask)).extractLsb' 0 24 = s.cpsr.extractLsb' 0 24 :=
  extractLsb'_congr fun k _ hk => by
    rw [msrMerges_mergeBits s mask v k (by omega), if_neg fun h => absurd (h.2 hu) (by omega)]

/-! ### User mode (rules R48, R383) -/

/-- CPSR bits 23:6 and 4:0, the bits User mode may not write, agree. -/
def ControlKept (s t : State) : Prop :=
  t.cpsr.extractLsb' 6 18 = s.cpsr.extractLsb' 6 18 ∧ t.cpsr.extractLsb' 0 5 = s.cpsr.extractLsb' 0 5

theorem ControlKept.of_low24 {s t : State} (h : t.cpsr.extractLsb' 0 24 = s.cpsr.extractLsb' 0 24) : ControlKept s t :=
  ⟨extractLsb'_congr_of_low h (by decide), extractLsb'_congr_of_low h (by decide)⟩

theorem ControlKept.of_withT {s t : State} {b : Bool} (h : t.cpsr = withT s.cpsr b) : ControlKept s t := by
  constructor <;> rw [h] <;> exact extractLsb'_congr fun k _ _ => by rw [getLsbD_withT, if_neg (by omega)]

theorem State.mode_of_mode? {s : State} {m : Mode} (h : s.mode? = some m) : s.mode = m := mode_of_ofBits h

/-- Of the ways an instruction changes the CPSR, User mode leaves the flags, T and the software interrupt. -/
theorem CpsrStep.controlKept_of_usr {i : Instr} {s t : State} (h : CpsrStep i s t) (hu : s.mode = .usr) :
    IsSwi i ∨ ControlKept s t := by
  cases h with
  | flags e => exact .inr (.of_low24 (extractLsb'_congr_of_low e (by decide)))
  | bx _ e => exact .inr (.of_withT e)
  | msr mask v _ e => exact .inr (.of_low24 (by rw [e]; exact low_mergeBits_of_usr hu mask v))
  | restore _ hm => rw [hu] at hm; cases hm
  | handler hi => exact .inl hi
  | swi hi => exact .inl hi

/-- Settles O13: an instruction that is no software interrupt keeps the control bits by its way of changing the CPSR, and the
SPSRs because User mode owns none. -/
theorem userModeKeepsControlBits : Obligations.UserModeKeepsControlBits := by
  unfold Obligations.UserModeKeepsControlBits
  intro s t hm h
  have hu : s.afterFetch.mode = .usr := State.mode_of_mode? (s := s.afterFetch) hm
  obtain ⟨-, -, ⟨hi, hl, -⟩ | ⟨i, u, hd, he, rfl⟩⟩ := step_cases h
  · exact .inl ⟨hi, hl⟩
  · right
    rcases (exec_cpsr he).controlKept_of_usr hu with hswi | ⟨hhigh, hlow⟩
    · exact .inl ⟨i, hd, hswi⟩
    · rcases exec_spsr he with hs | hswi | hs
      · refine .inr ⟨hhigh, hlow, fun m => ?_⟩
        calc u.endStep.spsrOf m = u.spsrOf m := State.spsrOf_congr rfl rfl rfl rfl rfl m
          _ = s.afterFetch.spsrOf m := hs m
          _ = s.spsrOf m := State.spsrOf_congr rfl rfl rfl rfl rfl m
      · exact .inl ⟨i, hd, hswi⟩
      · rw [hu] at hs; cases hs

/-! ### Thumb state (rules R45, R319) -/

/-- The ways an instruction of ARM state can set T. -/
theorem CpsrStep.thumb {i : Instr} {s t : State} (h : CpsrStep i s t) (hs : psrT s.cpsr = false) (ht : psrT t.cpsr = true) :
    IsBx i ∨ (IsMsrCpsr i ∧ s.mode ≠ .usr) ∨ (IsRestore i ∧ psrT (s.spsrOf s.mode) = true) ∨
      (IsSwi i ∧ s.params.swiHandler = true) := by
  have changed : psrT t.cpsr ≠ psrT s.cpsr := by rw [hs, ht]; decide
  cases h with
  | flags e => exact absurd (getLsbD_congr_of_low e (by decide)) changed
  | bx hi => exact .inl hi
  | msr mask v hi e =>
    refine .inr (.inl ⟨hi, fun hu => changed ?_⟩)
    rw [e]
    exact getLsbD_congr_of_low (low_mergeBits_of_usr hu mask v) (by decide)
  | restore hi _ e => exact .inr (.inr (.inl ⟨hi, e ▸ ht⟩))
  | handler hi hh => exact .inr (.inr (.inr ⟨hi, hh⟩))
  | swi _ e => rw [e, psrT_exceptionPsr] at ht; cases ht

/-- Settles O14: an IRQ clears T, and an instruction sets it in one of four ways. -/
theorem thumbEntryOnlyByFour : Obligations.ThumbEntryOnlyByFour := by
  unfold Obligations.ThumbEntryOnlyByFour
  intro s t h ht
  obtain ⟨hs, -, ⟨-, -, rfl⟩ | ⟨i, u, hd, he, rfl⟩⟩ := step_cases h
  · simp [State.takeIrq] at ht
  · refine ⟨i, hd, ?_⟩
    have hspsr : s.afterFetch.spsrOf s.mode = s.spsrOf s.mode := State.spsrOf_congr rfl rfl rfl rfl rfl _
    rw [← hspsr]
    exact (exec_cpsr he).thumb hs ht

end Sys2Proof.Machine
end

section
/-! PROOF. The refusals of an instruction, each with its cause (60_exceptions.md rule R364), and what a present system-call
handler does (48_swi.md rules R351, R352). -/

namespace Sys2Proof.Machine

open Sys2Proof.Cert

/-! ### Refusals of the shared operations -/

/-- Why an instruction is refused (rules R33, R180, R340, R351; log 8). -/
inductive RefusedBy (i : Instr) (s : State) : Refusal → Prop where
  | handlerCycles (n) : IsSwiOf i n → s.params.swiHandler = true → (Config.swiResult s.draws n).cycles < 0 →
      RefusedBy i s .badHandlerCycles
  | handlerMode (n) : IsSwiOf i n → s.params.swiHandler = true → 0 ≤ (Config.swiResult s.draws n).cycles →
      validPsr (Config.swiResult s.draws n).cpsr = false → RefusedBy i s .invalidMode
  | msr (mask v) : IsMsrCpsrOf s i mask v → validPsr (mergeBits s.cpsr v (cpsrMask s mask)) = false →
      RefusedBy i s .invalidMode
  | restore : IsRestore i → s.mode.hasSpsr = true → validPsr (s.spsrOf s.mode) = false → RefusedBy i s .invalidMode

theorem RefusedBy.of_begin {i : Instr} {s : State} {r : Refusal} (h : RefusedBy i s.begin r) : RefusedBy i s r := by
  cases h with
  | handlerCycles n hi hh hc => exact .handlerCycles n hi hh hc
  | handlerMode n hi hh hc hv => exact .handlerMode n hi hh hc hv
  | msr mask v hi hv => exact .msr mask v hi hv
  | restore hi hm hv => exact .restore hi hm (by rwa [State.begin_spsrOf] at hv)

theorem State.writeR_spsrOf (s : State) (i : Reg) (v : Word) (m : Mode) : (s.writeR i v).spsrOf m = s.spsrOf m :=
  State.spsrOf_congr (by simp) (by simp) (by simp) (by simp) (by simp) m

/-- A restore is refused for the saved status of the mode alone, whatever the instruction wrote before it. -/
theorem RefusedBy.restoreCpsr {i : Instr} {s u : State} {r : Refusal} (hi : IsRestore i) (hm : u.mode = s.mode)
    (hs : u.spsrOf s.mode = s.spsrOf s.mode) (h : u.restoreCpsr = .refused r) : RefusedBy i s r := by
  rcases u.restoreCpsr_cases with ⟨-, e⟩ | ⟨-, -, e⟩ | ⟨ho, hv, e⟩ <;> rw [e] at h <;> cases h
  rw [hm] at ho hv
  rw [hs] at hv
  exact .restore hi ho hv

theorem RefusedBy.dpWrite {i : Instr} {s : State} {sf : Bool} {rd : Reg} {o : Operand2} {a : AluOut} {r : Refusal}
    (hi : sf = true → rd = 15 → IsRestore i) (h : dpWrite s sf rd o a = .refused r) : RefusedBy i s r := by
  unfold Machine.dpWrite at h
  dsimp only at h
  split at h
  · next hsf =>
    split at h
    · next hrd =>
      exact .restoreCpsr (hi hsf hrd.1) (State.writeR_mode _ _ _) (State.writeR_spsrOf _ _ _ _) (mapNext_refused.mp h)
    · cases h
  · cases h

theorem RefusedBy.msrWrite {i : Instr} {s : State} {psr : PsrSel} {mask : BitVec 4} {v : Word} {r : Refusal}
    (hi : psr = .cpsr → IsMsrCpsrOf s i mask v) (h : msrWrite s psr mask v = .refused r) : RefusedBy i s r := by
  cases psr with
  | spsr => cases h
  | cpsr =>
    dsimp only [Machine.msrWrite] at h
    split at h
    · cases h
    · next hv => cases h; exact .msr mask v (hi rfl) (by simpa using hv)

/-- A present handler's answer, applied (rule R351). -/
def State.handled (s : State) (h : HandlerResult) : State :=
  { s.applyHandler h with pc := s.pc + 4#32, cycles := h.cycles.toNat }

/-- The three outcomes of a present handler's answer (rule R351; log 8). -/
theorem swiHandled_cases (s : State) (n : BitVec 8) :
    ((Config.swiResult s.draws n).cycles < 0 ∧ swiHandled s n = .refused .badHandlerCycles) ∨
    (0 ≤ (Config.swiResult s.draws n).cycles ∧ validPsr (Config.swiResult s.draws n).cpsr = false ∧
      swiHandled s n = .refused .invalidMode) ∨
    (0 ≤ (Config.swiResult s.draws n).cycles ∧ validPsr (Config.swiResult s.draws n).cpsr = true ∧
      swiHandled s n = .next (s.handled (Config.swiResult s.draws n))) := by
  unfold swiHandled
  dsimp only
  split
  · next hc => exact .inl ⟨hc, rfl⟩
  · next hc =>
    split
    · next hv => exact .inr (.inr ⟨by omega, hv, rfl⟩)
    · next hv => exact .inr (.inl ⟨by omega, by simpa using hv, rfl⟩)

theorem RefusedBy.softwareInterrupt {i : Instr} {s : State} {n : BitVec 8} {r : Refusal} (hi : IsSwiOf i n)
    (h : softwareInterrupt s n = .refused r) : RefusedBy i s r := by
  unfold Machine.softwareInterrupt at h
  split at h
  · next hh =>
    rcases swiHandled_cases s n with ⟨hc, e⟩ | ⟨hc, hv, e⟩ | ⟨-, -, e⟩ <;> rw [e] at h <;> cases h
    · exact .handlerCycles n hi hh hc
    · exact .handlerMode n hi hh hc hv
  · cases h

/-! ### Refusals of an instruction -/

/-- An instruction is refused under its condition, and for one of the causes. -/
theorem exec_refused {i : Instr} {s : State} {r : Refusal} (h : exec i s = .refused r) :
    condPassed i.cond s.cpsr = true ∧ RefusedBy i s r := by
  have body : ∀ {c f}, conditionally c s f = .refused r → (f s.begin = .refused r → RefusedBy i s.begin r) →
      condPassed c s.cpsr = true ∧ RefusedBy i s r := fun h k =>
    let ⟨hc, hf⟩ := conditionally_refused h
    ⟨hc, (k hf).of_begin⟩
  cases i <;> dsimp only [exec] at h
  case and c sf rn rd o | eor c sf rn rd o | sub c sf rn rd o | rsb c sf rn rd o | add c sf rn rd o | adc c sf rn rd o |
      sbc c sf rn rd o | rsc c sf rn rd o | orr c sf rn rd o | bic c sf rn rd o =>
    exact body h (.dpWrite fun hsf hrd => .inl ⟨c, rn, o, by simp [hsf, hrd]⟩)
  case mov c sf rd o | mvn c sf rd o =>
    exact body h (.dpWrite fun hsf hrd => .inl ⟨c, 0, o, by simp [hsf, hrd]⟩)
  case msrReg c psr mask rm =>
    exact body h (.msrWrite fun hp => .inl ⟨c, rm, by rw [hp], rfl⟩)
  case msrImm c psr mask rot b =>
    exact body h (.msrWrite fun hp => .inr ⟨c, rot, b, by rw [hp], rfl⟩)
  case swi c n | swiCpC c n | swiCpD c n | swiCpE c n =>
    exact body h (.softwareInterrupt ⟨c, by simp⟩)
  case ldm c m sb wb rn list =>
    refine body h fun h => ?_
    dsimp only at h
    split at h
    · cases h
    · split at h
      · next hb =>
        simp only [Bool.and_eq_true] at hb
        refine .restoreCpsr (.inr ⟨c, m, wb, rn, list, by rw [hb.1], hb.2⟩) ?_ ?_ (mapNext_refused.mp h)
        · split <;> simp
        · split <;> simp [State.writeR_spsrOf]
      · cases h
  case stm =>
    refine body h fun h => ?_
    dsimp only at h
    split at h <;> cases h
  -- The work of every other instruction ends in a next state.
  all_goals exact body h nofun

/-- Settles O10: a refused instruction has one of the causes, and the word an MSR merges is the statement's. -/
theorem onlySpecRefusals : Obligations.OnlySpecRefusals := by
  unfold Obligations.OnlySpecRefusals
  intro i s r h
  obtain ⟨hc, hr⟩ := exec_refused h
  refine ⟨hc, ?_⟩
  cases hr with
  | handlerCycles n hi hh hn => exact .inl ⟨rfl, hh, n, hi, hn⟩
  | handlerMode n hi hh hn hv => exact .inr ⟨rfl, .inl ⟨hh, n, hi, hn, hv⟩⟩
  | msr mask v hi hv => exact .inr ⟨rfl, .inr (.inl ⟨mask, v, hi, _, msrMerges_mergeBits s mask v, hv⟩)⟩
  | restore hi hm hv => exact .inr ⟨rfl, .inr (.inr ⟨hi, hm, hv⟩)⟩

/-! ### The handler's effect (rule R352) -/

/-- The handler's stores through the bus, in order. -/
def State.handlerStores (s : State) (h : HandlerResult) : State := h.stores.foldl (fun u x => u.write8 x.1 x.2) s

/-- The stores keep every field a byte write keeps. -/
theorem State.handlerStores_field {α : Type} (f : State → α) (hf : ∀ s a b, f (s.write8 a b) = f s) (s : State)
    (h : HandlerResult) : f (s.handlerStores h) = f s :=
  foldl_write8 (P := fun u => f u = f s) (fun u a b hu => (hf u a b).trans hu) h.stores s rfl

theorem State.begin_handlerStores (s : State) (h : HandlerResult) : s.begin.handlerStores h = (s.handlerStores h).begin := by
  unfold State.handlerStores
  generalize h.stores = l
  induction l generalizing s with
  | nil => rfl
  | cons x l ih => rw [List.foldl_cons, List.foldl_cons, State.begin_write8, ih]

@[simp] theorem State.handlerStores_regs (s : State) (h : HandlerResult) : (s.handlerStores h).regs = s.regs :=
  s.handlerStores_field State.regs State.write8_regs h
@[simp] theorem State.handlerStores_refill (s : State) (h : HandlerResult) : (s.handlerStores h).refill = s.refill :=
  s.handlerStores_field State.refill State.write8_refill h
@[simp] theorem State.handlerStores_params (s : State) (h : HandlerResult) : (s.handlerStores h).params = s.params :=
  s.handlerStores_field State.params State.write8_params h
@[simp] theorem State.handlerStores_irqLine (s : State) (h : HandlerResult) : (s.handlerStores h).irqLine = s.irqLine :=
  s.handlerStores_field State.irqLine State.write8_irqLine h
@[simp] theorem State.handlerStores_draws (s : State) (h : HandlerResult) : (s.handlerStores h).draws = s.draws :=
  s.handlerStores_field State.draws State.write8_draws h

/-- The handler's effect, by its stores and the view it was called in. -/
theorem State.applyHandler_eq (s : State) (h : HandlerResult) : s.applyHandler h =
    { (s.handlerStores h).setView s.mode h.regs with
      cpsr := h.cpsr, spsrFiq := h.spsrFiq, spsrIrq := h.spsrIrq, spsrSvc := h.spsrSvc, spsrAbt := h.spsrAbt,
      spsrUnd := h.spsrUnd } := rfl

theorem State.handled_regs (s : State) (h : HandlerResult) :
    (s.handled h).regs = ((s.handlerStores h).setView s.mode h.regs).regs := by
  simp only [State.handled, State.applyHandler_eq]

theorem State.handled_refill (s : State) (h : HandlerResult) : (s.handled h).refill = s.refill := by
  simp [State.handled, State.applyHandler_eq]

/-- Beside registers and status registers, the handler's effect is that of its stores. -/
theorem SameStore.handled (s : State) (h : HandlerResult) : SameStore (s.handlerStores h) (s.handled h) := by
  simp [SameStore, State.handled, State.applyHandler_eq]

/-- The registers of the view are the handler's. -/
theorem State.reg_handled (s : State) (h : HandlerResult) (k : Fin 15) : (s.handled h).reg s.mode k.castSucc = h.regs[k] := by
  obtain ⟨p, hp⟩ := view_isSome (m := s.mode) (i := k.castSucc) (by revert k; decide)
  rw [State.reg_of_view hp, State.handled_regs, State.get_setView_same _ _ _ k hp]

/-- The registers outside the view are as before. -/
theorem State.get_handled_ne (s : State) (h : HandlerResult) {p : PhysReg} (hp : ∀ k : Reg, view s.mode k ≠ some p) :
    (s.handled h).regs.get p = s.regs.get p := by
  rw [State.handled_regs, State.get_setView_ne _ _ _ hp, State.handlerStores_regs]

/-- The four software-interrupt instructions are one call of a present handler (rule R354; 30_encoding.md rule R158). -/
theorem exec_swi_handled {s : State} {c : Cond} (hc : condPassed c s.cpsr = true) (hh : s.params.swiHandler = true)
    (n : BitVec 8) : ∀ i ∈ [Instr.swi c n, Instr.swiCpC c n, Instr.swiCpD c n, Instr.swiCpE c n],
      exec i s = swiHandled s.begin n := by
  have call : conditionally c s (softwareInterrupt · n) = swiHandled s.begin n :=
    (conditionally_passed hc _).trans (if_pos hh)
  exact List.forall_mem_cons.mpr ⟨call, List.forall_mem_cons.mpr ⟨call, List.forall_mem_cons.mpr ⟨call,
    List.forall_mem_singleton.mpr call⟩⟩⟩

/-- Settles O59, by the three outcomes of the handler's answer. -/
theorem softwareInterruptHandled : Obligations.SoftwareInterruptHandled := by
  unfold Obligations.SoftwareInterruptHandled
  intro s c n hc hh
  dsimp only
  intro i hi
  rw [exec_swi_handled hc hh n i hi]
  have outcomes := swiHandled_cases s.begin n
  rw [State.begin_draws] at outcomes
  generalize Config.swiResult s.draws n = h at outcomes ⊢
  rcases outcomes with ⟨hneg, e⟩ | ⟨hpos, hv, e⟩ | ⟨hpos, hv, e⟩
  · rwa [if_pos hneg]
  · rwa [if_neg (not_lt.mpr hpos), if_pos hv]
  · rw [if_neg (not_lt.mpr hpos), if_neg (by rw [hv]; decide)]
    have store : SameStore (s.handlerStores h) (s.begin.handled h) := by
      refine SameStore.trans ?_ (SameStore.handled s.begin h)
      rw [State.begin_handlerStores]
      exact ⟨rfl, rfl, rfl, rfl, rfl, rfl⟩
    obtain ⟨hmem, hpend, hcalls, hparams, hirq, hdraws⟩ := store
    refine ⟨s.begin.handled h, e, rfl, s.begin.handled_refill h, Int.toNat_of_nonneg hpos, rfl, rfl, rfl, rfl, rfl, rfl,
      s.begin.reg_handled h, fun _ hp => s.begin.get_handled_ne h hp,
      ⟨State.read8_congr hmem hpend hdraws hparams, hmem, hpend, hcalls⟩, ?_⟩
    exact ⟨hparams.trans (s.handlerStores_params h), hirq.trans (s.handlerStores_irqLine h),
      hdraws.trans (s.handlerStores_draws h)⟩

end Sys2Proof.Machine
end

section
/-! PROOF. The register view of each mode, the independence of the banks, and the registers at reset (10_state.md rules R34,
R35, R52 to R55). -/

namespace Sys2Proof.Machine

/-! ### The registers at reset -/

theorem RegFile.get_zero (p : PhysReg) : RegFile.zero.get p = 0 := by
  cases p <;> exact Vector.getElem_replicate _

/-- Settles O16, register by register and mode by mode. -/
theorem resetRegisters : Obligations.ResetRegisters := by
  unfold Obligations.ResetRegisters
  exact ⟨RegFile.get_zero, rfl, fun m => by cases m <;> rfl, rfl⟩

/-! ### The view table -/

/-- R0 to R7 are shared by every mode. -/
theorem view_low (m : Mode) (i : Fin 8) : view m ⟨i.val, by omega⟩ = some (.low i) := by
  simp [view]

/-- R8 to R12 have a bank of their own in FIQ mode alone. -/
theorem view_mid (m : Mode) (i : Fin 5) : view m ⟨8 + i.val, by omega⟩ =
    some (if m = .fiq then .fiq ⟨i.val, by omega⟩ else .usr ⟨i.val, by omega⟩) := by
  revert i
  cases m <;> decide

/-- R13 and R14 are those of the mode's own bank. -/
theorem view_high (m : Mode) (i : Fin 2) : view m ⟨13 + i.val, by omega⟩ = some (viewHigh m i) := by
  revert i
  cases m <;> decide

/-- Settles O18: the table by its three ranges and R15, and the operand read and register write through the view. -/
theorem viewTable : Obligations.ViewTable := by
  unfold Obligations.ViewTable
  refine ⟨view_low, view_mid, fun i => ?_, view_fifteen, fun s m i p v hm hp => ?_⟩
  · exact ⟨view_high .usr i, view_high .sys i, view_high .fiq i, view_high .irq i, view_high .svc i, view_high .abt i,
      view_high .und i⟩
  · have hmode : s.mode = m := State.mode_of_mode? hm
    have hi : i ≠ 15 := fun e => by rw [e, view_fifteen] at hp; cases hp
    rw [State.readR_of_ne s hi, State.writeR_of_ne s hi, hmode]
    exact ⟨State.reg_of_view hp, State.setReg_of_view hp v⟩

/-- Settles O19, by the register file's read after a write. -/
theorem banksAreIndependent : Obligations.BanksAreIndependent := by
  unfold Obligations.BanksAreIndependent
  intro s m i p v hp
  rw [State.setReg_of_view hp]
  exact ⟨RegFile.get_set_same _ _ _, fun q hq => RegFile.get_set_ne _ hq.symm v⟩

end Sys2Proof.Machine
end

section
/-! PROOF. Which addresses one byte has, and that nothing is at an unmapped one (20_memory.md rules R83, R85). -/

namespace Sys2Proof.Machine

/-! ### Addresses of one byte (rule R83) -/

/-- Region and offset give the store address; `physOf_inj` is the converse. -/
theorem physOf_congr {m : RegionMap} {a b : Word} (hr : regionOf m a = regionOf m b) (ho : offsetOf m a = offsetOf m b) :
    physOf m a = physOf m b := by
  unfold physOf
  rw [hr, ho]

/-- Settles O22: the offset is the row's, and a store address decides what a byte access does. -/
theorem mirrorsAlias : Obligations.MirrorsAlias := by
  unfold Obligations.MirrorsAlias
  refine ⟨fun m a r h => offsetOf_of_row h, fun s a b v hr ho => ?_⟩
  have h := physOf_congr hr ho
  exact ⟨s.read8_of_phys h, s.write8_of_phys h v⟩

/-! ### The region of the bytes of a wide access (rules R82, R100) -/

/-- The region depends on the selector alone. -/
theorem regionOf_congr {m : RegionMap} {a b : Word} (h : a.toNat / 0x1000000 = b.toNat / 0x1000000) :
    regionOf m a = regionOf m b := by
  unfold regionOf
  rw [rowOf_congr m h]

/-- Unlike its offset (`word_byte`), the region of a byte of an aligned word is known at unmapped addresses too. -/
theorem regionOf_alignWord_add (m : RegionMap) (a : Word) {k : Word} (hk : k.toNat < 4) :
    regionOf m (alignWord a + k) = regionOf m a := by
  have ha := a.isLt
  refine regionOf_congr ?_
  rw [BitVec.toNat_add, alignWord_toNat]
  omega

theorem regionOf_alignWord (m : RegionMap) (a : Word) : regionOf m (alignWord a) = regionOf m a := by
  simpa using regionOf_alignWord_add m a (k := 0#32) (by decide)

theorem regionOf_alignHalf_add_one (m : RegionMap) (a : Word) : regionOf m (alignHalf a + 1) = regionOf m a := by
  have ha := a.isLt
  refine regionOf_congr ?_
  rw [BitVec.toNat_add, alignHalf_toNat, show (1 : Word).toNat = 1 from rfl]
  omega

/-! ### Halfword accesses at the IF field and elsewhere (rules R97, R100) -/

theorem isIfHalf_iff (m : RegionMap) (a : Word) : isIfHalf m a = true ↔ regionOf m a = .io ∧ offsetOf m a = 0x202 := by
  simp [isIfHalf]

theorem State.read16_if {s : State} {a : Word} (h : isIfHalf s.params.regions (alignHalf a) = true) :
    s.read16 a = s.pending := if_pos h

theorem State.read16_bytes {s : State} {a : Word} (h : ¬ isIfHalf s.params.regions (alignHalf a) = true) :
    s.read16 a = s.read8 (alignHalf a + 1) ++ s.read8 (alignHalf a) := if_neg h

theorem State.write16_if {s : State} {a : Word} (h : isIfHalf s.params.regions (alignHalf a) = true) (v : Half) :
    s.write16 a v = s.acknowledge v := if_pos h

theorem State.write16_bytes {s : State} {a : Word} (h : ¬ isIfHalf s.params.regions (alignHalf a) = true) (v : Half) :
    s.write16 a v = (s.write8 (alignHalf a) (v.extractLsb' 0 8)).write8 (alignHalf a + 1) (v.extractLsb' 8 8) := if_neg h

/-- The IF field is in the IO region. -/
theorem not_isIfHalf {m : RegionMap} {a : Word} (h : regionOf m a ≠ .io) : ¬ isIfHalf m (alignHalf a) = true := by
  rw [isIfHalf_iff, half_region]
  exact fun hif => h hif.1

/-! ### Unmapped addresses (rule R85) -/

theorem State.read8_unmapped {s : State} {a : Word} (h : regionOf s.params.regions a = .unmapped) : s.read8 a = 0xFF := by
  simp only [State.read8, h]

theorem State.write8_unmapped {s : State} {a : Word} (h : regionOf s.params.regions a = .unmapped) (v : Byte) :
    s.write8 a v = s := by
  simp only [State.write8, h]

/-- Settles O23: the bytes of a wide access at an unmapped address are unmapped, and none is a byte of IF. -/
theorem unmappedAccess : Obligations.UnmappedAccess := by
  unfold Obligations.UnmappedAccess
  intro s a h
  have hif := not_isIfHalf (m := s.params.regions) (a := a) (by rw [h]; decide)
  have half0 := (half_region _ a).trans h
  have half1 := (regionOf_alignHalf_add_one _ a).trans h
  have word0 := (regionOf_alignWord _ a).trans h
  have word1 := (regionOf_alignWord_add _ a (k := 1) (by decide)).trans h
  have word2 := (regionOf_alignWord_add _ a (k := 2) (by decide)).trans h
  have word3 := (regionOf_alignWord_add _ a (k := 3) (by decide)).trans h
  refine ⟨State.read8_unmapped h, ?_, ?_, State.write8_unmapped h, fun v => ?_, fun v => ?_⟩
  · rw [State.read16_bytes hif, State.read8_unmapped half0, State.read8_unmapped half1]
    rfl
  · simp only [State.read32, State.read8_unmapped word0, State.read8_unmapped word1, State.read8_unmapped word2,
      State.read8_unmapped word3]
    rfl
  · rw [State.write16_bytes hif, State.write8_unmapped half0, State.write8_unmapped half1]
  · simp only [State.write32, State.write8_unmapped word0, State.write8_unmapped word1, State.write8_unmapped word2,
      State.write8_unmapped word3]

end Sys2Proof.Machine
end

section
/-! PROOF. Byte accesses that reach a store, and byte writes that are handed on (20_memory.md rules R88 to R95). -/

namespace Sys2Proof

theorem Region.plain_iff_mem (r : Region) : r.plain = true ↔ r ∈ [Region.ewram, .iwram, .pal, .vram, .oam] := by
  cases r <;> decide

end Sys2Proof

namespace Sys2Proof.Machine

/-! ### Stored bytes (rules R88, R89, R96) -/

/-- An offset of the IO region that is neither in the DMA windows nor a byte of IF (rule R89). -/
def GenericIoOffset (o : Nat) : Prop := (o < 0x0B0 ∨ 0x0DF < o) ∧ o ≠ 0x202 ∧ o ≠ 0x203

/-- An address at which a byte write is a store: in a plain region, or at a generic IO offset (rules R88, R89). -/
def StoreAddr (m : RegionMap) (a : Word) : Prop :=
  (regionOf m a).plain = true ∨ (regionOf m a = .io ∧ GenericIoOffset (offsetOf m a))

theorem StoreAddr.isStored {m : RegionMap} {a : Word} (h : StoreAddr m a) : isStored (physOf m a) = true := by
  rcases h with hp | ⟨hr, -, hlow, hhigh⟩
  · exact isStored_of_plain hp
  · have hlt := offsetOf_lt m a
    rw [isStored_iff]
    simp only [physOf, hr, Region.block, Region.number]
    omega

theorem StoreAddr.read8 {s : State} {a : Word} (h : StoreAddr s.params.regions a) :
    s.read8 a = s.storedByte (physOf s.params.regions a) := by
  rcases h with hp | ⟨hr, -, hlow, hhigh⟩
  · exact State.read8_plain hp
  · simp only [State.read8, hr, if_neg hlow, if_neg hhigh]

theorem StoreAddr.write8 {s : State} {a : Word} (h : StoreAddr s.params.regions a) (v : Byte) :
    s.write8 a v = s.store (physOf s.params.regions a) v := by
  rcases h with hp | ⟨hr, hdma, hlow, hhigh⟩
  · exact State.write8_plain hp v
  · have hdma : ¬ (0x0B0 ≤ offsetOf s.params.regions a ∧ offsetOf s.params.regions a ≤ 0x0DF) := by omega
    simp only [State.write8, hr, if_neg hdma, if_neg hlow, if_neg hhigh]

/-- Settles O24: a byte access there is an access to the store, which gives back what it was given. -/
theorem plainByteStore : Obligations.PlainByteStore := by
  unfold Obligations.PlainByteStore
  intro s a v hm h
  have ha : StoreAddr s.params.regions a := h.imp_left (Region.plain_iff_mem _).mpr
  have ha' : StoreAddr (s.write8 a v).params.regions a := by rwa [State.write8_params]
  refine ⟨ha.read8, ?_, fun b hb => s.read8_write8_ne hb.symm v, by rw [ha.write8]; rfl⟩
  rw [ha'.read8, State.write8_params, ha.write8, State.storedByte_store_same hm ha.isStored]

/-! ### Bytes handed on (rules R90, R91, R95) -/

/-- Handing a byte on changes no byte (log 6). -/
@[simp] theorem State.read8_forward (s : State) (c : Call) (a : Word) : (s.forward c).read8 a = s.read8 a :=
  State.read8_congr rfl rfl rfl rfl a

theorem State.read8_dmaWindow {s : State} {a : Word} (hr : regionOf s.params.regions a = .io)
    (hhi : offsetOf s.params.regions a ≤ 0x0DF) : s.read8 a = s.storedByte (physOf s.params.regions a) := by
  simp only [State.read8, hr, if_neg (show ¬ offsetOf s.params.regions a = 0x202 by omega),
    if_neg (show ¬ offsetOf s.params.regions a = 0x203 by omega)]

theorem State.write8_dmaWindow {s : State} {a : Word} (hr : regionOf s.params.regions a = .io)
    (hlo : 0x0B0 ≤ offsetOf s.params.regions a) (hhi : offsetOf s.params.regions a ≤ 0x0DF) (v : Byte) :
    s.write8 a v = s.forward (.dmaWrite (offsetOf s.params.regions a) v) := by
  simp only [State.write8, hr, if_pos (And.intro hlo hhi)]

theorem State.write8_cartRom {s : State} {a : Word} (hr : regionOf s.params.regions a = .cartRom) (v : Byte) :
    s.write8 a v = s.forward (.cartWrite .rom (offsetOf s.params.regions a) v) := by
  simp only [State.write8, hr]

theorem State.write8_cartSram {s : State} {a : Word} (hr : regionOf s.params.regions a = .cartSram) (v : Byte) :
    s.write8 a v = s.forward (.cartWrite .sram (offsetOf s.params.regions a) v) := by
  simp only [State.write8, hr]

/-- Settles O25: the write is a call, which changes no byte. -/
theorem dmaWindowForwards : Obligations.DmaWindowForwards := by
  unfold Obligations.DmaWindowForwards
  intro s a v o hr hlo hhi
  rw [State.write8_dmaWindow hr hlo hhi]
  exact ⟨rfl, s.read8_forward _ a, State.read8_dmaWindow hr hhi⟩

/-- Settles O60: in either window the write is a call, which changes no byte. -/
theorem cartridgeWindowForwards : Obligations.CartridgeWindowForwards := by
  unfold Obligations.CartridgeWindowForwards
  refine fun s a v => ⟨fun hr => ?_, fun hr => ?_⟩
  · rw [State.write8_cartRom hr]
    exact ⟨rfl, s.read8_forward _⟩
  · rw [State.write8_cartSram hr]
    exact ⟨rfl, s.read8_forward _⟩

end Sys2Proof.Machine
end

section
/-! PROOF. Wide accesses as byte accesses, and reads of every width after a word store (20_memory.md rules R100, R102). -/

namespace Sys2Proof.Machine

/-! ### Little-endian order (rule R100) -/

theorem append_eq_or_shiftLeft (b1 b0 : Byte) : b1 ++ b0 = b0.setWidth 16 ||| b1.setWidth 16 <<< 8 := by
  rw [← BitVec.setWidth_eq (b1 ++ b0), BitVec.setWidth_append_eq_shiftLeft_setWidth_or]
  exact BitVec.or_comm _ _

theorem or4_reverse {w : Nat} (p q r t : BitVec w) : p ||| q ||| r ||| t = t ||| r ||| q ||| p := by
  ac_rfl

theorem append4_eq_or_shiftLeft (b3 b2 b1 b0 : Byte) : b3 ++ b2 ++ b1 ++ b0 =
    b0.setWidth 32 ||| b1.setWidth 32 <<< 8 ||| b2.setWidth 32 <<< 16 ||| b3.setWidth 32 <<< 24 := by
  rw [← BitVec.setWidth_eq (b3 ++ b2 ++ b1 ++ b0), BitVec.setWidth_append_append_append_eq_shiftLeft_setWidth_or]
  exact or4_reverse _ _ _ _

/-- Settles O27: the model's wide accesses are the byte accesses, a concatenation the disjunction of shifted bytes. -/
theorem wideAccessIsBytes : Obligations.WideAccessIsBytes := by
  unfold Obligations.WideAccessIsBytes
  intro s a h b
  refine ⟨?_, append4_eq_or_shiftLeft _ _ _ _, fun v => ?_, fun v => rfl⟩
  · rw [← append_eq_or_shiftLeft]
    split
    · next hif => exact State.read16_if ((isIfHalf_iff _ _).mpr hif)
    · next hif => exact State.read16_bytes (mt (isIfHalf_iff _ _).mp hif)
  · split
    · next hif => exact State.write16_if ((isIfHalf_iff _ _).mpr hif) v
    · next hif => exact State.write16_bytes (mt (isIfHalf_iff _ _).mp hif) v

/-! ### The parts of a word (rule R102) -/

/-- Each part of a concatenation of four bytes. -/
theorem bytes_of_append (b3 b2 b1 b0 : Byte) :
    b0 = (b3 ++ b2 ++ b1 ++ b0).extractLsb' 0 8 ∧ b1 = (b3 ++ b2 ++ b1 ++ b0).extractLsb' 8 8 ∧
    b2 = (b3 ++ b2 ++ b1 ++ b0).extractLsb' 16 8 ∧ b3 = (b3 ++ b2 ++ b1 ++ b0).extractLsb' 24 8 := by
  have drop {w : Nat} (x : BitVec w) (b : Byte) (i : Nat) : (x ++ b).extractLsb' (i + 8) 8 = x.extractLsb' i 8 :=
    BitVec.extractLsb'_append_eq_of_le (by omega)
  refine ⟨BitVec.extractLsb'_append_eq_right.symm, ?_, ?_, ?_⟩
  · rw [drop _ _ 0]
    exact BitVec.extractLsb'_append_eq_right.symm
  · rw [drop _ _ 8, drop _ _ 0]
    exact BitVec.extractLsb'_append_eq_right.symm
  · rw [drop _ _ 16, drop _ _ 8]
    exact BitVec.extractLsb'_append_eq_left.symm

/-- The bytes a word read is made of. -/
theorem State.read8_of_read32 (s : State) (a : Word) :
    s.read8 (alignWord a) = (s.read32 a).extractLsb' 0 8 ∧ s.read8 (alignWord a + 1) = (s.read32 a).extractLsb' 8 8 ∧
    s.read8 (alignWord a + 2) = (s.read32 a).extractLsb' 16 8 ∧
    s.read8 (alignWord a + 3) = (s.read32 a).extractLsb' 24 8 := bytes_of_append _ _ _ _

/-- Outside IO, a halfword read at an even address joins two bytes. -/
theorem State.read16_of_even {s : State} {a : Word} (ha : alignHalf a = a) (h : regionOf s.params.regions a ≠ .io) :
    s.read16 a = s.read8 (a + 1) ++ s.read8 a := by
  rw [State.read16_bytes (not_isIfHalf h), ha]

theorem alignHalf_alignWord (a : Word) : alignHalf (alignWord a) = alignWord a := by
  apply BitVec.eq_of_toNat_eq
  rw [alignHalf_toNat, alignWord_toNat]
  omega

theorem alignHalf_alignWord_add_two (a : Word) : alignHalf (alignWord a + 2) = alignWord a + 2 := by
  have ha := a.isLt
  apply BitVec.eq_of_toNat_eq
  rw [alignHalf_toNat, BitVec.toNat_add, alignWord_toNat, show (2 : Word).toNat = 2 from rfl]
  omega

/-- Outside IO, the halfwords a word read is made of. -/
theorem State.read16_of_read32 {s : State} {a : Word} (h : regionOf s.params.regions a ≠ .io) :
    s.read16 (alignWord a) = (s.read32 a).extractLsb' 0 16 ∧
    s.read16 (alignWord a + 2) = (s.read32 a).extractLsb' 16 16 := by
  obtain ⟨b0, b1, b2, b3⟩ := s.read8_of_read32 a
  have h0 := (regionOf_alignWord s.params.regions a).trans_ne h
  have h2 := (regionOf_alignWord_add s.params.regions a (k := 2) (by decide)).trans_ne h
  constructor
  · rw [State.read16_of_even (alignHalf_alignWord a) h0, b0, b1]
    exact BitVec.extractLsb'_append_extractLsb'_eq_extractLsb' rfl
  · rw [State.read16_of_even (alignHalf_alignWord_add_two a) h2, BitVec.add_assoc, b2, show (2 : Word) + 1 = 3 from rfl, b3]
    exact BitVec.extractLsb'_append_extractLsb'_eq_extractLsb' rfl

/-- Settles O28: the word reads back, and the narrower reads are its parts. -/
theorem mixedWidthReads : Obligations.MixedWidthReads := by
  unfold Obligations.MixedWidthReads
  intro s a v hm hp t b
  have hw : t.read32 a = v := State.read32_write32_same hm ((Region.plain_iff_mem _).mpr hp) v
  have hio : regionOf t.params.regions a ≠ .io := by
    rw [State.write32_params]
    exact fun e => absurd (e ▸ hp) (by decide)
  obtain ⟨h0, h2⟩ := State.read16_of_read32 hio
  have bytes := t.read8_of_read32 a
  rw [hw] at h0 h2 bytes
  exact ⟨hw, h0, h2, bytes⟩

end Sys2Proof.Machine
end

section
/-! PROOF. The interrupt-acknowledge field and the sources it holds (20_memory.md rule R97; 60_exceptions.md rules R365 to
R367, R381). -/

namespace Sys2Proof.Machine

/-! ### Byte accesses at IF (rule R97) -/

theorem State.read8_ifLow {s : State} {a : Word} (hr : regionOf s.params.regions a = .io)
    (ho : offsetOf s.params.regions a = 0x202) : s.read8 a = s.pending.extractLsb' 0 8 := by
  simp only [State.read8, hr, if_pos ho]

theorem State.read8_ifHigh {s : State} {a : Word} (hr : regionOf s.params.regions a = .io)
    (ho : offsetOf s.params.regions a = 0x203) : s.read8 a = s.pending.extractLsb' 8 8 := by
  simp [State.read8, hr, ho]

theorem State.write8_ifLow {s : State} {a : Word} (hr : regionOf s.params.regions a = .io)
    (ho : offsetOf s.params.regions a = 0x202) (v : Byte) : s.write8 a v = s.acknowledge (v.setWidth 16) := by
  have e : 0#8 ++ v = v.setWidth 16 := by simp [append_eq_or_shiftLeft]
  simp [State.write8, hr, ho, e]

theorem State.write8_ifHigh {s : State} {a : Word} (hr : regionOf s.params.regions a = .io)
    (ho : offsetOf s.params.regions a = 0x203) (v : Byte) : s.write8 a v = s.acknowledge (v.setWidth 16 <<< 8) := by
  have e : v ++ 0#8 = v.setWidth 16 <<< 8 := by simp [append_eq_or_shiftLeft]
  simp [State.write8, hr, ho, e]

/-! ### Sources and their ranks (rules R366, R381) -/

/-- Every source stands in the list at its rank. -/
theorem allSources_bit (k : InterruptSource) (hk : k.bit.val < allSources.length) : allSources[k.bit.val] = k := by
  cases k <;> rfl

theorem bit_allSources : ∀ i (hi : i < allSources.length), allSources[i].bit.val = i := by
  decide

/-- The source reported is pending, and none of lower rank is. -/
theorem State.pendingInterrupt_eq_some_iff (s : State) (k : InterruptSource) : s.pendingInterrupt = some k ↔
    s.pending.getLsbD k.bit.val = true ∧ ∀ j : InterruptSource, j.bit < k.bit → s.pending.getLsbD j.bit.val = false := by
  rw [State.pendingInterrupt, List.find?_eq_some_iff_getElem]
  refine and_congr_right fun _ => ⟨?_, fun h => ⟨k.bit.val, k.bit.isLt, allSources_bit k k.bit.isLt, fun i hi => ?_⟩⟩
  · rintro ⟨i, hi, rfl, before⟩ j hj
    rw [Fin.lt_def, bit_allSources i hi] at hj
    simpa [allSources_bit] using before j.bit.val hj
  · have hbit := bit_allSources i (hi.trans k.bit.isLt)
    simp [h _ (Fin.lt_def.mpr (hbit.trans_lt hi))]

/-- Settles O26: the field by its three accesses, the bit of each source, and the source reported. -/
theorem interruptAcknowledge : Obligations.InterruptAcknowledge := by
  unfold Obligations.InterruptAcknowledge
  intro s a
  refine ⟨fun hr ho => ?_, fun hr ho => ⟨State.read8_ifLow hr ho, State.write8_ifLow hr ho⟩,
    fun hr ho => ⟨State.read8_ifHigh hr ho, State.write8_ifHigh hr ho⟩, ?_, s.pendingInterrupt_eq_some_iff⟩
  · have hif : isIfHalf s.params.regions (alignHalf a) = true := (isIfHalf_iff _ _).mpr ⟨hr, ho⟩
    exact ⟨State.read16_if hif, State.write16_if hif⟩
  · simp only [List.forall_mem_cons]
    exact ⟨⟨rfl, rfl⟩, ⟨rfl, rfl⟩, ⟨rfl, rfl⟩, ⟨rfl, rfl⟩, ⟨rfl, rfl⟩, ⟨rfl, rfl⟩, ⟨rfl, rfl⟩, ⟨rfl, rfl⟩, ⟨rfl, rfl⟩,
      ⟨rfl, rfl⟩, ⟨rfl, rfl⟩, ⟨rfl, rfl⟩, ⟨rfl, rfl⟩, ⟨rfl, rfl⟩, nofun⟩

end Sys2Proof.Machine
end

section
/-! PROOF. Decoding reads every encoding back (30_encoding.md rules R132 to R154). -/

namespace Sys2Proof

/-! ### The operands of an encoding, read back -/

@[simp] theorem toFin_regBits (r : Reg) : (regBits r).toFin = r := rfl

theorem decodeOperand2_encodeDp (c : Cond) (opcode : BitVec 4) (sf : Bool) (rn rd : Reg) (o : Operand2) :
    decodeOperand2 (encodeDp c opcode sf rn rd o) = o := by
  obtain ⟨-, hi, -, -, -, -, hb⟩ := fields_dp c opcode sf rn rd o
  exact decodeOperand2_of hi hb

theorem decodeOffset_encodeSdt (c : Cond) (p up byte wb load : Bool) (rn rd : Reg) (off : Offset) :
    decodeOffset (encodeSdt c p up byte wb load rn rd off) = off := by
  obtain ⟨-, hi, -, -, -, -, -, -, -, hb⟩ := fields_sdt c p up byte wb load rn rd off
  exact decodeOffset_of hi hb

theorem decodeHalfOffset_encodeHw (c : Cond) (ix : Indexing) (up load : Bool) (sh : BitVec 2) (rn rd : Reg)
    (off : HalfOffset) : decodeHalfOffset (encodeHw c ix up load sh rn rd off) = off := by
  obtain ⟨-, -, -, hi, -, -, -, -, hh, -, hl⟩ := fields_hw c ix up load sh rn rd off
  exact decodeHalfOffset_of hi hh hl

theorem field_encodeSwi_op (c : Cond) (op : BitVec 4) (call : BitVec 8) :
    field (encodeSwi c op call) 24 2 = op.extractLsb' 0 2 := by
  refine field_eq_iff.mpr fun i hi => ?_
  have h := field_eq_iff.mp (fields_swi c op call).2.1 i (by omega)
  simpa [hi] using h

theorem field_encodeMull_ua (c : Cond) (u a sf : Bool) (rdHi rdLo rs rm : Reg) :
    field (encodeMull c u a sf rdHi rdLo rs rm) 21 2 = BitVec.ofBool u ++ BitVec.ofBool a := by
  obtain ⟨-, hu, ha, -⟩ := fields_mull c u a sf rdHi rdLo rs rm
  refine field_eq_iff.mpr fun i hi => ?_
  interval_cases i
  · rw [ha]; cases u <;> cases a <;> rfl
  · rw [hu]; cases u <;> cases a <;> rfl

theorem getLsbD_encode_b_24 (c : Cond) (offset24 : BitVec 24) : (encode (.b c offset24)).getLsbD 24 = false := by
  rw [bit_b]; rfl

theorem getLsbD_encode_bl_24 (c : Cond) (offset24 : BitVec 24) : (encode (.bl c offset24)).getLsbD 24 = true := by
  rw [bit_bl]; rfl

/-! ### The round trip -/

theorem decode_encode {i : Instr} (h : i.wf = true) : decode (encode i) = some i := by
  cases i
  case and | eor | sub | rsb | add | adc | sbc | rsc | orr | bic | mov | mvn | tst | teq | cmp | cmn =>
    rw [encode, decode_of_unit (unit_dp _ _ _ _ _ _ (by simp))]
    simp only [decodeUnit, decodeDataProcessing, regAt, fields_dp, decodeOperand2_encodeDp, Cond.ofBits_bits, toFin_regBits]
    rfl
  case dpTestS0 c op rn o =>
    rw [encode, decode_of_unit (unit_dpTest c op rn o (by simpa [Instr.wf] using h))]
    simp only [decodeUnit, decodeDataProcessing, regAt, fields_dp, decodeOperand2_encodeDp, Cond.ofBits_bits, toFin_regBits]
    cases op <;> rfl
  case mul | mla =>
    rw [encode, decode_of_unit (unit_mul ..)]
    simp only [decodeUnit, decodeMultiply, regAt, fields_mul, Cond.ofBits_bits, toFin_regBits]
    rfl
  case umull | umlal | smull | smlal =>
    rw [encode, decode_of_unit (unit_mull ..)]
    simp only [decodeUnit, decodeMultiplyLong, regAt, fields_mull, field_encodeMull_ua, Cond.ofBits_bits, toFin_regBits]
    rfl
  case str c ix up rn rd off | ldr c ix up rn rd off | strb c ix up rn rd off | ldrb c ix up rn rd off =>
    rw [encode, decode_of_unit (unit_sdt ..)]
    simp only [decodeUnit, decodeSingleTransfer, regAt, fields_sdt, decodeOffset_encodeSdt, Cond.ofBits_bits, toFin_regBits]
    cases ix <;> rfl
  case strt | ldrt | strbt | ldrbt =>
    rw [encode, decode_of_unit (unit_sdt ..)]
    simp only [decodeUnit, decodeSingleTransfer, regAt, fields_sdt, decodeOffset_encodeSdt, Cond.ofBits_bits, toFin_regBits]
    rfl
  case strh | ldrh | ldrsb | ldrsh | strResSb | strResSh =>
    rw [encode, decode_of_unit (unit_hw _ _ _ _ _ _ _ _ (by decide))]
    simp only [decodeUnit, decodeHalfword, regAt, fields_hw, decodeHalfOffset_encodeHw, Indexing.ofBits_p_w,
      Cond.ofBits_bits, toFin_regBits]
    rfl
  case swp | swpb =>
    rw [encode, decode_of_unit (unit_swap ..)]
    simp only [decodeUnit, decodeSwap, regAt, fields_swap, Cond.ofBits_bits, toFin_regBits]
    rfl
  case mrsCpsr | mrsSpsr =>
    rw [encode, decode_of_unit (unit_mrs ..)]
    simp only [decodeUnit, decodeMrs, regAt, fields_mrs, Cond.ofBits_bits, toFin_regBits]
    rfl
  case msrReg =>
    rw [decode_of_unit (unit_msrReg ..)]
    simp only [decodeUnit, regAt, fields_msrReg, Cond.ofBits_bits, PsrSel.ofBit_bit, toFin_regBits]
  case msrImm =>
    rw [decode_of_unit (unit_msrImm ..)]
    simp only [decodeUnit, fields_msrImm, Cond.ofBits_bits, PsrSel.ofBit_bit]
  case bx =>
    rw [decode_of_unit (unit_bx ..)]
    simp only [decodeUnit, regAt, fields_bx, Cond.ofBits_bits, toFin_regBits]
  case stm | ldm =>
    rw [encode, decode_of_unit (unit_block ..)]
    simp only [decodeUnit, decodeBlockTransfer, regAt, fields_block, BlockMode.ofBits_bits, Cond.ofBits_bits, toFin_regBits]
    rfl
  case b =>
    rw [decode_of_unit (unit_b ..)]
    simp only [decodeUnit, decodeBranch, fields_b, getLsbD_encode_b_24, Cond.ofBits_bits]
    rfl
  case bl =>
    rw [decode_of_unit (unit_bl ..)]
    simp only [decodeUnit, decodeBranch, fields_bl, getLsbD_encode_bl_24, Cond.ofBits_bits]
    rfl
  case swi | swiCpC | swiCpD | swiCpE =>
    rw [encode, decode_of_unit (unit_swi _ _ _ (by decide))]
    simp only [decodeUnit, decodeSoftwareInterrupt, fields_swi, field_encodeSwi_op, Cond.ofBits_bits]
    rfl

/-- Settles O1: each unit reads its own fields back. -/
theorem decodeEncodeRoundTrip : Obligations.DecodeEncodeRoundTrip := by
  unfold Obligations.DecodeEncodeRoundTrip
  exact fun _ h => decode_encode h

end Sys2Proof
end

section
/-! PROOF. Every word is a well-formed instruction with the condition of bits 31:28 (30_encoding.md rules R131, R153 to R156). -/

namespace Sys2Proof

/-! ### The condition (rule R131) -/

theorem cond_decodeDataProcessing (w : Word) : (decodeDataProcessing w).cond = .ofBits (field w 28 4) := by
  unfold decodeDataProcessing
  dsimp only
  split
  case h_9 | h_10 | h_11 | h_12 => split <;> rfl
  all_goals rfl

/-- Every unit takes the condition from bits 31:28. -/
theorem cond_decodeUnit (u : DecodeUnit) (w : Word) : (decodeUnit u w).cond = .ofBits (field w 28 4) := by
  cases u <;> dsimp only [decodeUnit, decodeMultiply, decodeMultiplyLong, decodeHalfword, decodeSwap, decodeMrs,
    decodeSingleTransfer, decodeBlockTransfer, decodeBranch, decodeSoftwareInterrupt]
  case dataProcessing => exact cond_decodeDataProcessing w
  case msrReg | msrImm | bx => rfl
  all_goals split <;> rfl

/-! ### Categories (rule R153) -/

/-- A field that holds bits 27:26 says what the category is. -/
theorem category_of_field {w : Word} {lo n : Nat} {v : BitVec n} (hlo : lo ≤ 26) (hn : 28 ≤ lo + n)
    (h : field w lo n = v) : field w 26 2 = v.extractLsb' (26 - lo) 2 := by
  refine field_eq_iff.mpr fun i hi => ?_
  have hb := field_eq_iff.mp h (26 - lo + i) (by omega)
  rw [show lo + (26 - lo + i) = 26 + i by omega] at hb
  simp [hb, hi]

/-- Outside category 00 the category and bit 25 select the unit. -/
theorem selectUnit_of_category {w : Word} (h : field w 26 2 ≠ 0) : selectUnit w =
    if field w 26 2 = 0b01#2 then some .singleTransfer else
    if field w 25 3 = 0b100#3 then some .blockTransfer else
    if field w 25 3 = 0b101#3 then some .branch else
    if field w 26 2 = 0b11#2 then some .softwareInterrupt else
    none := by
  rw [selectUnit_eq]
  iterate 7 rw [if_neg fun r => h (category_of_field (by decide) (by decide) r.1)]
  rw [if_neg fun r => h (category_of_field (by decide) (by decide) r), if_neg h]

/-! ### Well-formedness (rules R154, R156) -/

/-- A word left to data processing is not of the MRS row. -/
theorem not_mrs_of_selectUnit {w : Word} (h : selectUnit w = some .dataProcessing) :
    ¬ (field w 23 5 = 0b00010#5 ∧ field w 16 6 = 0b001111#6 ∧ field w 0 12 = 0) := by
  intro hm
  rw [selectUnit_eq, if_pos hm] at h
  iterate 4
    split at h
    · cases h
  cases h

theorem category_of_selectUnit {w : Word} (h : selectUnit w = some .dataProcessing) : field w 26 2 = 0 := by
  by_contra hc
  rw [selectUnit_of_category hc] at h
  iterate 4
    split at h
    · cases h
  cases h

theorem ShiftType.bits_ofBits (b : BitVec 2) : (ShiftType.ofBits b).bits = b := by
  revert b
  decide

theorem field_of_regAt {w : Word} {lo : Nat} {r : Reg} (h : regAt w lo = r) : field w lo 4 = regBits r := by
  rw [← h]
  rfl

theorem getLsbD_of_field_zero {w : Word} {lo n i : Nat} (h : field w lo n = 0) (h1 : lo ≤ i) (h2 : i < lo + n) :
    w.getLsbD i = false := by
  have hbit := field_eq_iff.mp h (i - lo) (by omega)
  simpa [Nat.add_sub_cancel' h1] using hbit

/-- Operand 2 is R0, LSL #0 only where bits 25 and 11:0 are 0. -/
theorem field_of_decodeOperand2_zero {w : Word} (h : decodeOperand2 w = .shiftImm 0 .lsl 0) :
    w.getLsbD 25 = false ∧ field w 0 12 = 0 := by
  unfold decodeOperand2 at h
  split at h
  · cases h
  · next h25 =>
    split at h
    · cases h
    · next h4 =>
      injection h with hr ht hn
      have ht : field w 5 2 = 0 := by rw [← ShiftType.bits_ofBits (field w 5 2), ht]; rfl
      have hr : field w 0 4 = 0 := field_of_regAt hr
      refine ⟨by simpa using h25, field_eq_iff.mpr fun i hi => ?_⟩
      have hbit : w.getLsbD i = false := by
        rcases (by omega : i < 4 ∨ i = 4 ∨ (5 ≤ i ∧ i < 7) ∨ 7 ≤ i) with h | rfl | ⟨h1, h2⟩ | h
        · exact getLsbD_of_field_zero hr (Nat.zero_le i) (by omega)
        · simpa using h4
        · exact getLsbD_of_field_zero ht h1 (by omega)
        · exact getLsbD_of_field_zero hn h (by omega)
      simpa using hbit

/-- What a word decoded as a test with S = 0 holds. -/
theorem of_decodeDataProcessing_eq_dpTestS0 {w : Word} {c : Cond} {op : TestOp} {rn : Reg} {o : Operand2}
    (h : decodeDataProcessing w = .dpTestS0 c op rn o) :
    field w 21 4 = 0b10#2 ++ op.bits ∧ w.getLsbD 20 = false ∧ regAt w 16 = rn ∧ decodeOperand2 w = o := by
  unfold decodeDataProcessing at h
  dsimp only at h
  split at h
  case h_9 hop | h_10 hop | h_11 hop | h_12 hop =>
    split at h
    · cases h
    · next h20 =>
      cases h
      exact ⟨BitVec.eq_of_toNat_eq hop, by simpa using h20, rfl, rfl⟩
  all_goals cases h

/-- A word of a test with S = 0 and the shape of MRS is of the MRS row. -/
theorem mrs_of_isMrsShape {w : Word} {c : Cond} {op : TestOp} {rn : Reg} {o : Operand2} (h26 : field w 26 2 = 0)
    (hd : decodeDataProcessing w = .dpTestS0 c op rn o) (hs : isMrsShape op rn o = true) :
    field w 23 5 = 0b00010#5 ∧ field w 16 6 = 0b001111#6 ∧ field w 0 12 = 0 := by
  obtain ⟨hop, h20, hn, ho⟩ := of_decodeDataProcessing_eq_dpTestS0 hd
  simp only [isMrsShape, Bool.and_eq_true, Bool.or_eq_true, beq_iff_eq] at hs
  obtain ⟨⟨ht, rfl⟩, rfl⟩ := hs
  obtain ⟨h25, h0⟩ := field_of_decodeOperand2_zero ho
  have h16 : field w 16 4 = 0b1111#4 := field_of_regAt hn
  have bits21 : w.getLsbD 21 = false ∧ w.getLsbD 23 = false ∧ w.getLsbD 24 = true := by
    have hbit := field_eq_iff.mp hop
    rcases ht with rfl | rfl <;> exact ⟨hbit 0 (by decide), hbit 2 (by decide), hbit 3 (by decide)⟩
  obtain ⟨h21, h23, h24⟩ := bits21
  refine ⟨field_eq_iff.mpr fun i hi => ?_, field_eq_iff.mpr fun i hi => ?_, h0⟩
  · interval_cases i
    · exact h23
    · exact h24
    · exact h25
    · exact field_eq_iff.mp h26 0 (by decide)
    · exact field_eq_iff.mp h26 1 (by decide)
  · interval_cases i
    · exact field_eq_iff.mp h16 0 (by decide)
    · exact field_eq_iff.mp h16 1 (by decide)
    · exact field_eq_iff.mp h16 2 (by decide)
    · exact field_eq_iff.mp h16 3 (by decide)
    · exact h20
    · exact h21

theorem wf_decodeDataProcessing {w : Word} (h : selectUnit w = some .dataProcessing) :
    (decodeDataProcessing w).wf = true := by
  cases hd : decodeDataProcessing w
  case dpTestS0 c op rn o =>
    have hs : isMrsShape op rn o ≠ true := fun hs =>
      not_mrs_of_selectUnit h (mrs_of_isMrsShape (category_of_selectUnit h) hd hs)
    simpa [Instr.wf] using hs
  all_goals rfl

/-- Every unit but data processing makes only instructions that are well-formed by their form. -/
theorem wf_decodeUnit {u : DecodeUnit} {w : Word} (h : selectUnit w = some u) : (decodeUnit u w).wf = true := by
  cases u <;> dsimp only [decodeUnit, decodeMultiply, decodeMultiplyLong, decodeHalfword, decodeSwap, decodeMrs,
    decodeSingleTransfer, decodeBlockTransfer, decodeBranch, decodeSoftwareInterrupt]
  case dataProcessing => exact wf_decodeDataProcessing h
  case msrReg | msrImm | bx => rfl
  all_goals split <;> rfl

/-- Settles O2: a unit takes every word, and each unit's instructions are well-formed and carry bits 31:28. -/
theorem everyWordDecodes : Obligations.EveryWordDecodes := by
  unfold Obligations.EveryWordDecodes
  intro w
  obtain ⟨u, hu⟩ := selectUnit_isSome w
  refine ⟨decodeUnit u w, decode_of_unit hu, wf_decodeUnit hu, ?_⟩
  rw [cond_decodeUnit, Cond.bits_ofBits]
  rfl

end Sys2Proof
end

section
/-! PROOF. The categories that are one unit each: single transfer and software interrupt (30_encoding.md rules R157, R158). -/

namespace Sys2Proof

open Sys2Proof.Machine Sys2Proof.Cert

/-! ### The units of categories 01 and 11 -/

theorem selectUnit_singleTransfer {w : Word} (h : field w 26 2 = 0b01#2) : selectUnit w = some .singleTransfer := by
  rw [selectUnit_of_category (by rw [h]; decide), if_pos h]

theorem selectUnit_softwareInterrupt {w : Word} (h : field w 26 2 = 0b11#2) :
    selectUnit w = some .softwareInterrupt := by
  have block {v : BitVec 3} (hv : v.extractLsb' 1 2 ≠ 0b11#2) : field w 25 3 ≠ v := fun e =>
    hv ((category_of_field (by decide) (by decide) e).symm.trans h)
  rw [selectUnit_of_category (by rw [h]; decide), if_neg (by rw [h]; decide), if_neg (block (by decide)),
    if_neg (block (by decide)), if_pos h]

theorem isSingleTransfer_decodeSingleTransfer (w : Word) : IsSingleTransfer (decodeSingleTransfer w) := by
  unfold decodeSingleTransfer
  refine ⟨.ofBits (field w 28 4), .ofBits (w.getLsbD 24) (w.getLsbD 21), w.getLsbD 23, regAt w 16, regAt w 12,
    decodeOffset w, ?_⟩
  dsimp only
  split <;> simp

/-! ### Bit 4 of a transfer (rule R157) -/

theorem getLsbD_flip4 (w : Word) {i : Nat} (h : i ≠ 4) : (w ^^^ 0x10#32).getLsbD i = w.getLsbD i := by
  rw [show (0x10#32 : Word) = BitVec.twoPow 32 4 from rfl]
  simp [BitVec.getLsbD_twoPow, h.symm]

theorem field_flip4 (w : Word) {lo n : Nat} (h : lo + n ≤ 4 ∨ 4 < lo) : field (w ^^^ 0x10#32) lo n = field w lo n :=
  field_eq_iff.mpr fun i hi => by rw [getLsbD_flip4 w (by omega), getLsbD_field]; simp [hi]

theorem regAt_flip4 (w : Word) {lo : Nat} (h : lo + 4 ≤ 4 ∨ 4 < lo) : regAt (w ^^^ 0x10#32) lo = regAt w lo := by
  unfold regAt
  rw [field_flip4 w h]

/-- The register form of a transfer does not read bit 4. -/
theorem decodeSingleTransfer_flip4 {w : Word} (h : w.getLsbD 25 = true) :
    decodeSingleTransfer (w ^^^ 0x10#32) = decodeSingleTransfer w := by
  have off : decodeOffset (w ^^^ 0x10#32) = decodeOffset w := by
    unfold decodeOffset
    rw [getLsbD_flip4 w (by decide), if_pos h, if_pos h, regAt_flip4 w (by decide), field_flip4 w (by decide),
      field_flip4 w (by decide)]
  unfold decodeSingleTransfer
  rw [off, field_flip4 w (by decide), regAt_flip4 w (by decide), regAt_flip4 w (by decide), getLsbD_flip4 w (by decide),
    getLsbD_flip4 w (by decide), getLsbD_flip4 w (by decide), getLsbD_flip4 w (by decide), getLsbD_flip4 w (by decide)]

/-- Settles O4: the category selects the unit, whose register form does not read bit 4. -/
theorem categoryOneIsSingleTransfer : Obligations.CategoryOneIsSingleTransfer := by
  unfold Obligations.CategoryOneIsSingleTransfer
  intro w h
  have hu := decode_of_unit (selectUnit_singleTransfer h)
  refine ⟨⟨_, hu, isSingleTransfer_decodeSingleTransfer w⟩, fun h25 => ?_⟩
  have h' : field (w ^^^ 0x10#32) 26 2 = 0b01#2 := (field_flip4 w (by decide)).trans h
  rw [hu, decode_of_unit (selectUnit_singleTransfer h')]
  exact congrArg some (decodeSingleTransfer_flip4 h25)

/-- Settles O5: the category selects the unit, and the four rows of the unit run as SWI. -/
theorem categoryThreeIsSoftwareInterrupt : Obligations.CategoryThreeIsSoftwareInterrupt := by
  unfold Obligations.CategoryThreeIsSoftwareInterrupt
  intro w h
  refine ⟨_, decode_of_unit (selectUnit_softwareInterrupt h), ?_⟩
  simp only [decodeUnit, decodeSoftwareInterrupt]
  split
  · exact ⟨⟨_, _, .inr (.inl rfl)⟩, fun _ => rfl⟩
  · exact ⟨⟨_, _, .inr (.inr (.inl rfl))⟩, fun _ => rfl⟩
  · exact ⟨⟨_, _, .inr (.inr (.inr rfl))⟩, fun _ => rfl⟩
  · exact ⟨⟨_, _, .inl rfl⟩, fun _ => rfl⟩

end Sys2Proof
end

section
/-! PROOF. The rotated immediate (30_encoding.md rule R146; 40_execution_common.md rule R188). -/

namespace Sys2Proof.Machine

/-- Settles O34: a rotation by less than 32 is a disjunction of two shifts. -/
theorem rotatedImmediate : Obligations.RotatedImmediate := by
  unfold Obligations.RotatedImmediate
  intro s rot imm8 x z n
  have hz : 0#24 ++ imm8 = z := by
    simp [z, BitVec.setWidth_eq_append]
  have hn : n % 32 = n := Nat.mod_eq_of_lt (by omega)
  refine ⟨?_, rfl⟩
  show (0#24 ++ imm8).rotateRight n = _
  rw [hz, BitVec.rotateRight_def, hn]
  split
  · next h0 => simp [n, h0]
  · rfl

end Sys2Proof.Machine
end

section
/-! PROOF. The condition table, a step in ARM state, and an instruction whose condition fails (40_execution_common.md rules
R170 to R175). -/

namespace Sys2Proof.Machine

/-! ### The condition (rules R174, R175) -/

/-- Settles O8, by the sixteen codes. -/
theorem conditionTable : Obligations.ConditionTable := by
  unfold Obligations.ConditionTable
  intro p code n z c v
  have hcode := code.isLt
  unfold Cond.ofBits
  interval_cases code.toNat <;> rfl

/-- Every instruction is some work under its own condition (rule R131). -/
theorem exec_eq_conditionally (i : Instr) : ∃ work, ∀ s, exec i s = conditionally i.cond s work := by
  cases i <;> exact ⟨_, fun _ => by delta exec; rfl⟩

/-- Settles O9: whatever the instruction's work is, it is not done. -/
theorem failedConditionIsNoOp : Obligations.FailedConditionIsNoOp := by
  unfold Obligations.FailedConditionIsNoOp
  intro i s h
  obtain ⟨work, hwork⟩ := exec_eq_conditionally i
  rw [hwork]
  exact conditionally_failed h work

/-! ### The step (rules R170 to R172) -/

/-- Settles O7: the check for Thumb state is the first of a step. -/
theorem thumbStateRefused : Obligations.ThumbStateRefused := by
  unfold Obligations.ThumbStateRefused
  intro s h
  exact if_pos h

/-- A step that is neither refused before its fetch nor an IRQ is the instruction fetched. -/
theorem step_of_decode {s : State} {i : Instr} (hT : psrT s.cpsr = false) (hv : validPsr s.cpsr = true)
    (hirq : s.irqTaken = false) (hd : decode s.fetch = some i) : step s = endOutcome (exec i s.afterFetch) := by
  unfold step
  rw [if_neg (by simp [hT]), if_pos hv, if_neg (by simp [hirq]), hd]

theorem State.irqTaken_eq_false {s : State} (h : s.irqLine = false ∨ psrI s.cpsr = true) : s.irqTaken = false := by
  unfold State.irqTaken
  rcases h with h | h <;> simp [h]

/-- Settles O6: the outcome of the step is that of the instruction, with the draws and the line of the next step. -/
theorem stepRunsDecoded : Obligations.StepRunsDecoded := by
  unfold Obligations.StepRunsDecoded
  intro s i hT hv hirq hd u
  have hstep : step s = endOutcome (exec i u) := step_of_decode hT hv (State.irqTaken_eq_false hirq) hd
  refine ⟨fun t ht => ?_, fun r hr => ?_⟩
  · rw [hstep, ht]
    rfl
  · rw [hstep, hr]
    rfl

end Sys2Proof.Machine
end

section
/-! PROOF. R15 as operand and destination, and the three operand forms of data processing (40_execution_common.md rules R177,
R178, R181, R188; 41_data_processing.md rule R210). -/

namespace Sys2Proof.Machine

/-- The shift amount of the register form is bits 7:0 of Rs (rule R210). -/
theorem toNat_low_byte (v : Word) : (v.extractLsb' 0 8).toNat = v.toNat % 256 := by
  simp [BitVec.extractLsb'_toNat]

/-- Settles O20: the reads of R15 by form, and the shift amount as the remainder it is. -/
theorem pcOperandAndDestination : Obligations.PcOperandAndDestination := by
  unfold Obligations.PcOperandAndDestination
  intro s
  refine ⟨s.writeR_fifteen, s.readR_fifteen, s.readR_fifteen_plus12, ?_, ?_, ?_⟩
  · intro r rn rm rs ty d x
    have hd : d = ⟨r rn, x.value, x.carry⟩ := by
      simp only [d, x, dpOperands, operand2, toNat_low_byte]
      rfl
    rw [hd]
    exact ⟨rfl, rfl, rfl⟩
  · exact fun _ _ _ _ => ⟨rfl, rfl, rfl⟩
  · exact fun _ _ _ => ⟨rfl, rfl, rfl⟩

end Sys2Proof.Machine
end

section
/-! PROOF. The barrel shifter as arithmetic on the shifted word, and its carry-out (40_execution_common.md rules R181 to
R187). -/

namespace Sys2Proof.Machine

/-! ### Values: a shift by 32 or more is still a shift (rules R184 to R187) -/

theorem shiftLsl_value (v : Word) (n : Nat) : (shiftLsl v n).value = v <<< n := by
  unfold shiftLsl
  split_ifs
  · rfl
  all_goals exact (BitVec.shiftLeft_eq_zero (by omega)).symm

theorem shiftLsr_value (v : Word) (n : Nat) : (shiftLsr v n).value = v >>> n := by
  unfold shiftLsr
  split_ifs
  · rfl
  all_goals exact (BitVec.ushiftRight_eq_zero (by omega)).symm

/-- An arithmetic shift by 32 or more fills the word with its sign. -/
theorem sshiftRight_of_ge (v : Word) {n : Nat} (hn : 32 ≤ n) :
    v.sshiftRight n = if v.getLsbD 31 then 0xFFFFFFFF#32 else 0 := by
  ext i hi
  rw [BitVec.getElem_sshiftRight, dif_neg (by omega), BitVec.msb_eq_getLsbD_last]
  cases v.getLsbD 31
  · simp
  · exact (BitVec.getElem_allOnes i hi).symm

theorem shiftAsr_value (v : Word) (n : Nat) : (shiftAsr v n).value = v.sshiftRight n := by
  unfold shiftAsr
  split
  · rfl
  · exact (sshiftRight_of_ge v (by omega)).symm

theorem rotateRight_eq_or (v : Word) {r : Nat} (h : r < 32) : v.rotateRight r = v >>> r ||| v <<< (32 - r) := by
  rw [BitVec.rotateRight_def, Nat.mod_eq_of_lt h]

/-! ### Carries -/

theorem shiftLsl_carry (v : Word) (n : Nat) :
    (shiftLsl v n).carry = if n ≤ 32 then v.getLsbD (32 - n) else false := by
  rcases lt_trichotomy n 32 with h | rfl | h
  · simp [shiftLsl, h, h.le]
  · rfl
  · simp [shiftLsl, show ¬ n < 32 by omega, show ¬ n ≤ 32 by omega, show n ≠ 32 by omega]

theorem shiftLsr_carry (v : Word) (n : Nat) :
    (shiftLsr v n).carry = if n ≤ 32 then v.getLsbD (n - 1) else false := by
  rcases lt_trichotomy n 32 with h | rfl | h
  · simp [shiftLsr, h, h.le]
  · rfl
  · simp [shiftLsr, show ¬ n < 32 by omega, show ¬ n ≤ 32 by omega, show n ≠ 32 by omega]

theorem shiftAsr_carry (v : Word) (n : Nat) :
    (shiftAsr v n).carry = if n ≤ 32 then v.getLsbD (n - 1) else v.getLsbD 31 := by
  rcases lt_trichotomy n 32 with h | rfl | h
  · simp [shiftAsr, h, h.le]
  · rfl
  · simp [shiftAsr, show ¬ n < 32 by omega, show ¬ n ≤ 32 by omega]

/-! ### Amount zero (rule R183) -/

/-- RRX is a shift by one with the carry flag coming in at the top. -/
theorem shiftRrx_value_toNat (v : Word) (cin : Bool) :
    (shiftRrx v cin).value.toNat = cin.toNat * 2 ^ 31 + v.toNat / 2 := by
  have hv := v.isLt
  have hlow : (v.extractLsb' 1 31).toNat = v.toNat / 2 := by
    rw [BitVec.extractLsb'_toNat, Nat.shiftRight_eq_div_pow]
    omega
  show (BitVec.ofBool cin ++ v.extractLsb' 1 31).toNat = _
  rw [BitVec.toNat_append, ← Nat.shiftLeft_add_eq_or_of_lt (BitVec.isLt _), hlow, Nat.shiftLeft_eq, BitVec.toNat_ofBool]

/-- Settles O33: the value and the carry of each shift, for amount zero and for the amounts from 1 on. -/
theorem shifterResult : Obligations.ShifterResult := by
  unfold Obligations.ShifterResult
  intro v cin
  refine ⟨fun ty => ⟨fun _ => rfl, rfl⟩, rfl, rfl, rfl, shiftRrx_value_toNat v cin, rfl, fun arch imm n hn => ?_⟩
  have hn0 : n ≠ 0 := by omega
  refine ⟨?_, ?_, ?_, ?_⟩
  · rw [show shifter arch imm v .lsl n cin = shiftLsl v n from if_neg hn0]
    refine ⟨?_, shiftLsl_carry v n⟩
    rw [shiftLsl_value, BitVec.toNat_shiftLeft, Nat.shiftLeft_eq]
  · rw [show shifter arch imm v .lsr n cin = shiftLsr v n from if_neg hn0]
    refine ⟨?_, shiftLsr_carry v n⟩
    rw [shiftLsr_value, BitVec.toNat_ushiftRight, Nat.shiftRight_eq_div_pow]
  · rw [show shifter arch imm v .asr n cin = shiftAsr v n from if_neg hn0]
    refine ⟨?_, shiftAsr_carry v n⟩
    rw [shiftAsr_value, BitVec.toInt_sshiftRight, Int.shiftRight_eq_div_pow]
    rfl
  · rw [show shifter arch imm v .ror n cin = shiftRor arch v n cin from if_neg hn0]
    dsimp only [shiftRor]
    split
    · exact ⟨rfl, rfl⟩
    · exact ⟨rotateRight_eq_or v (Nat.mod_lt n (by decide)), rfl⟩

end Sys2Proof.Machine
end

section
/-! PROOF. The result, carry and overflow of additions and subtractions (40_execution_common.md rules R190, R191). -/

namespace Sys2Proof.Machine

open Sys2Proof.Cert

/-! ### Words as numbers -/

/-- Bit 31 is the sign of a word. -/
theorem getLsbD_31_eq_decide (a : Word) : a.getLsbD 31 = decide (2 ^ 31 ≤ a.toNat) :=
  (BitVec.msb_eq_getLsbD_last a).symm.trans (BitVec.msb_eq_decide a)

theorem toInt_eq_of_word (a : Word) : a.toInt = if a.toNat < 2 ^ 31 then (a.toNat : Int) else a.toNat - 2 ^ 32 := by
  rw [BitVec.toInt_eq_toNat_cond]
  split <;> split <;> omega

theorem addOut_result_toNat (a b : Word) (cin : Bool) :
    (addOut a b cin).result.toNat = (a.toNat + b.toNat + cin.toNat) % 2 ^ 32 := rfl

theorem subOut_result_toNat (a b : Word) (bin : Bool) :
    ((subOut a b bin).result.toNat : Int) = ((a.toNat : Int) - b.toNat - bin.toNat) % 2 ^ 32 := by
  show ((BitVec.ofInt 32 _).toNat : Int) = _
  rw [BitVec.toNat_ofInt, Int.toNat_of_nonneg (Int.emod_nonneg _ (by decide))]
  rfl

/-! ### The statements' additions and subtractions -/

theorem addSpec_addOut (a b : Word) (cin : Bool) :
    AddSpec a b cin.toNat (addOut a b cin).result (addOut a b cin).carry (addOut a b cin).overflow :=
  ⟨addOut_result_toNat a b cin, decide_eq_true_iff, by simp [addOut]⟩

theorem subSpec_subOut (a b : Word) (bin : Bool) :
    SubSpec a b bin.toNat (subOut a b bin).result (subOut a b bin).carry (subOut a b bin).overflow :=
  ⟨subOut_result_toNat a b bin, decide_eq_true_iff, by simp [subOut]⟩

/-! ### Signed overflow -/

/-- Operands of one sign and a result of the other are exactly a signed sum that does not fit. -/
theorem overflow_iff_of_addSpec {a b r : Word} {cin : Nat} {c v : Bool} (h : AddSpec a b cin r c v) (hcin : cin ≤ 1) :
    v = true ↔ r.toInt ≠ a.toInt + b.toInt + cin := by
  obtain ⟨hr, -, hv⟩ := h
  have ha := a.isLt
  have hb := b.isLt
  rw [hv, toInt_eq_of_word, toInt_eq_of_word, toInt_eq_of_word]
  simp only [getLsbD_31_eq_decide, ne_eq, decide_eq_decide]
  split_ifs <;> omega

theorem overflow_iff_of_subSpec {a b r : Word} {bin : Nat} {c v : Bool} (h : SubSpec a b bin r c v) (hbin : bin ≤ 1) :
    v = true ↔ r.toInt ≠ a.toInt - b.toInt - bin := by
  obtain ⟨hr, -, hv⟩ := h
  have ha := a.isLt
  have hb := b.isLt
  rw [hv, toInt_eq_of_word, toInt_eq_of_word, toInt_eq_of_word]
  simp only [getLsbD_31_eq_decide, ne_eq, decide_eq_decide]
  split_ifs <;> omega

/-- Settles O40: the overflow flag is the one the sign comparison describes. -/
theorem overflowIsSignedOverflow : Obligations.OverflowIsSignedOverflow := by
  unfold Obligations.OverflowIsSignedOverflow
  exact fun a b cy => ⟨overflow_iff_of_addSpec (addSpec_addOut a b cy) (Bool.toNat_le cy),
    overflow_iff_of_subSpec (subSpec_subOut a b cy) (Bool.toNat_le cy)⟩

end Sys2Proof.Machine
end

section
/-! PROOF. What an instruction leaves in the vocabulary of the statements: a register written, only the pc advanced, the flags,
the frame and the cycle count (10_state.md rules R35, R39; 40_execution_common.md rules R178, R189; 70_reset_and_hazards.md
rule R420). -/

namespace Sys2Proof.Machine

open Sys2Proof.Cert

/-! ### Registers and the pc -/

/-- Work that starts with the registers of `s` and ends with a write of Rd has written Rd and nothing else. -/
theorem wrote_of_writeR {s w t : State} {rd : Reg} {v : Word} (hw : w.regs = s.regs) (hm : w.mode = s.mode)
    (hf : w.refill = false) (ht : t.regs = (w.writeR rd v).regs)
    (hpc : t.pc = if (w.writeR rd v).refill then (w.writeR rd v).pc else s.pc + 4#32) : Wrote s t rd v := by
  have get (p : PhysReg) : t.regs.get p = if view s.mode rd = some p then v else s.regs.get p := by
    rw [ht, State.get_writeR, hm, hw]
  rw [State.writeR_refill, hf, State.writeR_pc] at hpc
  refine ⟨fun p hp => ?_, ?_⟩
  · rw [get, if_neg (by simpa [eq_comm] using hp)]
  · by_cases h : rd = 15
    · simpa [h] using hpc
    · obtain ⟨p, hp, hreg⟩ := State.reg_eq_get (m := s.mode) h
      rw [if_neg h, hreg, get, if_pos hp]
      exact ⟨rfl, by simpa [h] using hpc⟩

theorem regsKept_of_regs {s t : State} (h : t.regs = s.regs) : RegsKept s t [] := fun p _ => by rw [h]

/-- Work that writes no register leaves the pc to advance. -/
theorem onlyPc_finish {s u : State} (hu : u.regs = s.regs) (hf : u.refill = false) (base : Nat) (xs : List Access) :
    OnlyPc s (s.begin.finish base xs u) :=
  ⟨regsKept_of_regs hu, by simp [hf]⟩

/-! ### The frame -/

/-- Everything but registers, pc, CPSR and cycles is kept when the stores and the SPSRs are. -/
theorem othersKept_of_sameStore {s t : State} (h : SameStore s t) (hs : ∀ m, t.spsrOf m = s.spsrOf m) : OthersKept s t := by
  obtain ⟨hmem, hpend, hcalls, hparams, hirq, hdraws⟩ := h
  exact ⟨hs, ⟨State.read8_congr hmem hpend hdraws hparams, hmem, hpend, hcalls⟩, hparams, hirq, hdraws⟩

theorem flagsAre_of_withNZCV {s t : State} {n z c v : Bool} (h : t.cpsr = withNZCV s.cpsr n z c v) :
    FlagsAre s t n z c v := by
  simp [FlagsAre, h]

end Sys2Proof.Machine
end

section
/-! PROOF. Data processing: the result write, the flags and the frame of the sixteen operations, and the return form
(41_data_processing.md rules R210 to R230; 40_execution_common.md rule R180). -/

namespace Sys2Proof.Machine

open Sys2Proof.Cert

/-! ### The result write (rule R211) -/

theorem begin_writeR_spsrOf (s : State) (i : Reg) (v : Word) (m : Mode) : (s.begin.writeR i v).spsrOf m = s.spsrOf m := by
  rw [State.writeR_spsrOf, State.begin_spsrOf]

/-- Rd written, with the flags when S = 1. -/
def State.dpWritten (s : State) (sf : Bool) (rd : Reg) (a : AluOut) : State :=
  if sf then (s.writeR rd a.result).setFlags a else s.writeR rd a.result

/-- Outside the return form, the result write ends in a next state. -/
theorem dpWrite_of_not_returns {s : State} {sf : Bool} {rd : Reg} (h : ¬ Returns s sf rd) (o : Operand2) (a : AluOut) :
    dpWrite s sf rd o a = .next (dpFinish s o (s.dpWritten sf rd a)) := by
  unfold dpWrite State.dpWritten
  dsimp only
  split
  · next hsf => rw [if_neg fun hr => h ⟨hsf, hr⟩]
  · rfl

/-- In the return form, it ends in the restore of the CPSR. -/
theorem dpWrite_of_hasSpsr {s : State} (h : s.mode.hasSpsr = true) (o : Operand2) (a : AluOut) :
    dpWrite s.begin true 15 o a = mapNext (dpFinish s.begin o) (s.begin.writeR 15 a.result).restoreCpsr := by
  unfold dpWrite
  dsimp only
  rw [if_pos rfl, if_pos ⟨rfl, h⟩]

/-- What an operation that writes Rd leaves, from its ALU output: Rd, the flags when S = 1, the pc and the cycle count. -/
def DpLeaves (s t : State) (sf : Bool) (rd : Reg) (o : Operand2) (a : AluOut) : Prop :=
  Wrote s t rd a.result ∧
    (if sf then FlagsAre s t (a.result.getLsbD 31) (a.result == 0) a.carry a.overflow else t.cpsr = s.cpsr) ∧
    OthersKept s t ∧ Costs s t (dpCycles s o) (rd == 15) []

theorem dpWrite_leaves {s : State} {sf : Bool} {rd : Reg} (h : ¬ Returns s sf rd) (o : Operand2) (a : AluOut) :
    ∃ t, dpWrite s.begin sf rd o a = .next t ∧ DpLeaves s t sf rd o a := by
  refine ⟨_, dpWrite_of_not_returns (s := s.begin) h o a, ?_⟩
  have hothers : OthersKept s (s.begin.writeR rd a.result) :=
    othersKept_of_sameStore (SameStore.writeR s.begin rd a.result) (begin_writeR_spsrOf s rd a.result)
  have hcosts : Costs s (dpFinish s.begin o (s.begin.writeR rd a.result)) (dpCycles s o) (rd == 15) [] := by
    simp [Costs, dpFinish, dpCycles]
  unfold State.dpWritten
  cases sf with
  | true =>
    refine ⟨wrote_of_writeR (w := s.begin) rfl rfl rfl rfl rfl, flagsAre_of_withNZCV ?_, hothers, hcosts⟩
    simp [dpFinish, State.setFlags]
  | false =>
    refine ⟨wrote_of_writeR (w := s.begin) rfl rfl rfl rfl rfl, ?_, hothers, hcosts⟩
    simp [dpFinish]

/-- An instruction whose ALU output meets a specification leaves a result, a carry and an overflow that meet it. -/
theorem exec_leaves_of_spec {s : State} {sf : Bool} {rd : Reg} {o : Operand2} {i : Instr} {a : AluOut}
    {P : Word → Bool → Bool → Prop} (h : ¬ Returns s sf rd) (hi : exec i s = dpWrite s.begin sf rd o a)
    (ha : P a.result a.carry a.overflow) :
    ∃ t r c v, exec i s = .next t ∧ P r c v ∧ DpLeaves s t sf rd o ⟨r, c, v⟩ :=
  let ⟨t, ht, hl⟩ := dpWrite_leaves h o a
  ⟨t, _, _, _, hi.trans ht, ha, hl⟩

/-- A comparison leaves the four flags, the pc and the cycle count. -/
theorem dpTest_leaves (s : State) (o : Operand2) (a : AluOut) :
    ∃ t, dpTest s.begin o a = .next t ∧
      TestLeaves s t o (a.result.getLsbD 31) (a.result == 0) a.carry a.overflow := by
  have hstore : SameStore s (dpFinish s.begin o (s.begin.setFlags a)) := ⟨rfl, rfl, rfl, rfl, rfl, rfl⟩
  exact ⟨_, rfl, flagsAre_of_withNZCV rfl, onlyPc_finish rfl rfl _ _,
    othersKept_of_sameStore hstore fun m => State.spsrOf_congr rfl rfl rfl rfl rfl m, rfl⟩

/-! ### The operations by their ALU output (rules R213 to R229) -/

/-- The work of an operation: the write of an ALU output that the operands and the status register give. -/
def aluWork (rn : Reg) (o : Operand2) (write : State → AluOut → Result) (f : DpOperands → Word → AluOut) (s : State) :
    Result :=
  write s (f (dpOperands s rn o) s.cpsr)

theorem exec_of_aluWork {i : Instr} {c : Cond} {s : State} {rn : Reg} {o : Operand2} {write : State → AluOut → Result}
    {f : DpOperands → Word → AluOut} (hi : exec i s = conditionally c s (aluWork rn o write f))
    (hc : condPassed c s.cpsr = true) : exec i s = write s.begin (f (dpOperands s rn o) s.cpsr) :=
  hi.trans (conditionally_passed hc _)

section
variable {s : State} {c : Cond} (hc : condPassed c s.cpsr = true) (sf : Bool) (rn rd : Reg) (o : Operand2)
include hc

theorem exec_logicalForms : ∀ x ∈ logicalForms c sf rn rd o, exec x.1 s = dpWrite s.begin sf rd o
    (logicOut (x.2 (dpOperands s rn o).op1 (dpOperands s rn o).op2) (dpOperands s rn o).sc (psrV s.cpsr)) := by
  have work : ∀ x ∈ logicalForms c sf rn rd o, exec x.1 s = conditionally c s (aluWork rn o (dpWrite · sf rd o ·)
      fun d p => logicOut (x.2 d.op1 d.op2) d.sc (psrV p)) := by
    simp only [logicalForms, List.forall_mem_cons]
    exact ⟨rfl, rfl, rfl, rfl, rfl, rfl, List.forall_mem_nil _⟩
  exact fun x hx => exec_of_aluWork (work x hx) hc

theorem exec_add : exec (.add c sf rn rd o) s =
    dpWrite s.begin sf rd o (addOut (dpOperands s rn o).op1 (dpOperands s rn o).op2 false) :=
  exec_of_aluWork (write := (dpWrite · sf rd o ·)) (f := fun d _ => addOut d.op1 d.op2 false) rfl hc

theorem exec_adc : exec (.adc c sf rn rd o) s =
    dpWrite s.begin sf rd o (addOut (dpOperands s rn o).op1 (dpOperands s rn o).op2 (psrC s.cpsr)) :=
  exec_of_aluWork (write := (dpWrite · sf rd o ·)) (f := fun d p => addOut d.op1 d.op2 (psrC p)) rfl hc

theorem exec_sub : exec (.sub c sf rn rd o) s =
    dpWrite s.begin sf rd o (subOut (dpOperands s rn o).op1 (dpOperands s rn o).op2 false) :=
  exec_of_aluWork (write := (dpWrite · sf rd o ·)) (f := fun d _ => subOut d.op1 d.op2 false) rfl hc

theorem exec_rsb : exec (.rsb c sf rn rd o) s =
    dpWrite s.begin sf rd o (subOut (dpOperands s rn o).op2 (dpOperands s rn o).op1 false) :=
  exec_of_aluWork (write := (dpWrite · sf rd o ·)) (f := fun d _ => subOut d.op2 d.op1 false) rfl hc

theorem exec_sbc : exec (.sbc c sf rn rd o) s =
    dpWrite s.begin sf rd o (subOut (dpOperands s rn o).op1 (dpOperands s rn o).op2 (!psrC s.cpsr)) :=
  exec_of_aluWork (write := (dpWrite · sf rd o ·)) (f := fun d p => subOut d.op1 d.op2 (!psrC p)) rfl hc

theorem exec_rsc : exec (.rsc c sf rn rd o) s =
    dpWrite s.begin sf rd o (subOut (dpOperands s rn o).op2 (dpOperands s rn o).op1 (!psrC s.cpsr)) :=
  exec_of_aluWork (write := (dpWrite · sf rd o ·)) (f := fun d p => subOut d.op2 d.op1 (!psrC p)) rfl hc

theorem exec_tst : exec (.tst c rn o) s = dpTest s.begin o
    (logicOut ((dpOperands s rn o).op1 &&& (dpOperands s rn o).op2) (dpOperands s rn o).sc (psrV s.cpsr)) :=
  exec_of_aluWork (write := (dpTest · o ·)) (f := fun d p => logicOut (d.op1 &&& d.op2) d.sc (psrV p)) rfl hc

theorem exec_teq : exec (.teq c rn o) s = dpTest s.begin o
    (logicOut ((dpOperands s rn o).op1 ^^^ (dpOperands s rn o).op2) (dpOperands s rn o).sc (psrV s.cpsr)) :=
  exec_of_aluWork (write := (dpTest · o ·)) (f := fun d p => logicOut (d.op1 ^^^ d.op2) d.sc (psrV p)) rfl hc

theorem exec_cmp : exec (.cmp c rn o) s =
    dpTest s.begin o (subOut (dpOperands s rn o).op1 (dpOperands s rn o).op2 false) :=
  exec_of_aluWork (write := (dpTest · o ·)) (f := fun d _ => subOut d.op1 d.op2 false) rfl hc

theorem exec_cmn : exec (.cmn c rn o) s =
    dpTest s.begin o (addOut (dpOperands s rn o).op1 (dpOperands s rn o).op2 false) :=
  exec_of_aluWork (write := (dpTest · o ·)) (f := fun d _ => addOut d.op1 d.op2 false) rfl hc

end

/-! ### Results, flags and frames -/

/-- Settles O35, by the ALU output of the six operations. -/
theorem logicalResult : Obligations.LogicalResult := by
  unfold Obligations.LogicalResult
  intro s c sf rn rd o hc hr x hx d r
  rw [exec_logicalForms hc sf rn rd o x hx]
  exact dpWrite_leaves hr o _

/-- The borrow input of SBC and RSC is the complement of C (rule R191). -/
theorem one_sub_toNat (b : Bool) : 1 - b.toNat = (!b).toNat := by cases b <;> rfl

/-- Settles O36, by the ALU output of each. -/
theorem additionResult : Obligations.AdditionResult := by
  unfold Obligations.AdditionResult
  intro s c sf rn rd o hc hr
  simp only [addForms, List.forall_mem_cons]
  exact ⟨exec_leaves_of_spec hr (exec_add hc sf rn rd o) (addSpec_addOut _ _ _),
    exec_leaves_of_spec hr (exec_adc hc sf rn rd o) (addSpec_addOut _ _ _), List.forall_mem_nil _⟩

/-- Settles O37, by the ALU output of each. -/
theorem subtractionResult : Obligations.SubtractionResult := by
  unfold Obligations.SubtractionResult
  intro s c sf rn rd o hc hr
  simp only [subtractForms, List.forall_mem_cons, one_sub_toNat]
  exact ⟨exec_leaves_of_spec hr (exec_sub hc sf rn rd o) (subSpec_subOut _ _ _),
    exec_leaves_of_spec hr (exec_rsb hc sf rn rd o) (subSpec_subOut _ _ _),
    exec_leaves_of_spec hr (exec_sbc hc sf rn rd o) (subSpec_subOut _ _ _),
    exec_leaves_of_spec hr (exec_rsc hc sf rn rd o) (subSpec_subOut _ _ _), List.forall_mem_nil _⟩

/-- Settles O38, by the ALU output of each. -/
theorem testResult : Obligations.TestResult := by
  unfold Obligations.TestResult
  intro s c rn o hc d x y
  obtain ⟨tTst, hTst, lTst⟩ := dpTest_leaves s o (logicOut x d.sc (psrV s.cpsr))
  obtain ⟨tTeq, hTeq, lTeq⟩ := dpTest_leaves s o (logicOut y d.sc (psrV s.cpsr))
  obtain ⟨tCmp, hCmp, lCmp⟩ := dpTest_leaves s o (subOut d.op1 d.op2 false)
  obtain ⟨tCmn, hCmn, lCmn⟩ := dpTest_leaves s o (addOut d.op1 d.op2 false)
  exact ⟨⟨tTst, (exec_tst hc rn o).trans hTst, lTst⟩, ⟨tTeq, (exec_teq hc rn o).trans hTeq, lTeq⟩,
    ⟨tCmp, _, _, _, (exec_cmp hc rn o).trans hCmp, subSpec_subOut d.op1 d.op2 false, lCmp⟩,
    ⟨tCmn, _, _, _, (exec_cmn hc rn o).trans hCmn, addSpec_addOut d.op1 d.op2 false, lCmn⟩⟩

end Sys2Proof.Machine
end

section
/-! PROOF. The return from exception: an S = 1 operation with Rd = 15, and its refusal when the saved mode is no mode, in data
processing and in LDM (40_execution_common.md rule R180; 41_data_processing.md rule R211; 44_block_transfer.md rule R296). -/

namespace Sys2Proof.Machine

open Sys2Proof.Cert

/-! ### The restore, when the work before it kept the mode and the SPSR -/

theorem restoreCpsr_of_valid {s u : State} (hm : u.mode = s.mode) (hs : u.spsrOf s.mode = s.spsrOf s.mode)
    (ho : s.mode.hasSpsr = true) (hv : validPsr (s.spsrOf s.mode) = true) :
    u.restoreCpsr = .next { u with cpsr := s.spsrOf s.mode } := by
  unfold State.restoreCpsr
  rw [hm, hs, if_pos ho, if_pos hv]

theorem restoreCpsr_of_invalid {s u : State} (hm : u.mode = s.mode) (hs : u.spsrOf s.mode = s.spsrOf s.mode)
    (ho : s.mode.hasSpsr = true) (hv : validPsr (s.spsrOf s.mode) = false) : u.restoreCpsr = .refused .invalidMode := by
  unfold State.restoreCpsr
  rw [hm, hs, if_pos ho, hv, if_neg Bool.false_ne_true]

/-! ### The results as words (rules R190, R191) -/

theorem addOut_result (a b : Word) (cin : Bool) :
    (addOut a b cin).result = a + b + (if cin then 1#32 else 0#32) := by
  apply BitVec.eq_of_toNat_eq
  rw [addOut_result_toNat]
  cases cin <;> simp [BitVec.toNat_add]

theorem subOut_result (a b : Word) (bin : Bool) :
    (subOut a b bin).result = a - b - (if bin then 1#32 else 0#32) := by
  apply BitVec.eq_of_toNat_eq
  have h := subOut_result_toNat a b bin
  cases bin <;> simp [BitVec.toNat_sub] at h ⊢ <;> omega

/-- The borrow input of SBC and RSC, as the word 1 - C. -/
theorem subOut_not_result (a b : Word) (cy : Bool) :
    (subOut a b (!cy)).result = a - b - (1#32 - (if cy then 1#32 else 0#32)) := by
  cases cy <;> simp [subOut_result]

/-- Each operation that writes Rd writes an ALU output with its result. -/
theorem exec_writingForms {s : State} {c : Cond} (hc : condPassed c s.cpsr = true) (sf : Bool) (rn rd : Reg)
    (o : Operand2) : ∀ x ∈ writingForms s c sf rn rd o, ∃ a, exec x.1 s = dpWrite s.begin sf rd o a ∧ a.result = x.2 := by
  simp only [writingForms, List.forall_mem_append, List.forall_mem_map, List.forall_mem_cons]
  exact ⟨fun x hx => ⟨_, exec_logicalForms hc sf rn rd o x hx, rfl⟩,
    ⟨_, exec_add hc sf rn rd o, by simp [addOut_result]⟩,
    ⟨_, exec_adc hc sf rn rd o, addOut_result _ _ _⟩,
    ⟨_, exec_sub hc sf rn rd o, by simp [subOut_result]⟩,
    ⟨_, exec_rsb hc sf rn rd o, by simp [subOut_result]⟩,
    ⟨_, exec_sbc hc sf rn rd o, subOut_not_result _ _ _⟩,
    ⟨_, exec_rsc hc sf rn rd o, subOut_not_result _ _ _⟩, List.forall_mem_nil _⟩

/-- Settles O41: the result write goes to the pc, and the restore of a legal mode is the CPSR. -/
theorem returnRestoresCpsr : Obligations.ReturnRestoresCpsr := by
  unfold Obligations.ReturnRestoresCpsr
  intro s c rn o hc ho hv x hx
  obtain ⟨a, hexec, hres⟩ := exec_writingForms hc true rn 15 o x hx
  have hspsr := begin_writeR_spsrOf s 15 a.result
  have hrestore := restoreCpsr_of_valid (s := s) (State.writeR_mode s.begin 15 a.result) (hspsr s.mode) ho hv
  rw [hexec, dpWrite_of_hasSpsr ho, hrestore, ← hres]
  exact ⟨_, rfl, rfl, rfl, regsKept_of_regs rfl, othersKept_of_sameStore (SameStore.writeR s.begin 15 a.result) hspsr, rfl⟩

/-- LDM with S = 1 and R15 in the list ends in the restore of an SPSR that its loads and its write-back kept. -/
theorem exec_ldm_of_invalid {s : State} {c : Cond} (hc : condPassed c s.cpsr = true) (ho : s.mode.hasSpsr = true)
    (hv : validPsr (s.spsrOf s.mode) = false) (m : BlockMode) (wb : Bool) (rn : Reg) {list : BitVec 16}
    (h15 : list.getLsbD 15 = true) : exec (.ldm c m true wb rn list) s = .refused .invalidMode := by
  have hne : listedRegs list ≠ [] := fun e => by
    rw [listedRegs_eq_nil.mp e] at h15
    cases h15
  dsimp only [exec, execLdm]
  rw [conditionally_passed hc, if_neg hne, if_pos (by rw [h15]; rfl)]
  refine mapNext_refused.mpr (restoreCpsr_of_invalid (s := s) ?_ ?_ ho hv)
  · split <;> simp
  · split <;> simp [State.writeR_spsrOf]

/-- Settles O32: data processing and LDM reach the restore, which is refused. -/
theorem invalidRestoreRefused : Obligations.InvalidRestoreRefused := by
  unfold Obligations.InvalidRestoreRefused
  intro s c hc ho hv
  refine ⟨fun rn o x hx => ?_, fun m wb rn list h15 => exec_ldm_of_invalid hc ho hv m wb rn h15⟩
  obtain ⟨a, hexec, -⟩ := exec_writingForms hc true rn 15 o x hx
  rw [hexec, dpWrite_of_hasSpsr ho]
  exact mapNext_refused.mpr (restoreCpsr_of_invalid (s := s) (State.writeR_mode s.begin 15 a.result)
    (begin_writeR_spsrOf s 15 a.result s.mode) ho hv)

end Sys2Proof.Machine
end

section
/-! PROOF. What a store leaves: its bus writes, the bytes outside them, the write-back of the base, in single and in block
transfers (20_memory.md rules R96, R100; 43_single_transfer.md rules R261 to R276; 44_block_transfer.md rules R290 to
R298). -/

namespace Sys2Proof.Machine

open Sys2Proof.Cert

/-! ### Bus writes -/

/-- What every bus write keeps: all but the stores, the pending set and the calls made. -/
def BusKept (s u : State) : Prop := u.regs = s.regs ∧ u.pc = s.pc ∧ u.cpsr = s.cpsr ∧ SpsrsKept s u ∧ EnvKept s u

theorem BusKept.refl (s : State) : BusKept s s := ⟨rfl, rfl, rfl, fun _ => rfl, rfl, rfl, rfl⟩

theorem BusKept.trans {s t u : State} (h : BusKept s t) (g : BusKept t u) : BusKept s u := by
  obtain ⟨hregs, hpc, hcpsr, hspsrs, hparams, hirq, hdraws⟩ := h
  obtain ⟨gregs, gpc, gcpsr, gspsrs, gparams, girq, gdraws⟩ := g
  exact ⟨gregs.trans hregs, gpc.trans hpc, gcpsr.trans hcpsr, fun m => (gspsrs m).trans (hspsrs m),
    gparams.trans hparams, girq.trans hirq, gdraws.trans hdraws⟩

theorem BusKept.write8 (s : State) (a : Word) (v : Byte) : BusKept s (s.write8 a v) :=
  ⟨State.write8_regs s a v, State.write8_pc s a v, State.write8_cpsr s a v,
    State.spsrOf_congr (by simp) (by simp) (by simp) (by simp) (by simp),
    State.write8_params s a v, State.write8_irqLine s a v, State.write8_draws s a v⟩

theorem BusKept.write16 (s : State) (a : Word) (v : Half) : BusKept s (s.write16 a v) := by
  unfold State.write16
  dsimp only
  split
  · exact ⟨rfl, rfl, rfl, fun m => State.spsrOf_congr rfl rfl rfl rfl rfl m, rfl, rfl, rfl⟩
  · exact (BusKept.write8 _ _ _).trans (.write8 _ _ _)

theorem BusKept.write32 (s : State) (a v : Word) : BusKept s (s.write32 a v) :=
  (((BusKept.write8 _ _ _).trans (.write8 _ _ _)).trans (.write8 _ _ _)).trans (.write8 _ _ _)

/-! ### The bytes outside a write -/

theorem bytesKeptOutside_write8 (s : State) (a : Word) (v : Byte) : BytesKeptOutside s (s.write8 a v) [a] := fun _ h =>
  s.read8_write8_ne (h a (by simp)) v

theorem bytesKeptOutside_write16 (s : State) (a : Word) (v : Half) : BytesKeptOutside s (s.write16 a v) (halfBytes a) :=
  fun _ h => s.read8_write16_ne (h _ (by simp [halfBytes])) (h _ (by simp [halfBytes])) v

theorem bytesKeptOutside_write32 (s : State) (a v : Word) : BytesKeptOutside s (s.write32 a v) (wordBytes a) :=
  fun _ h => s.read8_write32_ne (h _ (by simp [wordBytes])) (h _ (by simp [wordBytes])) (h _ (by simp [wordBytes]))
    (h _ (by simp [wordBytes])) v

theorem bytesKeptOutside_of_sameMemory {s u t : State} {bytes : List Word} (h : BytesKeptOutside s u bytes)
    (ht : SameMemory u t) : BytesKeptOutside s t bytes := fun a ha => (ht.1 a).trans (h a ha)

/-! ### The end of a store -/

/-- What a store that began in `s` leaves: memory is that of `u`, its bus writes; the base is written where `back` holds. -/
def StoreLeaves (s u t : State) (back : Prop) (rn : Reg) (ea : Word) (base : Nat) (xs : List Access) : Prop :=
  t.cpsr = s.cpsr ∧ SpsrsKept s t ∧ EnvKept s t ∧ SameMemory u t ∧
    (back → Wrote s t rn ea ∧ Costs s t base (rn == 15) xs) ∧ (¬ back → OnlyPc s t ∧ Costs s t base false xs)

section
variable {s u : State} {back : Prop} (hu : BusKept s u) (rn : Reg) (ea : Word) (base : Nat) (xs : List Access)
include hu

theorem storeLeaves_of_back (hb : back) :
    StoreLeaves s u (s.begin.finish base xs (u.begin.writeR rn ea)) back rn ea base xs := by
  obtain ⟨hregs, -, hcpsr, hspsrs, hparams, hirq, hdraws⟩ := hu
  have hw : OthersKept u (s.begin.finish base xs (u.begin.writeR rn ea)) :=
    othersKept_of_sameStore (SameStore.writeR u.begin rn ea) fun m => by rw [State.finish_spsrOf, begin_writeR_spsrOf]
  obtain ⟨wspsrs, wmem, wparams, wirq, wdraws⟩ := hw
  refine ⟨by simpa using hcpsr, fun m => (wspsrs m).trans (hspsrs m),
    ⟨wparams.trans hparams, wirq.trans hirq, wdraws.trans hdraws⟩, wmem, fun _ => ⟨?_, by simp [Costs]⟩, absurd hb⟩
  exact wrote_of_writeR (w := u.begin) hregs (State.mode_congr hcpsr) rfl rfl rfl

theorem storeLeaves_of_not_back (hb : ¬ back) :
    StoreLeaves s u (s.begin.finish base xs u.begin) back rn ea base xs := by
  obtain ⟨hregs, -, hcpsr, hspsrs, henv⟩ := hu
  refine ⟨hcpsr, fun m => ?_, henv, ⟨fun _ => rfl, rfl, rfl, rfl⟩, fun h => absurd h hb, fun _ => ⟨?_, rfl⟩⟩
  · rw [State.finish_spsrOf, State.begin_spsrOf, hspsrs]
  · exact onlyPc_finish (u := u.begin) hregs rfl base xs

/-- The two ends of a single store (rule R261). -/
theorem storeTransfer_leaves (ix : Indexing) (rd : Reg) (a : TransferAddr) (w : Width) :
    ∃ t, storeTransfer s.begin ix rn rd a u.begin w = .next t ∧
      StoreLeaves s u t (WritesBack ix rn rd) rn a.ea s.params.cycStr [⟨a.addr, w⟩] := by
  unfold storeTransfer
  rw [State.writeback_eq]
  split
  · next hb => exact ⟨_, rfl, storeLeaves_of_back hu rn a.ea _ _ hb⟩
  · next hb => exact ⟨_, rfl, storeLeaves_of_not_back hu rn a.ea _ _ hb⟩

end

/-! ### The single stores (rules R261 to R276) -/

/-- Each store form is its bus write, then the write-back. -/
theorem exec_storeForms {s : State} {c : Cond} (hc : condPassed c s.cpsr = true) (ix : Indexing) (up : Bool) (rn rd : Reg)
    (off : Offset) (hoff : HalfOffset) : ∀ x ∈ storeForms s c ix up rn rd off hoff,
      exec x.instr s = storeTransfer s.begin x.ix rn rd x.at' x.after.begin x.width := by
  simp only [storeForms, List.forall_mem_cons, ← State.begin_write8, ← State.begin_write16, ← State.begin_write32]
  exact ⟨conditionally_passed hc (storeWord · ix up rn rd off), conditionally_passed hc (storeByte · ix up rn rd off),
    conditionally_passed hc (storeWord · .post up rn rd off), conditionally_passed hc (storeByte · .post up rn rd off),
    conditionally_passed hc fun u => storeTransfer u ix rn rd (hwAddress u ix up rn hoff)
      (u.write16 (hwAddress u ix up rn hoff).addr ((u.readR rd true).extractLsb' 0 16)) .half, List.forall_mem_nil _⟩

theorem storeForms_after (s : State) (c : Cond) (ix : Indexing) (up : Bool) (rn rd : Reg) (off : Offset)
    (hoff : HalfOffset) : ∀ x ∈ storeForms s c ix up rn rd off hoff,
      BusKept s x.after ∧ BytesKeptOutside s x.after x.bytes := by
  simp only [storeForms, List.forall_mem_cons]
  exact ⟨⟨.write32 _ _ _, bytesKeptOutside_write32 _ _ _⟩, ⟨.write8 _ _ _, bytesKeptOutside_write8 _ _ _⟩,
    ⟨.write32 _ _ _, bytesKeptOutside_write32 _ _ _⟩, ⟨.write8 _ _ _, bytesKeptOutside_write8 _ _ _⟩,
    ⟨.write16 _ _ _, bytesKeptOutside_write16 _ _ _⟩, List.forall_mem_nil _⟩

/-- Settles O46: the bus write keeps what the statement asks, and the end of the store adds the write-back. -/
theorem storeResult : Obligations.StoreResult := by
  unfold Obligations.StoreResult
  intro s c ix up rn rd off hoff hc x hx
  obtain ⟨hu, hbytes⟩ := storeForms_after s c ix up rn rd off hoff x hx
  obtain ⟨t, ht, hcpsr, hspsrs, henv, hmem, hback⟩ := storeTransfer_leaves hu rn x.ix rd x.at' x.width
  exact ⟨t, (exec_storeForms hc ix up rn rd off hoff x hx).trans ht, hcpsr, hspsrs, henv, hmem,
    bytesKeptOutside_of_sameMemory hbytes hmem, hback⟩

/-! ### STM (rules R290 to R298) -/

/-- The word stores of a block, in a walk over its registers. -/
def State.storeBlock (s : State) (sb : Bool) (list : BitVec 16) (start : Word) : State :=
  (listedRegs list).foldl (fun u i => u.write32 (slot start list i) (stmValue s sb i)) s

theorem BusKept.foldl_write32 {ι : Type} (f g : ι → Word) (l : List ι) (s : State) :
    BusKept s (l.foldl (fun u i => u.write32 (f i) (g i)) s) := by
  induction l generalizing s with
  | nil => exact .refl s
  | cons i l ih => exact (BusKept.write32 s (f i) (g i)).trans (ih _)

theorem begin_foldl_write32 {ι : Type} (f g : ι → Word) (l : List ι) (s : State) :
    l.foldl (fun u i => u.write32 (f i) (g i)) s.begin = (l.foldl (fun u i => u.write32 (f i) (g i)) s).begin := by
  induction l generalizing s with
  | nil => rfl
  | cons i l ih => rw [List.foldl_cons, List.foldl_cons, State.begin_write32, ih]

/-- The value the walk stores is the statement's. -/
theorem storeValue_eq_stmValue (s : State) (sb : Bool) (i : Reg) :
    (if sb && i != 15 then s.reg .usr i else s.readR i true) = stmValue s sb i := by
  unfold stmValue
  by_cases h : i = 15
  · subst h
    simp [State.readR_fifteen_plus12]
  · cases sb <;> simp [h, State.readR_of_ne]

/-- The walk of STM is its word stores. -/
theorem storeList_begin (s : State) (sb : Bool) (list : BitVec 16) (start : Word) :
    storeList sb (listedRegs list) start s.begin = (s.storeBlock sb list start).begin := by
  rw [storeList_eq sb _ start s.begin (listedRegs_pairwise list)]
  simp only [State.begin_reg, State.begin_readR, storeValue_eq_stmValue]
  exact begin_foldl_write32 (slot start list) (stmValue s sb) _ s

theorem bytesKeptOutside_storeBlock (s : State) (sb : Bool) (list : BitVec 16) (start : Word) :
    BytesKeptOutside s (s.storeBlock sb list start)
      ((listedRegs list).flatMap fun i => wordBytes (slot start list i)) := fun a h =>
  foldl_write32_read8_ne (slot start list) (stmValue s sb) a (listedRegs list) s fun i hi k hk => by
    refine h _ (List.mem_flatMap.mpr ⟨i, hi, ?_⟩)
    interval_cases k <;> simp [wordBytes]

/-- The two ends of a block store (rule R292). -/
theorem exec_stm_leaves {s : State} {c : Cond} (hc : condPassed c s.cpsr = true) (m : BlockMode) (sb wb : Bool) (rn : Reg)
    {list : BitVec 16} (hl : list ≠ 0#16) :
    let n := (listedRegs list).length
    let a := blockAddress m (s.readR rn) n
    ∃ t, exec (.stm c m sb wb rn list) s = .next t ∧
      StoreLeaves s (s.storeBlock sb list a.start) t (wb = true) rn a.wb (s.params.cycStmBase + n) (blockAccesses a.start n) := by
  intro n a
  have hu : BusKept s (s.storeBlock sb list a.start) := .foldl_write32 _ _ _ s
  dsimp only [exec, execStm]
  rw [conditionally_passed hc, if_neg (mt listedRegs_eq_nil.mp hl), storeList_begin]
  cases wb with
  | true => exact ⟨_, rfl, storeLeaves_of_back hu rn a.wb _ _ rfl⟩
  | false => exact ⟨_, rfl, storeLeaves_of_not_back hu rn a.wb _ _ Bool.false_ne_true⟩

/-- Settles O50: the walk is the statement's word stores, and the end of the store adds the write-back. -/
theorem storeMultipleResult : Obligations.StoreMultipleResult := by
  unfold Obligations.StoreMultipleResult
  intro s c m sb wb rn list hc hl n a stored
  obtain ⟨t, ht, hcpsr, hspsrs, henv, hmem, hback, hkeep⟩ := exec_stm_leaves hc m sb wb rn hl
  have hbytes := bytesKeptOutside_of_sameMemory (bytesKeptOutside_storeBlock s sb list a.start) hmem
  cases wb with
  | true =>
    obtain ⟨hwrote, hcosts⟩ := hback rfl
    exact ⟨t, ht, hmem, hbytes, hwrote, hcpsr, hspsrs, henv, hcosts⟩
  | false =>
    obtain ⟨honly, hcosts⟩ := hkeep Bool.false_ne_true
    exact ⟨t, ht, hmem, hbytes, honly, hcpsr, hspsrs, henv, hcosts⟩

end Sys2Proof.Machine
end

section
/-! PROOF. The test opcodes with S = 0 that are neither MRS, MSR nor BX (41_data_processing.md rules R224, R230). -/

namespace Sys2Proof

/-! ### The decode (rules R135, R224) -/

theorem TestOp.bits_ofBits (b : BitVec 2) : (TestOp.ofBits b).bits = b := by
  revert b
  decide

/-- An opcode field that starts with 10 is a test operation's. -/
theorem field_opcode_of_test {w : Word} (h : field w 23 2 = 0b10#2) :
    field w 21 4 = 0b10#2 ++ (TestOp.ofBits (field w 21 2)).bits := by
  rw [TestOp.bits_ofBits, ← h]
  exact (BitVec.extractLsb'_append_extractLsb'_eq_extractLsb' (start₁ := 21) (len₁ := 2) rfl).symm

/-- The converse of `of_decodeDataProcessing_eq_dpTestS0`. -/
theorem decodeDataProcessing_eq_dpTestS0 {w : Word} {op : TestOp} (hop : field w 21 4 = 0b10#2 ++ op.bits)
    (h20 : w.getLsbD 20 = false) :
    decodeDataProcessing w = .dpTestS0 (.ofBits (field w 28 4)) op (regAt w 16) (decodeOperand2 w) := by
  unfold decodeDataProcessing
  rw [hop, h20]
  cases op <;> rfl

end Sys2Proof

namespace Sys2Proof.Machine

open Sys2Proof.Cert

/-! ### The effect (rules R224, R230) -/

/-- Data processing that does no work before its end leaves only the pc and the cycle count. -/
theorem dpFinish_begin_leaves (s : State) (o : Operand2) :
    let t := dpFinish s.begin o s.begin
    t.cpsr = s.cpsr ∧ OnlyPc s t ∧ OthersKept s t ∧ Costs s t (dpCycles s o) false [] := by
  intro t
  have hstore : SameStore s t := ⟨rfl, rfl, rfl, rfl, rfl, rfl⟩
  exact ⟨rfl, onlyPc_finish rfl rfl _ _,
    othersKept_of_sameStore hstore fun m => State.spsrOf_congr rfl rfl rfl rfl rfl m, rfl⟩

theorem exec_dpTestS0 {s : State} {c : Cond} (hc : condPassed c s.cpsr = true) (op : TestOp) (rn : Reg) (o : Operand2) :
    exec (.dpTestS0 c op rn o) s = .next (dpFinish s.begin o s.begin) :=
  conditionally_passed hc fun s => .next (dpFinish s o s)

/-- Settles O39: bits 24:23 and the S bit make the word such a test, which ends without having done any work. -/
theorem testWithoutFlagsWritesNothing : Obligations.TestWithoutFlagsWritesNothing := by
  unfold Obligations.TestWithoutFlagsWritesNothing
  constructor
  · intro w hu h23 h20
    have hd := decodeDataProcessing_eq_dpTestS0 (field_opcode_of_test h23) h20
    exact ⟨_, _, _, _, (decode_of_unit hu).trans (congrArg some hd)⟩
  · intro s c op rn o hc
    exact ⟨_, exec_dpTestS0 hc op rn o, dpFinish_begin_leaves s o⟩

end Sys2Proof.Machine
end

section
/-! PROOF. The example words of the spec (41_data_processing.md rule R213; 42_multiply.md to 48_swi.md). -/

namespace Sys2Proof

theorem decode_of_encode_eq {w : Word} {i : Instr} (hw : encode i = w) (hi : i.wf = true) : decode w = some i :=
  hw ▸ decode_encode hi

/-- Settles O3: each word is the encoding of its instruction, which the round trip reads back. -/
theorem specWordsDecode : Obligations.SpecWordsDecode := by
  unfold Obligations.SpecWordsDecode
  and_intros <;> exact decode_of_encode_eq rfl rfl

end Sys2Proof
end

section
/-! PROOF. Multiply and multiply-long: the products as integers, the write of the result and the frame (42_multiply.md
rules R241 to R249). -/

namespace Sys2Proof.Machine

open Sys2Proof.Cert

/-! ### The 64-bit products and the accumulator (rules R246 to R249) -/

theorem toNat_unsignedProduct (a b : Word) :
    ((unsignedProduct a b).toNat : Int) = ((a.toNat : Int) * b.toNat) % 2 ^ 64 := by
  simp [unsignedProduct]

theorem toNat_signedProduct (a b : Word) : ((signedProduct a b).toNat : Int) = (a.toInt * b.toInt) % 2 ^ 64 := by
  rw [signedProduct, BitVec.toNat_ofInt, Int.toNat_of_nonneg (Int.emod_nonneg _ (by decide))]
  rfl

/-- RdHi is the high word of the accumulator. -/
theorem toNat_accumulator (s : State) (hi lo : Reg) :
    ((accumulator s hi lo).toNat : Int) = ((s.readR hi).toNat : Int) * 2 ^ 32 + (s.readR lo).toNat := by
  rw [accumulator, BitVec.toNat_append, ← Nat.shiftLeft_add_eq_or_of_lt (s.readR lo).isLt, Nat.shiftLeft_eq]
  push_cast
  rfl

/-- Adding the accumulator to a product modulo 2^64. -/
theorem toNat_add_of_emod {p q : BitVec 64} {i j : Int} (hp : (p.toNat : Int) = i % 2 ^ 64) (hq : (q.toNat : Int) = j) :
    ((p + q).toNat : Int) = (i + j) % 2 ^ 64 := by
  rw [BitVec.toNat_add, Int.natCast_emod, Int.natCast_add, hp, hq]
  exact Int.emod_add_emod i _ j

/-! ### The end of a multiply: N and Z under S, and the frame (rules R242, R243) -/

/-- N and Z written when S = 1. -/
def State.nzWritten (s : State) (sf n z : Bool) : State := if sf then s.setNZ n z else s

@[simp] theorem State.nzWritten_regs (s : State) (sf n z : Bool) : (s.nzWritten sf n z).regs = s.regs := by cases sf <;> rfl
@[simp] theorem State.nzWritten_pc (s : State) (sf n z : Bool) : (s.nzWritten sf n z).pc = s.pc := by cases sf <;> rfl
@[simp] theorem State.nzWritten_refill (s : State) (sf n z : Bool) : (s.nzWritten sf n z).refill = s.refill := by
  cases sf <;> rfl

theorem SameStore.nzWritten (s : State) (sf n z : Bool) : SameStore s (s.nzWritten sf n z) := by
  cases sf <;> exact ⟨rfl, rfl, rfl, rfl, rfl, rfl⟩

theorem State.nzWritten_spsrOf (s : State) (sf n z : Bool) (m : Mode) : (s.nzWritten sf n z).spsrOf m = s.spsrOf m := by
  cases sf <;> exact State.spsrOf_congr rfl rfl rfl rfl rfl m

/-- What a multiply leaves besides its registers and the pc: N and Z when S = 1, and the cycle count. -/
def MulEnds (s t : State) (sf n z : Bool) (base : Nat) (refill : Bool) : Prop :=
  (if sf then FlagsAre s t n z (psrC s.cpsr) (psrV s.cpsr) else t.cpsr = s.cpsr) ∧
    OthersKept s t ∧ Costs s t base refill []

/-- Work that writes registers alone, and then N and Z, ends so. -/
theorem mulEnds_finish {s u : State} (hcpsr : u.cpsr = s.cpsr) (hstore : SameStore s u)
    (hspsr : ∀ m, u.spsrOf m = s.spsrOf m) (sf n z : Bool) (base : Nat) :
    MulEnds s (s.begin.finish base [] (u.nzWritten sf n z)) sf n z base u.refill := by
  refine ⟨?_, othersKept_of_sameStore (hstore.trans (.nzWritten u sf n z)) fun m => ?_, by simp [Costs]⟩
  · cases sf with
    | true => simp [State.nzWritten, FlagsAre, hcpsr]
    | false => exact hcpsr
  · rw [State.finish_spsrOf, State.nzWritten_spsrOf, hspsr]

/-! ### The result writes (rules R241, R242) -/

theorem mulWrite_eq (s : State) (sf : Bool) (rd : Reg) (r : Word) (base : Nat) : mulWrite s sf rd r base =
    .next (s.finish base [] ((s.writeR rd r).nzWritten sf (r.getLsbD 31) (r == 0))) := rfl

theorem mulWrite_leaves (s : State) (sf : Bool) (rd : Reg) (r : Word) (base : Nat) :
    ∃ t, mulWrite s.begin sf rd r base = .next t ∧ Wrote s t rd r ∧
      MulEnds s t sf (r.getLsbD 31) (r == 0) base (rd == 15) := by
  refine ⟨_, mulWrite_eq s.begin sf rd r base, wrote_of_writeR (w := s.begin) rfl rfl rfl (by simp) (by simp), ?_⟩
  have hends := mulEnds_finish (s := s) (State.writeR_cpsr s.begin rd r) (SameStore.writeR s.begin rd r)
    (begin_writeR_spsrOf s rd r) sf (r.getLsbD 31) (r == 0) base
  rwa [State.writeR_refill, State.begin_refill, Bool.false_or] at hends

/-- The registers after RdLo and then RdHi are written. -/
def State.longWritten (s : State) (hi lo : Reg) (p : BitVec 64) : State :=
  (s.writeR lo (p.extractLsb' 0 32)).writeR hi (p.extractLsb' 32 32)

theorem mullWrite_eq (s : State) (sf : Bool) (hi lo : Reg) (p : BitVec 64) (base : Nat) : mullWrite s sf hi lo p base =
    .next (s.finish base [] ((s.longWritten hi lo p).nzWritten sf (p.getLsbD 63) (p == 0))) := rfl

section
variable (s : State) (hi lo : Reg) (p : BitVec 64)

/-- The later write, of RdHi, wins where both name one register. -/
theorem State.get_longWritten (q : PhysReg) : (s.longWritten hi lo p).regs.get q =
    if view s.mode hi = some q then p.extractLsb' 32 32
    else if view s.mode lo = some q then p.extractLsb' 0 32 else s.regs.get q := by
  rw [State.longWritten, State.get_writeR, State.get_writeR, State.writeR_mode]

theorem State.longWritten_pc : (s.longWritten hi lo p).pc =
    if hi = 15 then p.extractLsb' 32 32 &&& 0xFFFFFFFC#32
    else if lo = 15 then p.extractLsb' 0 32 &&& 0xFFFFFFFC#32 else s.pc := by
  rw [State.longWritten, State.writeR_pc, State.writeR_pc]

theorem State.longWritten_refill : (s.longWritten hi lo p).refill = (s.refill || (hi == 15 || lo == 15)) := by
  rw [State.longWritten, State.writeR_refill, State.writeR_refill, Bool.or_assoc, Bool.or_comm (lo == 15)]

/-- What a long multiply leaves: the halves of a 64-bit result in RdHi and RdLo, N and Z when S = 1, the pc and the cycle
count. -/
def MullLeaves (t : State) (sf : Bool) (base : Nat) : Prop :=
  (hi ≠ 15 → t.reg s.mode hi = p.extractLsb' 32 32) ∧
    (lo ≠ 15 → lo ≠ hi → t.reg s.mode lo = p.extractLsb' 0 32) ∧
    t.pc = (if hi = 15 then p.extractLsb' 32 32 &&& 0xFFFFFFFC#32
      else if lo = 15 then p.extractLsb' 0 32 &&& 0xFFFFFFFC#32 else s.pc + 4#32) ∧
    RegsKept s t [view s.mode hi, view s.mode lo] ∧
    MulEnds s t sf (p.getLsbD 63) (p == 0) base (hi == 15 || lo == 15)

/-- Work with the registers and the pc of the two writes leaves the halves where the statement reads them. -/
theorem mullLeaves_of_longWritten {t : State} {sf : Bool} {base : Nat}
    (hregs : t.regs = (s.begin.longWritten hi lo p).regs)
    (hpc : t.pc = if (s.begin.longWritten hi lo p).refill then (s.begin.longWritten hi lo p).pc else s.pc + 4#32)
    (hends : MulEnds s t sf (p.getLsbD 63) (p == 0) base (hi == 15 || lo == 15)) : MullLeaves s hi lo p t sf base := by
  have get (q : PhysReg) := hregs ▸ State.get_longWritten s.begin hi lo p q
  rw [State.begin_mode] at get
  refine ⟨fun h => ?_, fun h hne => ?_, ?_, fun q hq => ?_, hends⟩
  · obtain ⟨q, hq, hreg⟩ := State.reg_eq_get (m := s.mode) h
    rw [hreg, get, if_pos hq]
  · obtain ⟨q, hq, hreg⟩ := State.reg_eq_get (m := s.mode) h
    have hhi : view s.mode hi ≠ some q := fun e => hne (view_injective (hq.trans e.symm))
    rw [hreg, get, if_neg hhi, if_pos hq]
  · rw [hpc, State.longWritten_refill, State.longWritten_pc]
    by_cases hhi : hi = 15 <;> by_cases hlo : lo = 15 <;> simp [hhi, hlo]
  · simp only [List.mem_cons, List.not_mem_nil, or_false, not_or] at hq
    obtain ⟨hhi, hlo⟩ := hq
    rw [get, if_neg (Ne.symm hhi), if_neg (Ne.symm hlo), State.begin_regs]

theorem mullWrite_leaves (sf : Bool) (base : Nat) :
    ∃ t, mullWrite s.begin sf hi lo p base = .next t ∧ MullLeaves s hi lo p t sf base := by
  refine ⟨_, mullWrite_eq s.begin sf hi lo p base, mullLeaves_of_longWritten s hi lo p (by simp) (by simp) ?_⟩
  have hcpsr : (s.begin.longWritten hi lo p).cpsr = s.cpsr := by simp [State.longWritten]
  have hstore : SameStore s (s.begin.longWritten hi lo p) := (SameStore.writeR s.begin lo _).trans (.writeR _ hi _)
  have hspsr (m : Mode) : (s.begin.longWritten hi lo p).spsrOf m = s.spsrOf m := by
    rw [State.longWritten, State.writeR_spsrOf, begin_writeR_spsrOf]
  have hends := mulEnds_finish hcpsr hstore hspsr sf (p.getLsbD 63) (p == 0) base
  rwa [State.longWritten_refill, State.begin_refill, Bool.false_or] at hends

end

/-! ### The six instructions -/

section
variable {s : State} {c : Cond} (hc : condPassed c s.cpsr = true) (sf : Bool)
include hc

theorem exec_mul (rd rm rs : Reg) : exec (.mul c sf rd rm rs) s =
    mulWrite s.begin sf rd (s.readR rm * s.readR rs) s.params.cycMul :=
  (conditionally_passed hc _ : execMul c sf rd rm rs s = _)

theorem exec_mla (rd rn rm rs : Reg) : exec (.mla c sf rd rn rm rs) s =
    mulWrite s.begin sf rd (s.readR rm * s.readR rs + s.readR rn) s.params.cycMla :=
  (conditionally_passed hc _ : execMla c sf rd rn rm rs s = _)

theorem exec_umull (hi lo rm rs : Reg) : exec (.umull c sf hi lo rm rs) s =
    mullWrite s.begin sf hi lo (unsignedProduct (s.readR rm) (s.readR rs)) s.params.cycMull :=
  (conditionally_passed hc _ : execUmull c sf hi lo rm rs s = _)

theorem exec_umlal (hi lo rm rs : Reg) : exec (.umlal c sf hi lo rm rs) s =
    mullWrite s.begin sf hi lo (unsignedProduct (s.readR rm) (s.readR rs) + accumulator s hi lo) s.params.cycMlal :=
  (conditionally_passed hc _ : execUmlal c sf hi lo rm rs s = _)

theorem exec_smull (hi lo rm rs : Reg) : exec (.smull c sf hi lo rm rs) s =
    mullWrite s.begin sf hi lo (signedProduct (s.readR rm) (s.readR rs)) s.params.cycMull :=
  (conditionally_passed hc _ : execSmull c sf hi lo rm rs s = _)

theorem exec_smlal (hi lo rm rs : Reg) : exec (.smlal c sf hi lo rm rs) s =
    mullWrite s.begin sf hi lo (signedProduct (s.readR rm) (s.readR rs) + accumulator s hi lo) s.params.cycMlal :=
  (conditionally_passed hc _ : execSmlal c sf hi lo rm rs s = _)

end

/-! ### Results, flags and frames -/

/-- An instruction that ends in the 32-bit write leaves the value that is written. -/
theorem exec_leaves_of_mulWrite {s : State} {i : Instr} {sf : Bool} {rd : Reg} {r : Word} {base n : Nat}
    (hi : exec i s = mulWrite s.begin sf rd r base) (hr : r.toNat = n % 2 ^ 32) :
    ∃ t r, exec i s = .next t ∧ r.toNat = n % 2 ^ 32 ∧ Wrote s t rd r ∧
      MulEnds s t sf (r.getLsbD 31) (r == 0) base (rd == 15) :=
  let ⟨t, ht, hw⟩ := mulWrite_leaves s sf rd r base
  ⟨t, r, hi.trans ht, hr, hw⟩

/-- Settles O42: both end in the 32-bit write, of the product or of the product plus Rn. -/
theorem multiplyResult : Obligations.MultiplyResult := by
  unfold Obligations.MultiplyResult
  intro s c sf rd rn rm rs hc m k
  simp only [List.forall_mem_cons]
  exact ⟨exec_leaves_of_mulWrite (exec_mul hc sf rd rm rs) (BitVec.toNat_mul _ _),
    exec_leaves_of_mulWrite (exec_mla hc sf rd rn rm rs) (by rw [BitVec.toNat_add, BitVec.toNat_mul, Nat.mod_add_mod]),
    List.forall_mem_nil _⟩

/-- An instruction that ends in the 64-bit write leaves the value that is written. -/
theorem exec_leaves_of_mullWrite {s : State} {i : Instr} {sf : Bool} {hi lo : Reg} {p : BitVec 64} {base : Nat} {n : Int}
    (hexec : exec i s = mullWrite s.begin sf hi lo p base) (hp : (p.toNat : Int) = n % 2 ^ 64) :
    ∃ (t : State) (p : BitVec 64), exec i s = .next t ∧ (p.toNat : Int) = n % 2 ^ 64 ∧
      MullLeaves s hi lo p t sf base :=
  let ⟨t, ht, hl⟩ := mullWrite_leaves s hi lo p sf base
  ⟨t, p, hexec.trans ht, hp, hl⟩

/-- Settles O43: the four end in the 64-bit write, of a product or of a product plus the accumulator. -/
theorem longMultiplyResult : Obligations.LongMultiplyResult := by
  unfold Obligations.LongMultiplyResult
  intro s c sf hi lo rm rs hc u g acc
  have hu : ((unsignedProduct (s.readR rm) (s.readR rs)).toNat : Int) = u % 2 ^ 64 := toNat_unsignedProduct _ _
  have hg : ((signedProduct (s.readR rm) (s.readR rs)).toNat : Int) = g % 2 ^ 64 := toNat_signedProduct _ _
  have hacc : ((accumulator s hi lo).toNat : Int) = acc := toNat_accumulator s hi lo
  simp only [List.forall_mem_cons]
  exact ⟨exec_leaves_of_mullWrite (exec_umull hc sf hi lo rm rs) hu,
    exec_leaves_of_mullWrite (exec_umlal hc sf hi lo rm rs) (toNat_add_of_emod hu hacc),
    exec_leaves_of_mullWrite (exec_smull hc sf hi lo rm rs) hg,
    exec_leaves_of_mullWrite (exec_smlal hc sf hi lo rm rs) (toNat_add_of_emod hg hacc), List.forall_mem_nil _⟩

end Sys2Proof.Machine
end

section
/-! PROOF. Single transfers: the address and the effective address, what a load leaves, and the reserved halfword stores
(43_single_transfer.md rules R260 to R279). -/

namespace Sys2Proof

/-! ### The decode of the reserved stores (rule R279) -/

/-- With S set, S:H is 10 or 11. -/
theorem field_sh_of_signed {w : Word} (h6 : w.getLsbD 6 = true) : field w 5 2 = 0b10#2 ∨ field w 5 2 = 0b11#2 := by
  have hbit : (field w 5 2).getLsbD 1 = true := by rw [getLsbD_field]; exact h6
  generalize field w 5 2 = sh at hbit ⊢
  revert sh
  decide

theorem decodeHalfword_of_signed_store {w : Word} (h20 : w.getLsbD 20 = false) (h6 : w.getLsbD 6 = true) :
    ∃ c ix up rn rd off, decodeHalfword w = .strResSb c ix up rn rd off ∨
      decodeHalfword w = .strResSh c ix up rn rd off := by
  unfold decodeHalfword
  rw [h20]
  rcases field_sh_of_signed h6 with hsh | hsh <;> rw [hsh]
  · exact ⟨_, _, _, _, _, _, .inl rfl⟩
  · exact ⟨_, _, _, _, _, _, .inr rfl⟩

end Sys2Proof

namespace Sys2Proof.Machine

open Sys2Proof.Cert

/-! ### Addresses (rules R260, R270) -/

/-- The effective address is the sum or difference modulo 2^32, and only a post-indexed transfer accesses the base. -/
theorem indexed_spec (ix : Indexing) (up : Bool) {base b offset n : Word} (hb : base = b) (hn : offset = n) :
    let x := indexed ix up base offset
    x.ea.toNat = (if up then b.toNat + n.toNat else b.toNat + (2 ^ 32 - n.toNat)) % 2 ^ 32 ∧
      x.addr = (if ix = .post then b else x.ea) := by
  subst hb hn
  constructor
  · cases up with
    | true => exact BitVec.toNat_add base offset
    | false => exact (BitVec.toNat_sub base offset).trans (by rw [Nat.add_comm]; rfl)
  · cases ix <;> rfl

theorem offsetValue_imm (s : State) (n : BitVec 12) : offsetValue s (.imm n) = n.setWidth 32 :=
  (BitVec.setWidth_eq_append (by decide)).symm

theorem halfOffsetValue_imm (s : State) (n : BitVec 8) : halfOffsetValue s (.imm n) = n.setWidth 32 :=
  (BitVec.setWidth_eq_append (by decide)).symm

theorem readR_eq_ite (s : State) (i : Reg) : s.readR i = if i = 15 then s.pc + 8#32 else s.reg s.mode i := rfl

/-- Settles O44: both units index from the base that `readR` reads, by the offset of their form. -/
theorem transferAddresses : Obligations.TransferAddresses := by
  unfold Obligations.TransferAddresses
  intro s ix up rn base
  have hbase : s.readR rn = base := readR_eq_ite s rn
  refine ⟨fun off => ?_, fun off => ?_⟩
  · cases off with
    | imm n => exact indexed_spec ix up hbase (offsetValue_imm s n)
    | reg rm ty k => exact indexed_spec ix up hbase rfl
  · cases off with
    | imm n => exact indexed_spec ix up hbase (halfOffsetValue_imm s n)
    | reg rm => exact indexed_spec ix up hbase rfl

/-! ### The end of a load (rules R261, R276) -/

section
variable (s : State) (rn rd : Reg) (ea v : Word) (base : Nat) (xs : List Access)

/-- The state in which a load ends that writes Rd and then the base. -/
def State.loadedBack : State := s.begin.finish base xs ((s.begin.writeR rd v).writeR rn ea)

/-- The base, written last, wins where both name one register. -/
theorem State.get_loadedBack (p : PhysReg) : (s.loadedBack rn rd ea v base xs).regs.get p =
    if view s.mode rn = some p then ea else if view s.mode rd = some p then v else s.regs.get p := by
  rw [State.loadedBack, State.finish_regs, State.get_writeR, State.get_writeR, State.writeR_mode]
  rfl

theorem State.loadedBack_pc : (s.loadedBack rn rd ea v base xs).pc =
    if rn = 15 then ea &&& 0xFFFFFFFC#32 else if rd = 15 then v &&& 0xFFFFFFFC#32 else s.pc + 4#32 := by
  simp only [State.loadedBack, State.finish_pc, State.writeR_refill, State.writeR_pc]
  by_cases hn : rn = 15 <;> by_cases hd : rd = 15 <;> simp [hn, hd]

theorem loadedBack_base (h : rn ≠ 15) : (s.loadedBack rn rd ea v base xs).reg s.mode rn = ea := by
  obtain ⟨p, hp, hreg⟩ := State.reg_eq_get (m := s.mode) h
  rw [hreg, State.get_loadedBack, if_pos hp]

theorem loadedBack_loaded (h : rd ≠ 15) (hne : rd ≠ rn) : (s.loadedBack rn rd ea v base xs).reg s.mode rd = v := by
  obtain ⟨p, hp, hreg⟩ := State.reg_eq_get (m := s.mode) h
  have hrn : view s.mode rn ≠ some p := fun e => hne (view_injective (hp.trans e.symm))
  rw [hreg, State.get_loadedBack, if_neg hrn, if_pos hp]

theorem regsKept_loadedBack : RegsKept s (s.loadedBack rn rd ea v base xs) [view s.mode rn, view s.mode rd] := by
  intro p hp
  simp only [List.mem_cons, List.not_mem_nil, or_false, not_or] at hp
  obtain ⟨hrn, hrd⟩ := hp
  rw [State.get_loadedBack, if_neg (Ne.symm hrn), if_neg (Ne.symm hrd)]

theorem othersKept_loadedBack : OthersKept s (s.loadedBack rn rd ea v base xs) :=
  othersKept_of_sameStore ((SameStore.writeR s.begin rd v).trans (.writeR _ rn ea)) fun m => by
    rw [State.loadedBack, State.finish_spsrOf, State.writeR_spsrOf, begin_writeR_spsrOf]

theorem costs_loadedBack : Costs s (s.loadedBack rn rd ea v base xs) base (rn == 15 || rd == 15) xs := by
  simp [Costs, State.loadedBack, Bool.or_comm]

end

/-- What a load leaves: Rd, the base where it is written back, the pc and the cycle count. -/
def LoadLeaves (s t : State) (ix : Indexing) (rn rd : Reg) (ea v : Word) (xs : List Access) : Prop :=
  t.cpsr = s.cpsr ∧ OthersKept s t ∧
    (WritesBack ix rn rd →
      (rn ≠ 15 → t.reg s.mode rn = ea) ∧ (rd ≠ 15 → rd ≠ rn → t.reg s.mode rd = v) ∧
      t.pc = (if rn = 15 then ea &&& 0xFFFFFFFC#32 else if rd = 15 then v &&& 0xFFFFFFFC#32 else s.pc + 4#32) ∧
      RegsKept s t [view s.mode rn, view s.mode rd] ∧ Costs s t s.params.cycLdr (rn == 15 || rd == 15) xs) ∧
    (¬ WritesBack ix rn rd → Wrote s t rd v ∧ Costs s t s.params.cycLdr (rd == 15) xs)

/-- The two ends of a load (rule R261). -/
theorem loadTransfer_leaves (s : State) (ix : Indexing) (rn rd : Reg) (a : TransferAddr) (v : Word) (w : Width) :
    ∃ t, loadTransfer s.begin ix rn rd a v w = .next t ∧ LoadLeaves s t ix rn rd a.ea v [⟨a.addr, w⟩] := by
  unfold loadTransfer
  rw [State.writeback_eq]
  split
  · next hb =>
    exact ⟨s.loadedBack rn rd a.ea v s.params.cycLdr _, rfl, by simp [State.loadedBack], othersKept_loadedBack ..,
      fun _ => ⟨loadedBack_base s rn rd a.ea v _ _, loadedBack_loaded s rn rd a.ea v _ _,
        State.loadedBack_pc .., regsKept_loadedBack s rn rd a.ea v _ _, costs_loadedBack ..⟩, absurd hb⟩
  · next hb =>
    exact ⟨_, rfl, State.writeR_cpsr s.begin rd v,
      othersKept_of_sameStore (SameStore.writeR s.begin rd v) (begin_writeR_spsrOf s rd v), fun h => absurd h hb,
      fun _ => ⟨wrote_of_writeR (w := s.begin) rfl rfl rfl rfl rfl, by simp [Costs]⟩⟩

/-! ### The seven loads (rules R263 to R274) -/

/-- Each load form is its bus read, then the write of Rd and the write-back. -/
theorem exec_loadForms {s : State} {c : Cond} (hc : condPassed c s.cpsr = true) (ix : Indexing) (up : Bool) (rn rd : Reg)
    (off : Offset) (hoff : HalfOffset) : ∀ x ∈ loadForms s c ix up rn rd off hoff,
      exec x.instr s = loadTransfer s.begin x.ix rn rd x.at' x.value x.width := by
  have half (value : State → Word → Word) (w : Width) := conditionally_passed hc fun u =>
    loadTransfer u ix rn rd (hwAddress u ix up rn hoff) (value u (hwAddress u ix up rn hoff).addr) w
  simp only [loadForms, List.forall_mem_cons]
  exact ⟨conditionally_passed hc (loadWord · ix up rn rd off), conditionally_passed hc (loadByte · ix up rn rd off),
    conditionally_passed hc (loadWord · .post up rn rd off), conditionally_passed hc (loadByte · .post up rn rd off),
    half (fun u a => (u.read16 a).setWidth 32) .half, half (fun u a => (u.read8 a).signExtend 32) .byte,
    half (fun u a => (u.read16 a).signExtend 32) .half, List.forall_mem_nil _⟩

/-- Settles O45: every load form ends in the one write of Rd and of the base. -/
theorem loadResult : Obligations.LoadResult := by
  unfold Obligations.LoadResult
  intro s c ix up rn rd off hoff hc x hx
  obtain ⟨t, ht, hl⟩ := loadTransfer_leaves s x.ix rn rd x.at' x.value x.width
  exact ⟨t, (exec_loadForms hc ix up rn rd off hoff x hx).trans ht, hl⟩

/-! ### The effect of the reserved stores (rules R279, R420) -/

/-- An instruction that does no work before its end leaves only the pc and the cycle count. -/
theorem finish_begin_leaves (s : State) (base : Nat) :
    let t := s.begin.finish base [] s.begin
    t.cpsr = s.cpsr ∧ OnlyPc s t ∧ OthersKept s t ∧ Costs s t base false [] := by
  intro t
  have hstore : SameStore s t := ⟨rfl, rfl, rfl, rfl, rfl, rfl⟩
  exact ⟨rfl, onlyPc_finish rfl rfl _ _,
    othersKept_of_sameStore hstore fun m => State.spsrOf_congr rfl rfl rfl rfl rfl m, rfl⟩

/-- Settles O47: L = 0 and S = 1 select the two reserved rows, which end without having done any work. -/
theorem reservedStoreDoesNothing : Obligations.ReservedStoreDoesNothing := by
  unfold Obligations.ReservedStoreDoesNothing
  constructor
  · intro w hu h20 h6
    obtain ⟨c, ix, up, rn, rd, off, hd⟩ := decodeHalfword_of_signed_store h20 h6
    rw [decode_of_unit hu]
    exact ⟨c, ix, up, rn, rd, off, hd.imp (congrArg some) (congrArg some)⟩
  · intro s c ix up rn rd off hc
    have hexec : conditionally c s (fun u => .next (u.finish 1 [] u)) = .next (s.begin.finish 1 [] s.begin) :=
      conditionally_passed hc _
    simp only [List.forall_mem_cons]
    exact ⟨⟨_, hexec, finish_begin_leaves s 1⟩, ⟨_, hexec, finish_begin_leaves s 1⟩, List.forall_mem_nil _⟩

end Sys2Proof.Machine
end

section
/-! PROOF. Block transfers: the addresses of the four modes, what an LDM leaves, and the empty list (44_block_transfer.md rules
R290 to R298). -/

namespace Sys2Proof.Machine

open Sys2Proof.Cert

/-! ### Addresses (rule R290) -/

theorem word_add_ofNat (base : Word) (k : Nat) :
    base + BitVec.ofNat 32 k = BitVec.ofNat 32 ((base.toNat + k) % 2 ^ 32) := by
  apply BitVec.eq_of_toNat_eq
  simp

theorem word_sub_ofNat (base : Word) {k : Nat} (hk : k ≤ 2 ^ 32) :
    base - BitVec.ofNat 32 k = BitVec.ofNat 32 ((base.toNat + 2 ^ 32 - k) % 2 ^ 32) := by
  apply BitVec.eq_of_toNat_eq
  simp only [BitVec.toNat_sub, BitVec.toNat_ofNat]
  omega

/-- Settles O48: the table is in sums and differences of words, which are the statement's sums modulo 2^32. -/
theorem blockAddressing : Obligations.BlockAddressing := by
  unfold Obligations.BlockAddressing
  intro base n hn
  rw [← word_add_ofNat base (4 * n), ← word_sub_ofNat base (k := 4 * n) (by omega)]
  exact ⟨rfl, rfl, rfl, rfl⟩

/-! ### The empty list (rule R293) -/

theorem exec_ldm_empty {s : State} {c : Cond} (hc : condPassed c s.cpsr = true) (m : BlockMode) (sb wb : Bool) (rn : Reg) :
    exec (.ldm c m sb wb rn 0#16) s = .next (s.begin.finish 1 [] s.begin) := by
  dsimp only [exec, execLdm]
  rw [conditionally_passed hc, if_pos (listedRegs_eq_nil.mpr rfl)]

theorem exec_stm_empty {s : State} {c : Cond} (hc : condPassed c s.cpsr = true) (m : BlockMode) (sb wb : Bool) (rn : Reg) :
    exec (.stm c m sb wb rn 0#16) s = .next (s.begin.finish 1 [] s.begin) := by
  dsimp only [exec, execStm]
  rw [conditionally_passed hc, if_pos (listedRegs_eq_nil.mpr rfl)]

/-- Settles O51: with no register listed, both end without having done any work. -/
theorem emptyListDoesNothing : Obligations.EmptyListDoesNothing := by
  unfold Obligations.EmptyListDoesNothing
  intro s c m sb wb rn hc
  simp only [List.forall_mem_cons]
  exact ⟨⟨_, exec_ldm_empty hc m sb wb rn, finish_begin_leaves s 1⟩,
    ⟨_, exec_stm_empty hc m sb wb rn, finish_begin_leaves s 1⟩, List.forall_mem_nil _⟩

/-! ### The loads and the write-back of an LDM (rules R292, R294) -/

section
variable (s : State) (user back : Bool) (rn : Reg) (list : BitVec 16) (a : BlockAddr)

/-- The state after the walk of an LDM and its write-back, before the restore of the CPSR. -/
def State.blockLoaded : State :=
  let loaded := loadList user (listedRegs list) a.start s.begin
  if back then loaded.writeR rn a.wb else loaded

@[simp] theorem State.blockLoaded_cpsr : (s.blockLoaded user back rn list a).cpsr = s.cpsr := by
  cases back <;> simp [State.blockLoaded]

@[simp] theorem State.blockLoaded_mode : (s.blockLoaded user back rn list a).mode = s.mode :=
  State.mode_congr (State.blockLoaded_cpsr ..)

@[simp] theorem State.blockLoaded_spsrOf (m : Mode) : (s.blockLoaded user back rn list a).spsrOf m = s.spsrOf m := by
  cases back <;> simp [State.blockLoaded, State.writeR_spsrOf]

theorem SameStore.blockLoaded : SameStore s (s.blockLoaded user back rn list a) := by
  cases back <;> simp [State.blockLoaded, SameStore]

@[simp] theorem State.blockLoaded_refill : (s.blockLoaded user back rn list a).refill =
    (list.getLsbD 15 || (back && rn == 15)) := by
  have h15 : (listedRegs list).contains 15 = list.getLsbD 15 := by
    rw [Bool.eq_iff_iff, List.contains_iff_mem]
    exact mem_listedRegs
  have hwalk : (loadList user (listedRegs list) a.start s.begin).refill = list.getLsbD 15 := by
    rw [loadList_refill, State.begin_refill, Bool.false_or, h15]
  cases back with
  | true => simp only [State.blockLoaded, if_true, State.writeR_refill, hwalk, Bool.true_and]
  | false => simp only [State.blockLoaded, Bool.false_eq_true, if_false, hwalk, Bool.false_and, Bool.or_false]

/-- The write-back, made last, wins. -/
theorem State.blockLoaded_pc : (s.blockLoaded user back rn list a).pc =
    if back = true ∧ rn = 15 then a.wb &&& 0xFFFFFFFC#32
    else if list.getLsbD 15 then s.read32 (slot a.start list 15) &&& 0xFFFFFFFC#32 else s.pc := by
  have hwalk := loadList_pc user (listedRegs list) a.start s.begin (listedRegs_pairwise list)
  simp only [mem_listedRegs] at hwalk
  cases back with
  | true => simp only [State.blockLoaded, if_true, State.writeR_pc, hwalk, true_and]; rfl
  | false => simp only [State.blockLoaded, Bool.false_eq_true, if_false, hwalk, false_and]; rfl

/-- The pc when the LDM ends: it advances where neither the list nor the write-back set it. -/
theorem blockLoaded_pc_advanced : (if (s.blockLoaded user back rn list a).refill then (s.blockLoaded user back rn list a).pc
    else s.pc + 4#32) = if back = true ∧ rn = 15 then a.wb &&& 0xFFFFFFFC#32
      else if list.getLsbD 15 then s.read32 (slot a.start list 15) &&& 0xFFFFFFFC#32 else s.pc + 4#32 := by
  rw [State.blockLoaded_refill, State.blockLoaded_pc]
  by_cases hb : back = true ∧ rn = 15
  · simp [hb]
  · have hbase : (back && rn == 15) = false := by simpa using hb
    rw [hbase, Bool.or_false, if_neg hb, if_neg hb]
    cases list.getLsbD 15 <;> rfl

theorem State.get_blockLoaded (p : PhysReg) : (s.blockLoaded user back rn list a).regs.get p =
    if back = true ∧ view s.mode rn = some p then a.wb
    else (loadList user (listedRegs list) a.start s.begin).regs.get p := by
  cases back <;> simp [State.blockLoaded, State.get_writeR]

/-- The registers of the ending state `t` are those of the loads and the write-back; its pc need not be. -/
theorem reg_base_of_blockLoaded {t : State} (ht : t.regs = (s.blockLoaded user back rn list a).regs) (hb : back = true)
    (h : rn ≠ 15) : t.reg s.mode rn = a.wb := by
  obtain ⟨p, hp, hreg⟩ := State.reg_eq_get (m := s.mode) h
  rw [hreg, ht, State.get_blockLoaded, if_pos ⟨hb, hp⟩]

/-- A base that is written back is not listed, so it is no listed register of any view. -/
theorem reg_listed_of_blockLoaded {t : State} (ht : t.regs = (s.blockLoaded user back rn list a).regs)
    (hb : back = true → list.getLsbD rn.val = false) {i : Reg} (h : i ≠ 15) (hi : list.getLsbD i.val = true) :
    t.reg (if user then .usr else s.mode) i = s.read32 (slot a.start list i) := by
  obtain ⟨p, hp, hreg⟩ := State.reg_eq_get (m := if user then .usr else s.mode) h
  have hbase : ¬ (back = true ∧ view s.mode rn = some p) := by
    rintro ⟨hback, hrn⟩
    rw [← view_index hrn hp, hb hback] at hi
    exact Bool.false_ne_true hi
  rw [hreg, ht, State.get_blockLoaded, if_neg hbase]
  exact get_loadList_of_listed user _ a.start s.begin i p (listedRegs_pairwise list) (mem_listedRegs.mpr hi) hp

theorem get_blockLoaded_of_not_written {p : PhysReg}
    (hl : ∀ i : Reg, list.getLsbD i.val = true → view (if user then .usr else s.mode) i ≠ some p)
    (hb : back = true → view s.mode rn ≠ some p) : (s.blockLoaded user back rn list a).regs.get p = s.regs.get p := by
  rw [State.get_blockLoaded, if_neg fun ⟨hback, hrn⟩ => hb hback hrn]
  exact get_loadList_of_not_listed user _ a.start s.begin p fun i hi => hl i (mem_listedRegs.mp hi)

end

/-! ### The end of an LDM (rules R180, R296) -/

/-- The restore of a CPSR that is no refusal: the SPSR of a mode that owns one. -/
theorem restoreCpsr_eq {s u : State} (hm : u.mode = s.mode) (hs : u.spsrOf s.mode = s.spsrOf s.mode)
    (hv : s.mode.hasSpsr = true → validPsr (s.spsrOf s.mode) = true) :
    u.restoreCpsr = .next { u with cpsr := if s.mode.hasSpsr then s.spsrOf s.mode else u.cpsr } := by
  cases ho : s.mode.hasSpsr with
  | true => exact restoreCpsr_of_valid hm hs ho (hv ho)
  | false => simp [State.restoreCpsr, hm, ho]

/-- An LDM of a non-empty list loads, writes back, and then replaces the CPSR where it restores it. -/
theorem exec_ldm {s : State} {c : Cond} (hc : condPassed c s.cpsr = true) (m : BlockMode) (sb wb : Bool) (rn : Reg)
    {list : BitVec 16} (hl : list ≠ 0#16)
    (hv : sb = true → list.getLsbD 15 = true → s.mode.hasSpsr = true → validPsr (s.spsrOf s.mode) = true) :
    let n := (listedRegs list).length
    let a := blockAddress m (s.readR rn) n
    exec (.ldm c m sb wb rn list) s = .next (s.begin.finish (s.params.cycLdmBase + n) (blockAccesses a.start n)
      { s.blockLoaded (sb && !list.getLsbD 15) (wb && !list.getLsbD rn.val) rn list a with
        cpsr := if sb && list.getLsbD 15 && s.mode.hasSpsr then s.spsrOf s.mode else s.cpsr }) := by
  intro n a
  dsimp only [exec, execLdm]
  rw [conditionally_passed hc, if_neg (mt listedRegs_eq_nil.mp hl)]
  -- The branches end in `blockLoaded`, written out.
  change (if _ then mapNext _ (s.blockLoaded _ _ rn list a).restoreCpsr else _) = _
  cases hr : sb && list.getLsbD 15 with
  | true =>
    obtain ⟨hsb, h15⟩ := Bool.and_eq_true_iff.mp hr
    rw [if_pos rfl, restoreCpsr_eq (s := s) (State.blockLoaded_mode ..) (State.blockLoaded_spsrOf ..) (hv hsb h15),
      State.blockLoaded_cpsr, Bool.true_and]
    rfl
  | false =>
    rw [if_neg Bool.false_ne_true, Bool.false_and, if_neg Bool.false_ne_true,
      ← State.blockLoaded_cpsr s (sb && !list.getLsbD 15) (wb && !list.getLsbD rn.val) rn list a]
    rfl

/-- Settles O49: the walk fills the listed registers, the write-back adds the base, and the restore touches the CPSR alone. -/
theorem loadMultipleResult : Obligations.LoadMultipleResult := by
  unfold Obligations.LoadMultipleResult
  intro s c m sb wb rn list hc hl hv n a target back
  have hback : back = true → list.getLsbD rn.val = false := fun h => by simpa using (Bool.and_eq_true_iff.mp h).2
  refine ⟨_, exec_ldm hc m sb wb rn hl hv, fun i h hi => reg_listed_of_blockLoaded s _ back rn list a ?_ hback h hi,
    reg_base_of_blockLoaded s _ back rn list a rfl, blockLoaded_pc_advanced s _ back rn list a,
    fun p hp hb => get_blockLoaded_of_not_written s _ back rn list a hp hb, rfl,
    othersKept_of_sameStore (SameStore.blockLoaded s _ back rn list a) (State.blockLoaded_spsrOf s _ back rn list a), ?_⟩
  · rfl
  · simp only [Costs, State.finish_cycles, State.blockLoaded_refill]
    rfl

end Sys2Proof.Machine
end

section
/-! PROOF. Branches: the target as an integer sum, the end that B, BL and BX share, and the link (45_branch.md rules R310 to
R317). -/

namespace Sys2Proof.Machine

open Sys2Proof.Cert

/-- The target is the address, the prefetch offset and four times the signed offset, modulo 2^32 (rule R310). -/
theorem branchTarget_eq_ofInt (a : Word) (offset : BitVec 24) :
    branchTarget a offset = BitVec.ofInt 32 (a.toNat + 8 + 4 * offset.toInt) := by
  have hoffset : offset.signExtend 32 <<< 2 = BitVec.ofInt 32 (4 * offset.toInt) := by
    rw [BitVec.shiftLeft_eq_mul_twoPow, BitVec.mul_comm, BitVec.ofInt_mul]
    rfl
  rw [branchTarget, hoffset, BitVec.ofInt_add, BitVec.ofInt_add, BitVec.ofInt_natCast, BitVec.ofNat_toNat,
    BitVec.setWidth_eq]
  rfl

/-- What B, BL and BX share: work that ends in a refill leaves its own pc, and costs the branch cycles and the refill (rules
R312, R317). -/
theorem branch_leaves {s u : State} (hrefill : u.refill = true) (hstore : SameStore s u)
    (hspsr : ∀ m, u.spsrOf m = s.spsrOf m) :
    let t := s.begin.finish s.params.cycBranch [] u
    t.pc = u.pc ∧ OthersKept s t ∧ Costs s t s.params.cycBranch true [] := by
  intro t
  exact ⟨by simp [t, hrefill], othersKept_of_sameStore hstore fun m => (State.finish_spsrOf ..).trans (hspsr m),
    by simp [Costs, t, hrefill]⟩

/-! ### B and BL (rules R310, R311) -/

/-- The state in which a BL has written its link. -/
def State.linked (s : State) : State := s.begin.setReg s.mode 14 (s.pc + 4#32)

theorem State.get_linked (s : State) (p : PhysReg) :
    s.linked.regs.get p = if view s.mode 14 = some p then s.pc + 4#32 else s.regs.get p :=
  State.get_setReg s.begin s.mode 14 (s.pc + 4#32) p

theorem SameStore.linked (s : State) : SameStore s s.linked := by simp [SameStore, State.linked]

theorem State.linked_spsrOf (s : State) (m : Mode) : s.linked.spsrOf m = s.spsrOf m :=
  State.spsrOf_congr (State.setReg_spsrFiq ..) (State.setReg_spsrIrq ..) (State.setReg_spsrSvc ..)
    (State.setReg_spsrAbt ..) (State.setReg_spsrUnd ..) m

theorem exec_b {s : State} {c : Cond} (hc : condPassed c s.cpsr = true) (offset : BitVec 24) : exec (.b c offset) s =
    .next (s.begin.finish s.params.cycBranch [] (s.begin.writeR 15 (branchTarget s.pc offset))) := by
  dsimp only [exec, execB]
  rw [conditionally_passed hc]
  rfl

theorem exec_bl {s : State} {c : Cond} (hc : condPassed c s.cpsr = true) (offset : BitVec 24) : exec (.bl c offset) s =
    .next (s.begin.finish s.params.cycBranch [] (s.linked.writeR 15 (branchTarget s.pc offset))) := by
  dsimp only [exec, execBl]
  rw [conditionally_passed hc]
  rfl

/-- Settles O52: both write R15 with the target; BL has written its link before, and the write of R15 reaches no general
register. -/
theorem branchResult : Obligations.BranchResult := by
  unfold Obligations.BranchResult
  intro s c offset hc target
  rw [show target = branchTarget s.pc offset from (branchTarget_eq_ofInt s.pc offset).symm]
  constructor
  · obtain ⟨hpc, hothers, hcosts⟩ := branch_leaves (s := s) (u := s.begin.writeR 15 (branchTarget s.pc offset)) rfl
      (SameStore.writeR s.begin 15 _) (begin_writeR_spsrOf s 15 _)
    exact ⟨_, exec_b hc offset, hpc, regsKept_of_regs rfl, rfl, hothers, hcosts⟩
  · obtain ⟨hpc, hothers, hcosts⟩ := branch_leaves (s := s) (u := s.linked.writeR 15 (branchTarget s.pc offset)) rfl
      ((SameStore.linked s).trans (.writeR _ 15 _)) fun m => (State.writeR_spsrOf ..).trans (s.linked_spsrOf m)
    obtain ⟨p, hp, hreg⟩ := State.reg_eq_get (m := s.mode) (i := 14) (by decide)
    have hlink : s.linked.regs.get p = s.pc + 4#32 := (s.get_linked p).trans (if_pos hp)
    have hkept : RegsKept s s.linked [view s.mode 14] := fun q hq =>
      (s.get_linked q).trans (if_neg fun h => hq (List.mem_singleton.mpr h.symm))
    exact ⟨_, exec_bl hc offset, hpc, (hreg _).trans hlink, hkept, State.setReg_cpsr .., hothers, hcosts⟩

/-! ### BX (rule R316) -/

/-- Setting T where `b` holds touches bit 5 alone. -/
theorem getLsbD_withT_of (p : Word) (b : Bool) (k : Nat) :
    (if b then withT p true else p).getLsbD k = if k = 5 then b || psrT p else p.getLsbD k := by
  cases b with
  | true => exact getLsbD_withT p true k
  | false =>
    by_cases h : k = 5
    · subst h
      rfl
    · rw [if_neg h]
      rfl

/-- The state in which a BX to `v` has done its work. -/
def State.exchanged (s : State) (v : Word) : State :=
  { s with cpsr := if v.getLsbD 0 then withT s.cpsr true else s.cpsr, pc := v &&& 0xFFFFFFFE#32, refill := true }

theorem exec_bx {s : State} {c : Cond} (hc : condPassed c s.cpsr = true) (rm : Reg) : exec (.bx c rm) s =
    .next (s.begin.finish s.params.cycBranch [] (s.exchanged (s.readR rm))) := by
  dsimp only [exec, execBx]
  rw [conditionally_passed hc]
  rfl

/-- Settles O53: the operand is `readR`, and the work writes the pc and at most bit 5 of the CPSR. -/
theorem branchExchangeResult : Obligations.BranchExchangeResult := by
  unfold Obligations.BranchExchangeResult
  intro s c rm hc v
  obtain ⟨hpc, hothers, hcosts⟩ := branch_leaves (s := s) (u := s.exchanged v) rfl ⟨rfl, rfl, rfl, rfl, rfl, rfl⟩
    fun m => State.spsrOf_congr rfl rfl rfl rfl rfl m
  have hpsr := getLsbD_withT_of s.cpsr (v.getLsbD 0)
  exact ⟨_, exec_bx hc rm, hpc, hpsr 5, fun k hk => (hpsr k).trans (if_neg hk), regsKept_of_regs rfl, hothers, hcosts⟩

end Sys2Proof.Machine
end

section
/-! PROOF. Swaps: what the end that SWP and SWPB share leaves, and the two bus accesses before it (46_swap.md rules R326 to
R329). -/

namespace Sys2Proof.Machine

open Sys2Proof.Cert

/-- A swap is a store that writes Rd, in the place of a base, with the value read before (rules R327, R328). -/
theorem swap_leaves {s u : State} {bytes : List Word} (hu : BusKept s u) (hbytes : BytesKeptOutside s u bytes) (rd : Reg)
    (v : Word) (xs : List Access) :
    let t := s.begin.finish s.params.cycSwp xs (u.begin.writeR rd v)
    Wrote s t rd v ∧ SameMemory u t ∧ BytesKeptOutside s t bytes ∧ t.cpsr = s.cpsr ∧ SpsrsKept s t ∧ EnvKept s t ∧
      Costs s t s.params.cycSwp (rd == 15) xs := by
  intro t
  obtain ⟨hcpsr, hspsrs, henv, hmem, hback, -⟩ := storeLeaves_of_back hu rd v s.params.cycSwp xs trivial
  obtain ⟨hwrote, hcosts⟩ := hback trivial
  exact ⟨hwrote, hmem, bytesKeptOutside_of_sameMemory hbytes hmem, hcpsr, hspsrs, henv, hcosts⟩

theorem exec_swp {s : State} {c : Cond} (hc : condPassed c s.cpsr = true) (rn rd rm : Reg) :
    let a := s.readR rn
    exec (.swp c rn rd rm) s = .next (s.begin.finish s.params.cycSwp [⟨a, .word⟩, ⟨a, .word⟩]
      ((s.write32 a (s.readR rm)).begin.writeR rd (s.read32 a))) := by
  intro a
  dsimp only [exec, execSwp]
  rw [conditionally_passed hc, ← State.begin_write32]
  rfl

theorem exec_swpb {s : State} {c : Cond} (hc : condPassed c s.cpsr = true) (rn rd rm : Reg) :
    let a := s.readR rn
    exec (.swpb c rn rd rm) s = .next (s.begin.finish s.params.cycSwp [⟨a, .byte⟩, ⟨a, .byte⟩]
      ((s.write8 a ((s.readR rm).extractLsb' 0 8)).begin.writeR rd ((s.read8 a).setWidth 32))) := by
  intro a
  dsimp only [exec, execSwpb]
  rw [conditionally_passed hc, ← State.begin_write8]
  rfl

/-- Settles O54: the bus write keeps what the statement asks, and the end of the swap adds the write of Rd. -/
theorem swapResult : Obligations.SwapResult := by
  unfold Obligations.SwapResult
  intro s c rn rd rm hc a v
  exact ⟨⟨_, exec_swp hc rn rd rm, swap_leaves (.write32 s a v) (bytesKeptOutside_write32 s a v) rd _ _⟩,
    ⟨_, exec_swpb hc rn rd rm, swap_leaves (.write8 s a _) (bytesKeptOutside_write8 s a _) rd _ _⟩⟩

end Sys2Proof.Machine
end

section
/-! PROOF. PSR transfers: what MRS writes, and the status register an MSR leaves (47_psr_transfer.md rules R335 to
R345). -/

namespace Sys2Proof.Machine

open Sys2Proof.Cert

/-! ### The modes without an SPSR, and the frame as the statements name it -/

theorem Mode.hasSpsr_eq_false {m : Mode} : m.hasSpsr = false ↔ m = .usr ∨ m = .sys := by
  cases m <;> decide

theorem SameStore.sameMemory {s t : State} (h : SameStore s t) : SameMemory s t := by
  obtain ⟨hmem, hpend, hcalls, hparams, -, hdraws⟩ := h
  exact ⟨State.read8_congr hmem hpend hdraws hparams, hmem, hpend, hcalls⟩

theorem SameStore.envKept {s t : State} (h : SameStore s t) : EnvKept s t := by
  obtain ⟨-, -, -, hparams, hirq, hdraws⟩ := h
  exact ⟨hparams, hirq, hdraws⟩

theorem sameMemory_trans {s t u : State} (h : SameMemory s t) (g : SameMemory t u) : SameMemory s u := by
  obtain ⟨hread, hmem, hpend, hcalls⟩ := h
  obtain ⟨gread, gmem, gpend, gcalls⟩ := g
  exact ⟨fun a => (gread a).trans (hread a), gmem.trans hmem, gpend.trans hpend, gcalls.trans hcalls⟩

/-! ### MRS (rules R335, R336) -/

theorem mrsWrite_leaves (s : State) (rd : Reg) (v : Word) :
    ∃ t, mrsWrite s.begin rd v = .next t ∧ Wrote s t rd v ∧ t.cpsr = s.cpsr ∧ OthersKept s t ∧
      Costs s t s.params.cycPsr (rd == 15) [] :=
  ⟨_, rfl, wrote_of_writeR (w := s.begin) rfl rfl rfl rfl rfl, State.writeR_cpsr s.begin rd v,
    othersKept_of_sameStore (SameStore.writeR s.begin rd v) (begin_writeR_spsrOf s rd v), by simp [Costs]⟩

section
variable {s : State} {c : Cond} (hc : condPassed c s.cpsr = true)
include hc

theorem exec_mrsCpsr (rd : Reg) : exec (.mrsCpsr c rd) s = mrsWrite s.begin rd s.cpsr :=
  (conditionally_passed hc _ : execMrsCpsr c rd s = _)

/-- The SPSR of a mode that owns none reads 0. -/
theorem exec_mrsSpsr (rd : Reg) : exec (.mrsSpsr c rd) s =
    mrsWrite s.begin rd (if s.mode = .usr ∨ s.mode = .sys then 0x00000000#32 else s.spsrOf s.mode) := by
  have hread : (if s.mode = .usr ∨ s.mode = .sys then 0x00000000#32 else s.spsrOf s.mode) = s.spsrOf s.mode :=
    ite_eq_right_iff.mpr fun h => (s.spsrOf_of_no_spsr (Mode.hasSpsr_eq_false.mpr h)).symm
  have hexec : exec (.mrsSpsr c rd) s = mrsWrite s.begin rd (s.begin.spsrOf s.mode) :=
    (conditionally_passed hc _ : execMrsSpsr c rd s = _)
  rw [hexec, State.begin_spsrOf, hread]

end

/-- Settles O55: both write Rd with the status word, which for the SPSR of a mode that owns none is 0. -/
theorem mrsResult : Obligations.MrsResult := by
  unfold Obligations.MrsResult
  intro s c rd hc
  simp only [List.forall_mem_cons, exec_mrsCpsr hc, exec_mrsSpsr hc]
  exact ⟨mrsWrite_leaves s rd _, mrsWrite_leaves s rd _, List.forall_mem_nil _⟩

/-! ### MSR (rules R337 to R342) -/

/-- The two forms of MSR are one write of their operand (rule R337). -/
theorem exec_msr {s : State} {c : Cond} (hc : condPassed c s.cpsr = true) (psr : PsrSel) (mask rot : BitVec 4) (rm : Reg)
    (imm8 : BitVec 8) :
    ∀ x ∈ [(Instr.msrReg c psr mask rm, s.readR rm), (Instr.msrImm c psr mask rot imm8, rotatedValue rot imm8)],
      exec x.1 s = msrWrite s.begin psr mask x.2 := by
  simp only [List.forall_mem_cons]
  exact ⟨(conditionally_passed hc _ : execMsrReg c psr mask rm s = _),
    (conditionally_passed hc _ : execMsrImm c psr mask rot imm8 s = _), List.forall_mem_nil _⟩

/-- The statements' merge names one word. -/
theorem msrMerges_unique {s : State} {mask : BitVec 4} {v p q : Word} (hp : MsrMerges s mask v p)
    (hq : MsrMerges s mask v q) : p = q :=
  BitVec.eq_of_getLsbD_eq fun k hk => (hp k hk).trans (hq k hk).symm

theorem msrWrite_cpsr {s : State} {mask : BitVec 4} {v new : Word} (hnew : MsrMerges s mask v new) :
    msrWrite s.begin .cpsr mask v =
      if validPsr new then .next (s.begin.finish s.params.cycPsr [] { s.begin with cpsr := new })
      else .refused .invalidMode := by
  rw [msrMerges_unique hnew (msrMerges_mergeBits s mask v)]
  rfl

/-- Settles O56: the word the statement describes is the one merged, and the write of the CPSR is all an MSR does. -/
theorem msrCpsrResult : Obligations.MsrCpsrResult := by
  unfold Obligations.MsrCpsrResult
  intro s c mask rot rm imm8 hc x hx new hnew
  rw [exec_msr hc .cpsr mask rot rm imm8 x hx, msrWrite_cpsr hnew]
  constructor
  · intro hv
    rw [if_pos hv]
    exact ⟨_, rfl, rfl, onlyPc_finish rfl rfl _ _, othersKept_of_sameStore ⟨rfl, rfl, rfl, rfl, rfl, rfl⟩
      fun m => State.spsrOf_congr rfl rfl rfl rfl rfl m, rfl⟩
  · intro hv
    rw [if_neg (by simp [hv])]

/-- The selected bytes of a status word, bit by bit (rules R338, R339). -/
theorem getLsbD_mergeBits_byteMask (old v : Word) (mask : BitVec 4) {k : Nat} (hk : k < 32) :
    (mergeBits old v (byteMask mask)).getLsbD k = if mask.getLsbD (k / 8) = true then v.getLsbD k else old.getLsbD k := by
  rw [getLsbD_mergeBits _ _ _ hk, getLsbD_byteMask mask hk]

/-- The state after an MSR has written `v` to the SPSR of the current mode. -/
def State.spsrWritten (s : State) (v : Word) : State := s.begin.finish s.params.cycPsr [] (s.begin.setSpsr s.mode v)

theorem State.spsrWritten_spsrOf (s : State) (v : Word) (m : Mode) :
    (s.spsrWritten v).spsrOf m = if s.mode = m ∧ s.mode.hasSpsr then v else s.spsrOf m := by
  rw [State.spsrWritten, State.finish_spsrOf, State.spsrOf_setSpsr, State.begin_spsrOf]

theorem SameStore.spsrWritten (s : State) (v : Word) : SameStore s (s.spsrWritten v) := by
  simp [SameStore, State.spsrWritten]

theorem msrWrite_spsr (s : State) (mask : BitVec 4) (v : Word) :
    msrWrite s.begin .spsr mask v = .next (s.spsrWritten (mergeBits (s.spsrOf s.mode) v (byteMask mask))) := by
  rw [← State.begin_spsrOf]
  rfl

/-- Settles O57: the write of one SPSR is all an MSR does, and it is none in a mode that owns none. -/
theorem msrSpsrResult : Obligations.MsrSpsrResult := by
  unfold Obligations.MsrSpsrResult
  intro s c mask rot rm imm8 hc x hx
  rw [exec_msr hc .spsr mask rot rm imm8 x hx, msrWrite_spsr]
  have hstore := SameStore.spsrWritten s (mergeBits (s.spsrOf s.mode) x.2 (byteMask mask))
  refine ⟨_, rfl, State.setSpsr_cpsr .., onlyPc_finish (State.setSpsr_regs ..) (State.setSpsr_refill ..) _ _,
    hstore.sameMemory, hstore.envKept, by simp [Costs, State.spsrWritten], fun m hm => ?_, ?_⟩
  · rw [State.spsrWritten_spsrOf, if_neg fun h => hm h.1.symm]
  · split
    · next hnone =>
      intro m
      rw [State.spsrWritten_spsrOf, if_neg (by simp [Mode.hasSpsr_eq_false.mpr hnone])]
    · next howns =>
      intro k hk
      rw [State.spsrWritten_spsrOf, if_pos (by simpa using mt Mode.hasSpsr_eq_false.mp howns),
        getLsbD_mergeBits_byteMask _ _ _ hk]

end Sys2Proof.Machine
end

section
/-! PROOF. Exception entry: the primitive, its use by the software interrupt without a handler and by the IRQ, and that the
return forms undo it (60_exceptions.md rules R368 to R380; 48_swi.md rules R353 to R356). -/

namespace Sys2Proof.Machine

open Sys2Proof.Cert

/-! ### The entry primitive (rule R372) -/

/-- What an entry to mode `m` with this link does to the registers and the status registers. -/
structure Entered (s t : State) (m : Mode) (link : Word) : Prop where
  saved : t.spsrOf m = s.cpsr
  spsrsKept : ∀ n, n ≠ m → t.spsrOf n = s.spsrOf n
  modeBits : t.cpsr.extractLsb' 0 5 = m.bits
  thumbCleared : psrT t.cpsr = false
  irqMasked : psrI t.cpsr = true
  fiqKept : psrF t.cpsr = psrF s.cpsr
  highKept : t.cpsr.extractLsb' 8 24 = s.cpsr.extractLsb' 8 24
  linkReg : t.reg m 14 = link
  regsKept : RegsKept s t [view m 14]

/-- A state with the registers and status registers of the primitive has entered the mode. -/
theorem entered_of_enter {s t : State} {m : Mode} {vector link : Word} (hm : m.hasSpsr = true)
    (hregs : t.regs = (s.enter m vector link).regs) (hcpsr : t.cpsr = (s.enter m vector link).cpsr)
    (hspsr : ∀ n, t.spsrOf n = (s.enter m vector link).spsrOf n) : Entered s t m link := by
  have get (p : PhysReg) : t.regs.get p = if view m 14 = some p then link else s.regs.get p := by
    rw [hregs, State.get_enter]
  have spsr (n : Mode) : t.spsrOf n = if m = n ∧ m.hasSpsr then s.cpsr else s.spsrOf n := by
    rw [hspsr, State.enter_spsrOf]
  rw [State.enter_cpsr] at hcpsr
  obtain ⟨p, hp, hreg⟩ := State.reg_eq_get (m := m) (i := 14) (by decide)
  exact {
    saved := (spsr m).trans (if_pos ⟨rfl, hm⟩)
    spsrsKept := fun n hn => (spsr n).trans (if_neg fun h => hn h.1.symm)
    modeBits := hcpsr ▸ psrMode_exceptionPsr s.cpsr m
    thumbCleared := hcpsr ▸ psrT_exceptionPsr s.cpsr m
    irqMasked := hcpsr ▸ psrI_exceptionPsr s.cpsr m
    fiqKept := hcpsr ▸ psrF_exceptionPsr s.cpsr m
    highKept := hcpsr ▸ high_exceptionPsr s.cpsr m
    linkReg := (hreg t).trans ((get p).trans (if_pos hp))
    regsKept := fun q hq => (get q).trans (if_neg fun h => hq (List.mem_singleton.mpr h.symm)) }

theorem Entered.mode_eq {s t : State} {m : Mode} {link : Word} (h : Entered s t m link) : t.mode = m :=
  mode_of_ofBits ((congrArg Mode.ofBits h.modeBits).trans (Mode.ofBits_bits m))

theorem SameStore.enter (s : State) (m : Mode) (vector link : Word) : SameStore s (s.enter m vector link) := by
  simp [SameStore]

/-- Settles O29, by the fields of the state entered. -/
theorem exceptionEntry : Obligations.ExceptionEntry := by
  unfold Obligations.ExceptionEntry
  intro s m vector link hm t
  have h : Entered s t m link := entered_of_enter hm rfl rfl fun _ => rfl
  have hstore := SameStore.enter s m vector link
  exact ⟨h.saved, h.spsrsKept, h.modeBits, h.thumbCleared, h.irqMasked, h.fiqKept, h.highKept, h.linkReg, h.regsKept,
    rfl, rfl, hstore.sameMemory, hstore.envKept⟩

/-! ### The software interrupt without a handler (rules R353, R354) -/

/-- The entry sets the refill mark itself. -/
theorem State.begin_enter (s : State) (m : Mode) (vector link : Word) :
    s.begin.enter m vector link = s.enter m vector link := by
  cases m <;> rfl

/-- The state after the SWI exception is taken. -/
def State.swiTaken (s : State) : State :=
  s.begin.finish s.params.cycSwi [] (s.enter .svc ExceptionKind.swi.vector (s.pc + 4#32))

theorem entered_swiTaken (s : State) : Entered s s.swiTaken .svc (s.pc + 4#32) :=
  entered_of_enter (vector := ExceptionKind.swi.vector) rfl rfl rfl fun _ => State.finish_spsrOf ..

theorem SameStore.swiTaken (s : State) : SameStore s s.swiTaken :=
  SameStore.enter s .svc ExceptionKind.swi.vector (s.pc + 4#32)

/-- The four software-interrupt instructions take one exception (rule R354; 30_encoding.md rule R158). -/
theorem exec_swi_fallback {s : State} {c : Cond} (hc : condPassed c s.cpsr = true) (hh : s.params.swiHandler = false)
    (n : BitVec 8) : ∀ i ∈ [Instr.swi c n, Instr.swiCpC c n, Instr.swiCpD c n, Instr.swiCpE c n],
      exec i s = .next s.swiTaken := by
  have taken : conditionally c s (softwareInterrupt · n) = .next s.swiTaken := by
    rw [conditionally_passed hc, softwareInterrupt, State.begin_params, if_neg (by simp [hh]), swiFallback,
      State.begin_enter]
    rfl
  simp only [List.forall_mem_cons]
  exact ⟨taken, taken, taken, taken, List.forall_mem_nil _⟩

/-- Settles O58, by the entry primitive. -/
theorem softwareInterruptEntry : Obligations.SoftwareInterruptEntry := by
  unfold Obligations.SoftwareInterruptEntry
  intro s c n hc hh i hi
  have h := entered_swiTaken s
  have hstore := SameStore.swiTaken s
  exact ⟨s.swiTaken, exec_swi_fallback hc hh n i hi, h.saved, h.spsrsKept, h.modeBits, h.thumbCleared, h.irqMasked,
    h.fiqKept, h.highKept, h.linkReg, h.regsKept, rfl, hstore.sameMemory, hstore.envKept, rfl⟩

/-! ### The IRQ (rules R368, R369) -/

theorem entered_takeIrq (s : State) : Entered s s.takeIrq .irq (s.pc + 4#32) :=
  entered_of_enter (vector := ExceptionKind.irq.vector) rfl rfl rfl
    fun n => State.spsrOf_congr rfl rfl rfl rfl rfl n

theorem SameStore.takeIrq (s : State) : SameStore s s.takeIrq :=
  SameStore.enter s .irq ExceptionKind.irq.vector (s.pc + 4#32)

/-- The sample of the next step is no part of the entry. -/
theorem Entered.endStep {s t : State} {m : Mode} {link : Word} (h : Entered s t m link) : Entered s t.endStep m link := by
  have spsr (n : Mode) : t.endStep.spsrOf n = t.spsrOf n := State.spsrOf_congr rfl rfl rfl rfl rfl n
  exact {
    h with
    saved := (spsr m).trans h.saved
    spsrsKept := fun n hn => (spsr n).trans (h.spsrsKept n hn) }

theorem step_of_irqTaken {s : State} (hT : psrT s.cpsr = false) (hv : validPsr s.cpsr = true) (hirq : s.irqTaken = true) :
    step s = .next s.takeIrq.endStep := by
  unfold step
  rw [if_neg (by simp [hT]), if_pos hv, if_pos hirq]

/-- Settles O30: unmasked, the step is the entry; masked, it runs the instruction. -/
theorem irqIsTaken : Obligations.IrqIsTaken := by
  unfold Obligations.IrqIsTaken
  intro s hT hv hline
  constructor
  · intro hI
    have h := (entered_takeIrq s).endStep
    obtain ⟨hmem, hpend, hcalls, -⟩ := SameStore.takeIrq s
    exact ⟨_, step_of_irqTaken hT hv (by simp [State.irqTaken, hI, hline]), h.saved, h.modeBits, h.thumbCleared,
      h.irqMasked, h.fiqKept, h.highKept, h.linkReg, rfl, rfl, h.regsKept, h.spsrsKept, hmem, hpend, hcalls⟩
  · intro hI i t hd hexec
    exact (stepRunsDecoded s i hT hv (.inr hI) hd).1 t hexec

/-! ### The return from an exception (rules R356, R376, R379) -/

/-- A return form run right after an entry writes its result to the pc and gives back the rest of what was before. -/
theorem return_undoes_entry {s t : State} {m : Mode} {link w : Word} {i : Instr} {rn : Reg} {o : Operand2}
    (h : Entered s t m link) (hm : m.hasSpsr = true) (hstore : SameStore s t) (hv : validPsr s.cpsr = true)
    (hi : (i, w) ∈ writingForms t .al true rn 15 o) :
    ∃ u, exec i t = .next u ∧ u.pc = w &&& 0xFFFFFFFC#32 ∧ u.cpsr = s.cpsr ∧ RegsKept s u [view m 14] ∧
      SameMemory s u := by
  have hsaved : t.spsrOf t.mode = s.cpsr := by rw [h.mode_eq, h.saved]
  obtain ⟨u, hexec, hpc, hcpsr, hregs, ⟨-, hmem, -⟩, -⟩ :=
    returnRestoresCpsr t .al rn o rfl (by rw [h.mode_eq, hm]) (by rw [hsaved, hv]) _ hi
  exact ⟨u, hexec, hpc, hcpsr.trans hsaved, fun p hp => (hregs p List.not_mem_nil).trans (h.regsKept p hp),
    sameMemory_trans hstore.sameMemory hmem⟩

/-- After an entry the current mode's R14 is the link. -/
theorem Entered.readR_link {s t : State} {m : Mode} {link : Word} (h : Entered s t m link) : t.readR 14 = link := by
  rw [State.readR_of_ne t (by decide), h.mode_eq, h.linkReg]

/-- SUBS PC, LR, #4 returns to four below the link. -/
theorem subs_pc_lr_mem_writingForms {s t : State} {m : Mode} {link : Word} (h : Entered s t m link) :
    (Instr.sub .al true 14 15 (.imm 0 4), link - 4#32) ∈ writingForms t .al true 14 15 (.imm 0 4) := by
  have hresult : link - 4#32 = (dpOperands t 14 (.imm 0 4)).op1 - (dpOperands t 14 (.imm 0 4)).op2 := by
    rw [← h.readR_link]
    rfl
  simp [writingForms, hresult]

/-- MOVS PC, LR returns to the link. -/
theorem movs_pc_lr_mem_writingForms {s t : State} {m : Mode} {link : Word} (h : Entered s t m link) :
    (Instr.mov .al true 15 (.shiftImm 14 .lsl 0), link) ∈ writingForms t .al true 0 15 (.shiftImm 14 .lsl 0) := by
  have hresult : link = (dpOperands t 0 (.shiftImm 14 .lsl 0)).op2 := by
    simp [dpOperands, operand2, shifter, shiftZero, h.readR_link]
  simpa [writingForms, logicalForms] using hresult

/-- Settles O31: after either entry the link is the current R14 and the saved status the CPSR before. -/
theorem exceptionReturnRoundTrip : Obligations.ExceptionReturnRoundTrip := by
  unfold Obligations.ExceptionReturnRoundTrip
  refine ⟨⟨decode_of_encode_eq rfl rfl, fun s hv => ?_⟩, decode_of_encode_eq rfl rfl, fun s n hv hh => ?_⟩
  · have hreturn := return_undoes_entry (entered_takeIrq s) rfl (SameStore.takeIrq s) hv
      (subs_pc_lr_mem_writingForms (entered_takeIrq s))
    rwa [BitVec.add_sub_cancel] at hreturn
  · obtain ⟨u, hreturn⟩ := return_undoes_entry (entered_swiTaken s) rfl (SameStore.swiTaken s) hv
      (movs_pc_lr_mem_writingForms (entered_swiTaken s))
    exact ⟨s.swiTaken, u, exec_swi_fallback rfl hh n _ List.mem_cons_self, hreturn⟩

end Sys2Proof.Machine
end

section
/-! PROOF. The host's reset (70_reset_and_hazards.md rule R400). -/

namespace Sys2Proof.Machine

/-- Settles O17: the registers are the zero file, and every other field is set or kept by name. -/
theorem hostResetKeepsMemory : Obligations.HostResetKeepsMemory := by
  unfold Obligations.HostResetKeepsMemory
  exact fun s => ⟨RegFile.get_zero, rfl, fun m => by cases m <;> rfl, rfl, rfl, rfl, rfl, rfl⟩

end Sys2Proof.Machine
end
